-- ==== Sys2Proof/Word.lean ====
section
/-! DEFINITION. The words of the MuseAudio DSP core: widths only (00_scope.md R8, 30_encoding.md R80). -/

namespace Sys2Proof

/-- One byte of the host's byte-addressed view of the sample memory (20_memory.md R62). -/
abbrev Byte := BitVec 8

/-- A 32-bit word: an operand slot, a sample, a register (00_scope.md R8). -/
abbrev Word := BitVec 32

/-- A 32-bit word read as an IEEE 754 binary32 number: bit 31 sign, bits 30:23 biased exponent,
bits 22:0 fraction (00_scope.md R8). Reading a word as an `F32` changes no bit (R11, `asF32`). -/
abbrev F32 := BitVec 32

/-- A command word `W` of 128 bits (30_encoding.md R80). -/
abbrev Command := BitVec 128

end Sys2Proof
end

