-- ==== Sys2Proof/Syntax.lean ====
section
/-! DEFINITION. The 21 commands of 30_encoding.md R83, one constructor per row of the opcode table, with
the operands R82 gives each. A unit index is a plain number (assumption log 16); every other operand
is the 32-bit slot itself. -/

namespace Sys2Proof

/-- A command of the block (30_encoding.md R83). -/
inductive Instr where
  /-- `F_CREATE u, sr` (42_filter.md R141). -/
  | fCreate (u : Nat) (sr : F32)
  /-- `F_DESTROY u` (42_filter.md R142). -/
  | fDestroy (u : Nat)
  /-- `F_SET_FREQ u, hz` (42_filter.md R143). -/
  | fSetFreq (u : Nat) (hz : F32)
  /-- `F_SET_RES u, r` (42_filter.md R144). -/
  | fSetRes (u : Nat) (r : F32)
  /-- `F_SET_SMOOTH u, rate` (42_filter.md R145). -/
  | fSetSmooth (u : Nat) (rate : F32)
  /-- `F_PROCESS u, ptr, count` (42_filter.md R146). -/
  | fProcess (u : Nat) (ptr count : Word)
  /-- `F_RESET u` (42_filter.md R147). -/
  | fReset (u : Nat)
  /-- `F_PEEK u, sel` (42_filter.md R148). -/
  | fPeek (u : Nat) (sel : Word)
  /-- `O_CREATE u, sr` (43_oscillator.md R176). -/
  | oCreate (u : Nat) (sr : F32)
  /-- `O_DESTROY u` (43_oscillator.md R177). -/
  | oDestroy (u : Nat)
  /-- `O_SET_FREQ u, hz` (43_oscillator.md R178). -/
  | oSetFreq (u : Nat) (hz : F32)
  /-- `O_SET_AMP u, a` (43_oscillator.md R179). -/
  | oSetAmp (u : Nat) (amp : F32)
  /-- `O_SET_WAVE u, code` (43_oscillator.md R180). -/
  | oSetWave (u : Nat) (code : Word)
  /-- `O_PROCESS u, ptr, count` (43_oscillator.md R181). -/
  | oProcess (u : Nat) (ptr count : Word)
  /-- `O_RESET u` (43_oscillator.md R182). -/
  | oReset (u : Nat)
  /-- `O_PEEK u, sel` (43_oscillator.md R183). -/
  | oPeek (u : Nat) (sel : Word)
  /-- `U_CLAMP v, lo, hi` (44_utility.md R200). -/
  | uClamp (v lo hi : F32)
  /-- `U_LERP a, b, t` (44_utility.md R201). -/
  | uLerp (a b t : F32)
  /-- `U_DB2LIN db` (44_utility.md R202). -/
  | uDb2Lin (db : F32)
  /-- `U_LIN2DB lin` (44_utility.md R203). -/
  | uLin2Db (lin : F32)
  /-- `D_PEEK sel` (44_utility.md R204). -/
  | dPeek (sel : Word)
deriving DecidableEq, Repr

end Sys2Proof
end

