-- ==== Sys2Proof/WellFormed.lean ====
section
/-! DEFINITION. When a command term can be written as a command word: its unit index fits the 8-bit
`UNIT` field (30_encoding.md R80, R85). Every other operand is a 32-bit slot by its type. -/

namespace Sys2Proof

/-- The unit index a command names, for groups 1 and 2 (30_encoding.md R85). -/
def Instr.unit? : Instr → Option Nat
  | .fCreate u _ => some u
  | .fDestroy u => some u
  | .fSetFreq u _ => some u
  | .fSetRes u _ => some u
  | .fSetSmooth u _ => some u
  | .fProcess u _ _ => some u
  | .fReset u => some u
  | .fPeek u _ => some u
  | .oCreate u _ => some u
  | .oDestroy u => some u
  | .oSetFreq u _ => some u
  | .oSetAmp u _ => some u
  | .oSetWave u _ => some u
  | .oProcess u _ _ => some u
  | .oReset u => some u
  | .oPeek u _ => some u
  | .uClamp _ _ _ => none
  | .uLerp _ _ _ => none
  | .uDb2Lin _ => none
  | .uLin2Db _ => none
  | .dPeek _ => none

/-- The unit index fits the `UNIT` field (30_encoding.md R80: 8 bits). -/
def Instr.wellFormed (i : Instr) : Bool :=
  match i.unit? with
  | some u => decide (u < 256)
  | none => true

end Sys2Proof
end

