-- ==== Sys2Proof/Decode.lean ====
section
/-! DEFINITION. The command word (30_encoding.md R80, R81), the opcode map (R83), the decoder (R91 steps
1 and 2, R84) and the encoder written from the same tables. -/

namespace Sys2Proof

/-- The five formats of 30_encoding.md R81. -/
inductive Format where
  | u
  | ua
  | uab
  | a
  | abc
deriving DecidableEq, Repr

/-- `mask(f)`: the opcode and the must-be-zero fields of a format (30_encoding.md R81). -/
def Format.mask : Format → Command
  | .u => 0xFF00FFFFFFFFFFFFFFFFFFFFFFFFFFFF#128
  | .ua => 0xFF00FFFF00000000FFFFFFFFFFFFFFFF#128
  | .uab => 0xFF00FFFF0000000000000000FFFFFFFF#128
  | .a => 0xFFFFFFFF00000000FFFFFFFFFFFFFFFF#128
  | .abc => 0xFFFFFFFF000000000000000000000000#128

/-- `OPC = W[127:120]` (30_encoding.md R80). -/
def opcField (w : Command) : BitVec 8 := w.extractLsb' 120 8

/-- `UNIT = W[119:112]` (30_encoding.md R80). -/
def unitField (w : Command) : BitVec 8 := w.extractLsb' 112 8

/-- `A = W[95:64]` (30_encoding.md R80). -/
def slotA (w : Command) : Word := w.extractLsb' 64 32

/-- `B = W[63:32]` (30_encoding.md R80). -/
def slotB (w : Command) : Word := w.extractLsb' 32 32

/-- `C = W[31:0]` (30_encoding.md R80). -/
def slotC (w : Command) : Word := w.extractLsb' 0 32

/-- `OPC << 120`, what the masked word must equal (30_encoding.md R81). -/
def opcodeBits (o : BitVec 8) : Command := BitVec.zeroExtend 128 o <<< 120

/-- One row of the opcode map (30_encoding.md R83): opcode, format, and the command made of the
unit index and the three operand slots (R82 says which slot holds what). -/
structure OpcodeRow where
  opc : BitVec 8
  format : Format
  build : Nat → Word → Word → Word → Instr

/-- Group 1, the filter commands (30_encoding.md R83). -/
def filterRows : List OpcodeRow :=
  [ ⟨0x10#8, .ua, fun u a _ _ => .fCreate u a⟩,
    ⟨0x11#8, .u, fun u _ _ _ => .fDestroy u⟩,
    ⟨0x12#8, .ua, fun u a _ _ => .fSetFreq u a⟩,
    ⟨0x13#8, .ua, fun u a _ _ => .fSetRes u a⟩,
    ⟨0x14#8, .ua, fun u a _ _ => .fSetSmooth u a⟩,
    ⟨0x15#8, .uab, fun u a b _ => .fProcess u a b⟩,
    ⟨0x16#8, .u, fun u _ _ _ => .fReset u⟩,
    ⟨0x17#8, .ua, fun u a _ _ => .fPeek u a⟩ ]

/-- Group 2, the oscillator commands (30_encoding.md R83). -/
def oscRows : List OpcodeRow :=
  [ ⟨0x20#8, .ua, fun u a _ _ => .oCreate u a⟩,
    ⟨0x21#8, .u, fun u _ _ _ => .oDestroy u⟩,
    ⟨0x22#8, .ua, fun u a _ _ => .oSetFreq u a⟩,
    ⟨0x23#8, .ua, fun u a _ _ => .oSetAmp u a⟩,
    ⟨0x24#8, .ua, fun u a _ _ => .oSetWave u a⟩,
    ⟨0x25#8, .uab, fun u a b _ => .oProcess u a b⟩,
    ⟨0x26#8, .u, fun u _ _ _ => .oReset u⟩,
    ⟨0x27#8, .ua, fun u a _ _ => .oPeek u a⟩ ]

/-- Group 3, the utility and diagnostic commands (30_encoding.md R83). -/
def utilityRows : List OpcodeRow :=
  [ ⟨0x30#8, .abc, fun _ a b c => .uClamp a b c⟩,
    ⟨0x31#8, .abc, fun _ a b c => .uLerp a b c⟩,
    ⟨0x32#8, .a, fun _ a _ _ => .uDb2Lin a⟩,
    ⟨0x33#8, .a, fun _ a _ _ => .uLin2Db a⟩,
    ⟨0x34#8, .a, fun _ a _ _ => .dPeek a⟩ ]

/-- The opcode map of 30_encoding.md R83. -/
def opcodeMap : List OpcodeRow := filterRows ++ oscRows ++ utilityRows

/-- The row of an opcode, if it has one (30_encoding.md R91 step 1). -/
def findRow (o : BitVec 8) : Option OpcodeRow := opcodeMap.find? fun r => r.opc == o

/-- Why a word is an illegal encoding (30_encoding.md R84). -/
inductive Illegal where
  /-- The opcode is in no row of R83. -/
  | undefinedOpcode
  /-- A must-be-zero field of the row's format is nonzero. -/
  | reservedNonzero
deriving DecidableEq, Repr

/-- Decoding, steps 1 and 2 of 30_encoding.md R91: the command a word is, or why it is illegal. -/
def decode (w : Command) : Except Illegal Instr :=
  match findRow (opcField w) with
  | none => .error .undefinedOpcode
  | some r =>
    if w &&& r.format.mask = opcodeBits (opcField w) then
      .ok (r.build (unitField w).toNat (slotA w) (slotB w) (slotC w))
    else .error .reservedNonzero

/-- A command word from its fields, `RSV` zero (30_encoding.md R80). -/
def packWord (o : BitVec 8) (u : Nat) (a b c : Word) : Command :=
  o ++ BitVec.ofNat 8 u ++ 0#16 ++ a ++ b ++ c

/-- The word of a command (30_encoding.md R80 to R83); a field its format does not use is zero. -/
def encode : Instr → Command
  | .fCreate u sr => packWord 0x10#8 u sr 0#32 0#32
  | .fDestroy u => packWord 0x11#8 u 0#32 0#32 0#32
  | .fSetFreq u hz => packWord 0x12#8 u hz 0#32 0#32
  | .fSetRes u r => packWord 0x13#8 u r 0#32 0#32
  | .fSetSmooth u rate => packWord 0x14#8 u rate 0#32 0#32
  | .fProcess u ptr count => packWord 0x15#8 u ptr count 0#32
  | .fReset u => packWord 0x16#8 u 0#32 0#32 0#32
  | .fPeek u sel => packWord 0x17#8 u sel 0#32 0#32
  | .oCreate u sr => packWord 0x20#8 u sr 0#32 0#32
  | .oDestroy u => packWord 0x21#8 u 0#32 0#32 0#32
  | .oSetFreq u hz => packWord 0x22#8 u hz 0#32 0#32
  | .oSetAmp u amp => packWord 0x23#8 u amp 0#32 0#32
  | .oSetWave u code => packWord 0x24#8 u code 0#32 0#32
  | .oProcess u ptr count => packWord 0x25#8 u ptr count 0#32
  | .oReset u => packWord 0x26#8 u 0#32 0#32 0#32
  | .oPeek u sel => packWord 0x27#8 u sel 0#32 0#32
  | .uClamp v lo hi => packWord 0x30#8 0 v lo hi
  | .uLerp a b t => packWord 0x31#8 0 a b t
  | .uDb2Lin db => packWord 0x32#8 0 db 0#32 0#32
  | .uLin2Db lin => packWord 0x33#8 0 lin 0#32 0#32
  | .dPeek sel => packWord 0x34#8 0 sel 0#32 0#32

/-- The format of a command's row (30_encoding.md R83). -/
def formatOf : Instr → Format
  | .fCreate _ _ => .ua
  | .fDestroy _ => .u
  | .fSetFreq _ _ => .ua
  | .fSetRes _ _ => .ua
  | .fSetSmooth _ _ => .ua
  | .fProcess _ _ _ => .uab
  | .fReset _ => .u
  | .fPeek _ _ => .ua
  | .oCreate _ _ => .ua
  | .oDestroy _ => .u
  | .oSetFreq _ _ => .ua
  | .oSetAmp _ _ => .ua
  | .oSetWave _ _ => .ua
  | .oProcess _ _ _ => .uab
  | .oReset _ => .u
  | .oPeek _ _ => .ua
  | .uClamp _ _ _ => .abc
  | .uLerp _ _ _ => .abc
  | .uDb2Lin _ => .a
  | .uLin2Db _ => .a
  | .dPeek _ => .a

/-- The command an opcode-table word of `nbits` bits decodes to: one 128-bit word, every bit above
`nbits` zero. The command is transferred whole, so it has no byte order (30_encoding.md R86). -/
def decodeTableWord (nbits w : Nat) : Option Instr :=
  (decode (BitVec.ofNat 128 (w % 2 ^ nbits))).toOption

end Sys2Proof
end

