-- ==== Sys2Proof/Machine/Memory.lean ====
section
/-! DEFINITION. The sample memory (20_memory.md R60): 32-bit words, held as the bytes of the host's
little-endian byte view (R62) in one canonical list (assumption log 4). -/

namespace Sys2Proof.Machine

/-- The sample memory as (byte address, byte) pairs. -/
abbrev Memory := List Host.Cell

/-- DESIGN CHOICE (assumption log 3), unsafe: what a byte that nothing has written reads as; after
HRESET the memory is unspecified (10_state.md R41). -/
def initialByte : Byte := 0x00#8

/-- The byte at a byte address. -/
def readByte : Memory → Nat → Byte
  | [], _ => initialByte
  | (k, b) :: m, a => if k = a then b else readByte m a

/-- The memory after writing a byte; the canonical form is kept. -/
def writeByte : Memory → Nat → Byte → Memory
  | [], a, b => if b = initialByte then [] else [(a, b)]
  | (k, c) :: m, a, b =>
    if a < k then (if b = initialByte then (k, c) :: m else (a, b) :: (k, c) :: m)
    else if a = k then (if b = initialByte then m else (a, b) :: m)
    else (k, c) :: writeByte m a b

/-- The canonical form: addresses strictly rising, no entry equal to what an unlisted address reads
as. -/
def Memory.wf : Memory → Bool
  | [] => true
  | (k, b) :: m => decide (b ≠ initialByte) && m.all (fun c => decide (k < c.1)) && Memory.wf m

/-- Every listed byte belongs to one of the `words` words of the memory (20_memory.md R74). -/
def Memory.inside (m : Memory) (words : Nat) : Bool := m.all fun c => decide (c.1 < 4 * words)

/-- `MemRead(a, 1)`: byte `k` of word `a` is at byte address `4a+k` and holds bits `[8k+7 : 8k]`
(20_memory.md R60, R62). -/
def memRead (m : Memory) (a : Nat) : Word :=
  readByte m (4 * a + 3) ++ readByte m (4 * a + 2) ++ readByte m (4 * a + 1) ++ readByte m (4 * a)

/-- `MemWrite(a, 1, v)` (00_scope.md R11, 20_memory.md R60, R62). -/
def memWrite (m : Memory) (a : Nat) (v : Word) : Memory :=
  writeByte
    (writeByte
      (writeByte (writeByte m (4 * a) (v.extractLsb' 0 8)) (4 * a + 1) (v.extractLsb' 8 8))
      (4 * a + 2) (v.extractLsb' 16 8))
    (4 * a + 3) (v.extractLsb' 24 8)

/-- The memory that holds given bytes, those outside its `words` words left out: the contents HRESET
leaves, which the spec does not fix (10_state.md R41, assumption log 7). -/
def memOfCells (words : Nat) (cells : List Host.Cell) : Memory :=
  cells.foldl (fun m c => if c.1 < 4 * words then writeByte m c.1 c.2 else m) []

end Sys2Proof.Machine
end

