-- ==== Sys2Proof/Config.lean ====
section
/-! DEFINITION. What a build of the block fixes: the configuration record of 00_scope.md R6, and the
free functions of the numerics record `NUM_B32` (R9, R10), which have no body. -/

namespace Sys2Proof

/-- `GATE_ON`: whether the hysteresis test reads the current values after (`post`) or before (`pre`)
the smoothers advance (00_scope.md R6, 42_filter.md R149). -/
inductive GateOn where
  | post
  | pre
deriving DecidableEq, Repr

/-- `QMAP`: the resonance to quality-factor mapping (41_coefficients.md R122). -/
inductive QMap where
  /-- `Q = 0.5 + 10·resonance`. -/
  | a
  /-- `alpha = sinω / (2·(1 − resonance))`. -/
  | b
deriving DecidableEq, Repr

/-- The parameters of 00_scope.md R6, over the number type `F` of the numerics record. `NF` and `NO`
are not here: they are the lengths of the unit banks of the state (assumption log 1). -/
structure Config (F : Type) where
  /-- `MEM_WORDS`, the size of the sample memory in words. -/
  memWords : Nat
  /-- `F_FMIN`, the filter frequency floor. -/
  fFmin : F
  /-- `F_FMAX_FRAC`, the filter frequency ceiling as a fraction of the sample rate. -/
  fFmaxFrac : F
  /-- `RES_MIN`. -/
  resMin : F
  /-- `RES_MAX`. -/
  resMax : F
  /-- `SMOOTH_MIN`. -/
  smoothMin : F
  /-- `SMOOTH_MAX`. -/
  smoothMax : F
  /-- `HYST_F`, the frequency hysteresis threshold. -/
  hystF : F
  /-- `HYST_R`, the resonance hysteresis threshold. -/
  hystR : F
  /-- `GATE_ON`. -/
  gateOn : GateOn
  /-- `QMAP`. -/
  qmap : QMap
  /-- `DEF_FREQ`, before clamping. -/
  defFreq : F
  /-- `DEF_RES`. -/
  defRes : F
  /-- `DEF_SMOOTH`. -/
  defSmooth : F
  /-- `OSC_FMIN`. -/
  oscFmin : F
  /-- `OSC_FMAX`. -/
  oscFmax : F
  /-- `AMP_MIN`. -/
  ampMin : F
  /-- `AMP_MAX`. -/
  ampMax : F
  /-- `DEF_OSC_FREQ`. -/
  defOscFreq : F
  /-- `DEF_AMP`. -/
  defAmp : F
  /-- `DEF_WAVE`. -/
  defWave : BitVec 2
  /-- `EPS_DB`, the floor under the logarithm. -/
  epsDb : F
  /-- `TWO_PI`. -/
  twoPi : F
deriving DecidableEq, Repr

/-- DESIGN CHOICE (assumption log 8), safe: what the build's sine circuit answers for an operand,
before it is held to the properties of 00_scope.md R10. Nothing constrains it. -/
opaque Config.rawSin : F32 → F32

/-- DESIGN CHOICE (assumption log 8), safe: as `Config.rawSin`, for the cosine. -/
opaque Config.rawCos : F32 → F32

/-- DESIGN CHOICE (assumption log 8), safe: as `Config.rawSin`, for `10^a`. -/
opaque Config.rawPow10 : F32 → F32

/-- DESIGN CHOICE (assumption log 8), safe: as `Config.rawSin`, for `log10 a`. -/
opaque Config.rawLog10 : F32 → F32

end Sys2Proof
end

