-- ==== Sys2Proof/Machine/Params.lean ====
section
/-! DEFINITION. The parameter values the spec takes (00_scope.md R6, column "value"), each the binary32
bit pattern of the table. -/

namespace Sys2Proof.Machine

/-- DESIGN CHOICE (assumption log 2), unsafe: `NF` of the reset state, the suggestion of 00_scope.md R6. -/
def standardNF : Nat := 1

/-- DESIGN CHOICE (assumption log 2), unsafe: `NO` of the reset state, the suggestion of 00_scope.md R6. -/
def standardNO : Nat := 1

/-- The standard configuration (00_scope.md R6). DESIGN CHOICE (assumption log 2), unsafe: `memWords`,
which R6 leaves open, is the largest size it allows. -/
def standardConfig : Config F32 where
  memWords := 2 ^ 32
  fFmin := 0x41A00000#32
  fFmaxFrac := 0x3EE66666#32
  resMin := 0x00000000#32
  resMax := 0x3F7D70A4#32
  smoothMin := 0x00000000#32
  smoothMax := 0x3DCCCCCD#32
  hystF := 0x3F800000#32
  hystR := 0x3A83126F#32
  gateOn := .post
  qmap := .a
  defFreq := 0x447A0000#32
  defRes := 0x3F333333#32
  defSmooth := 0x3C23D70A#32
  oscFmin := 0x41A00000#32
  oscFmax := 0x469C4000#32
  ampMin := 0x00000000#32
  ampMax := 0x3F800000#32
  defOscFreq := 0x43DC8000#32
  defAmp := 0x3F800000#32
  defWave := 0#2
  epsDb := 0x2B8CBCCC#32
  twoPi := 0x40C90FDB#32

end Sys2Proof.Machine
end

