-- ==== Sys2Proof/Machine/State.lean ====
section
/-! DEFINITION. The architectural state of the block (10_state.md R20), the reasons a step stops, and
the state after HRESET (R41, 70_reset_and_hazards.md R240). -/

namespace Sys2Proof.Machine

/-- The registers of a live filter unit (10_state.md R21); `LIVE` itself is whether the unit is there
(R22, assumption log 12). -/
structure FilterUnit (F : Type) where
  /-- `SAMPLE_RATE` (R23). -/
  sampleRate : F
  /-- `CUR_FREQ` (R24). -/
  curFreq : F
  /-- `TGT_FREQ` (R24). -/
  tgtFreq : F
  /-- `CUR_RES` (R25). -/
  curRes : F
  /-- `TGT_RES` (R25). -/
  tgtRes : F
  /-- `SMOOTH` (R26). -/
  smooth : F
  /-- `B0` (R27). -/
  b0 : F
  /-- `B1` (R27). -/
  b1 : F
  /-- `B2` (R27). -/
  b2 : F
  /-- `A1` (R27). -/
  a1 : F
  /-- `A2` (R27). -/
  a2 : F
  /-- `X1`, the previous input sample (R28). -/
  x1 : F
  /-- `X2`, the one before (R28). -/
  x2 : F
  /-- `Y1`, the previous output sample (R28). -/
  y1 : F
  /-- `Y2`, the one before (R28). -/
  y2 : F
deriving DecidableEq, Repr

/-- The registers of a live oscillator unit (10_state.md R29); `LIVE` as for a filter unit. -/
structure OscUnit (F : Type) where
  /-- `SAMPLE_RATE` (R23). -/
  sampleRate : F
  /-- `FREQ` (R30). -/
  freq : F
  /-- `AMP` (R31). -/
  amp : F
  /-- `WAVE`, two bits: 0 sine, 1 sawtooth, 2 square, 3 triangle (R32). -/
  wave : BitVec 2
  /-- `PHASE` (R33). -/
  phase : F
  /-- `INC` (R30). -/
  inc : F
deriving DecidableEq, Repr

/-- What the host does next (assumption log 5): the block acts only on the host's actions. -/
inductive HostAction where
  /-- The host presents a command word (30_encoding.md R86). -/
  | command (w : Command)
  /-- The host writes a word of the sample memory between two commands (20_memory.md R60, R69). -/
  | write (addr : Word) (value : Word)
  /-- The host applies HRESET (70_reset_and_hazards.md R240); `contents` is what the sample memory,
  which the spec leaves unspecified, holds after it (10_state.md R41, assumption log 7). -/
  | hreset (contents : List Host.Cell)
deriving DecidableEq, Repr

/-- The state of the block (10_state.md R20), the build's configuration and the host's actions to come. -/
structure State where
  /-- The configuration record of 00_scope.md R6; the model's own field, which no step changes
  (assumption log 1). -/
  cfg : Config F32
  /-- `F[0]` to `F[NF-1]` (R20, R21): `NF` is the length; `none` is a unit that is not live (R22). -/
  filters : List (Option (FilterUnit F32))
  /-- `O[0]` to `O[NO-1]` (R20, R29): `NO` is the length; `none` is a unit that is not live (R22). -/
  oscs : List (Option (OscUnit F32))
  /-- `G.RESULT` (R34). -/
  result : Word
  /-- `G.DIAG_CLAMP` (R35). -/
  diagClamp : Word
  /-- `G.DIAG_NOOP` (R35). -/
  diagNoop : Word
  /-- The sample memory (20_memory.md R60). -/
  mem : Memory
  /-- The host's actions to come, oldest first; the model's own field (assumption log 5). -/
  host : List HostAction
deriving DecidableEq, Repr

/-- Why a step faults. No command does (60_exceptions.md R220, R234). -/
inductive Fault where
  /-- Raised by a host action that writes a word at or above `MEM_WORDS`, which does not exist
  (20_memory.md R74, assumption log 6). Safe: the model stops where the host left its contract. -/
  | absentWord
deriving DecidableEq, Repr

/-- Why a command has no meaning. -/
inductive Refusal where
  /-- A command without a meaning yet; raised by no arm. Safe: the model stops. -/
  | notModelled (mnemonic : String)
  /-- Raised by `F_PROCESS` and `O_PROCESS` on a live unit with nonzero pointer and count whose buffer
  does not lie inside the sample memory (20_memory.md R67, 60_exceptions.md R234, assumption log 13).
  Safe: the spec gives the command no meaning. -/
  | bufferOutsideMemory
deriving DecidableEq, Repr

/-- The state right after HRESET of a build with `nf` filter units, `no` oscillator units and the
configuration `cfg`, whose sample memory then holds `mem` (10_state.md R41, 70_reset_and_hazards.md R240). -/
def State.afterHreset (cfg : Config F32) (nf no : Nat) (mem : Memory) : State where
  cfg := cfg
  filters := List.replicate nf none
  oscs := List.replicate no none
  result := 0#32
  diagClamp := 0#32
  diagNoop := 0#32
  mem := mem
  host := []

/-- The machine right after reset: the standard build (00_scope.md R6, assumption log 2), nothing
written to the sample memory (assumption log 3), the host still to act (assumption log 5). -/
def State.reset : State := State.afterHreset standardConfig standardNF standardNO []

end Sys2Proof.Machine
end

