-- ==== Sys2Proof/Machine/Flags.lean ====
section
/-! DEFINITION. The flag-like state of the block: the `LIVE` bits (10_state.md R22, R38) and the two
saturating event counters (R35). There are no condition flags (R38). -/

namespace Sys2Proof.Machine

/-- `min(c + 1, 0xFFFFFFFF)` (10_state.md R35, 30_encoding.md R94). -/
def satInc (c : Word) : Word := if c = 0xFFFFFFFF#32 then c else c + 1#32

/-- `clamp_event()` (60_exceptions.md R223). -/
def clampEvent (s : State) : State := { s with diagClamp := satInc s.diagClamp }

/-- The count of a NOOP event (60_exceptions.md R222). -/
def noopEvent (s : State) : State := { s with diagNoop := satInc s.diagNoop }

/-- A filter unit named by a valid handle (10_state.md R22): `u < NF` and `F[u].LIVE = 1`. -/
def State.filter? (s : State) (u : Nat) : Option (FilterUnit F32) := (s.filters[u]?).join

/-- An oscillator unit named by a valid handle (10_state.md R22): `u < NO` and `O[u].LIVE = 1`. -/
def State.osc? (s : State) (u : Nat) : Option (OscUnit F32) := (s.oscs[u]?).join

/-- `zext_32(LIVE)` (10_state.md R43, R44). -/
def liveWord (live : Bool) : Word := if live then 1#32 else 0#32

end Sys2Proof.Machine
end

