-- ==== Sys2Proof/Machine/Float32.lean ====
section
/-! DEFINITION. IEEE 754 binary32 arithmetic, round to nearest ties to even, gradual underflow, one
canonical NaN (00_scope.md R8, R9, 92_eei_decisions.md D39). The operations themselves are the
standard's (93_implementation_defined.md G1): PRESUMED, assumption log 11. Every finite binary32 number is a whole
multiple of 2^-149, so each operation is computed exactly in that unit and rounded once. -/

namespace Sys2Proof.Machine

/-- The canonical quiet NaN (00_scope.md R9, D39). -/
def fpQuietNaN : F32 := 0x7FC00000#32

/-- The sign bit (00_scope.md R8). -/
def fpSign (a : F32) : Bool := a.msb

/-- Bits 30:0 as a number: exponent and fraction. -/
def fpBits (a : F32) : Nat := a.toNat % 2 ^ 31

/-- The bits of an infinity without its sign. -/
def fpInfBits : Nat := 0x7F800000

/-- Whether the word is a NaN (00_scope.md R8). -/
def fpIsNaN (a : F32) : Bool := decide (fpInfBits < fpBits a)

/-- Whether the word is an infinity. -/
def fpIsInf (a : F32) : Bool := decide (fpBits a = fpInfBits)

/-- Whether the word is a finite number: neither a NaN nor an infinity. -/
def fpIsFinite (a : F32) : Bool := decide (fpBits a < fpInfBits)

/-- The size of the number whose bits 30:0 are `n`, in units of 2^-149: subnormal when the exponent
field is 0, else with the hidden bit. -/
def fpUnits (n : Nat) : Nat :=
  if n / 2 ^ 23 = 0 then n else (2 ^ 23 + n % 2 ^ 23) * 2 ^ (n / 2 ^ 23 - 1)

/-- The size of a number in units of 2^-149; an infinity counts as 2^277, above every finite size. -/
def fpMag (a : F32) : Nat := fpUnits (fpBits a)

/-- The number in units of 2^-149, with its sign. -/
def fpValue (a : F32) : Int := if fpSign a then -(fpMag a : Int) else (fpMag a : Int)

/-- A word from its sign and its bits 30:0. -/
def fpPack (sign : Bool) (bits : Nat) : F32 :=
  BitVec.ofNat 32 ((if sign then 2 ^ 31 else 0) + bits)

/-- A zero, an infinity of a sign. -/
def fpZero (sign : Bool) : F32 := fpPack sign 0

/-- An infinity of a sign. -/
def fpInf (sign : Bool) : F32 := fpPack sign fpInfBits

/-- The whole number nearest `num / den`, ties to even. -/
def roundHalfEven (num den : Nat) : Nat :=
  let q := num / den
  let r := num % den
  if den < 2 * r ∨ (2 * r = den ∧ q % 2 = 1) then q + 1 else q

/-- How far above the lowest binade the size `num / den` (in units of 2^-149) lies: its spacing is
2^k units. -/
def binade (num den : Nat) : Nat := Nat.log2 (num / den) - 23

/-- Bits 30:0 of the binary32 number nearest `num / den` units of 2^-149, ties to even; a size that
rounds past the largest finite number gives infinity. A significand that rounds up to 2^24 carries
into the exponent field by itself. -/
def roundBits (num den : Nat) : Nat :=
  let k := binade num den
  min (k * 2 ^ 23 + roundHalfEven num (den * 2 ^ k)) fpInfBits

/-- The binary32 number nearest `± num / den` units of 2^-149. -/
def fpRound (sign : Bool) (num den : Nat) : F32 := fpPack sign (roundBits num den)

/-- `-a`: the sign bit flipped. -/
def fpNeg (a : F32) : F32 := fpPack (!fpSign a) (fpBits a)

/-- `fadd` of finite operands: exact sum, one rounding; an exact zero sum is `-0` only when both
operands carry a negative sign. -/
def fpAddFinite (a b : F32) : F32 :=
  let s := fpValue a + fpValue b
  if s = 0 then fpZero (fpSign a && fpSign b) else fpRound (decide (s < 0)) s.natAbs 1

/-- `fadd` (00_scope.md R9). -/
def fpAdd (a b : F32) : F32 :=
  if fpIsNaN a || fpIsNaN b then fpQuietNaN
  else if fpIsInf a then (if fpIsInf b && (fpSign a != fpSign b) then fpQuietNaN else a)
  else if fpIsInf b then b
  else fpAddFinite a b

/-- `fsub` (00_scope.md R9): the sum with the sign of the second operand flipped. -/
def fpSub (a b : F32) : F32 := fpAdd a (fpNeg b)

/-- `fmul` (00_scope.md R9). -/
def fpMul (a b : F32) : F32 :=
  let sign := fpSign a != fpSign b
  if fpIsNaN a || fpIsNaN b then fpQuietNaN
  else if fpIsInf a || fpIsInf b then
    (if fpMag a = 0 ∨ fpMag b = 0 then fpQuietNaN else fpInf sign)
  else fpRound sign (fpMag a * fpMag b) (2 ^ 149)

/-- `fdiv` (00_scope.md R9). -/
def fpDiv (a b : F32) : F32 :=
  let sign := fpSign a != fpSign b
  if fpIsNaN a || fpIsNaN b then fpQuietNaN
  else if fpIsInf a then (if fpIsInf b then fpQuietNaN else fpInf sign)
  else if fpIsInf b then fpZero sign
  else if fpMag b = 0 then (if fpMag a = 0 then fpQuietNaN else fpInf sign)
  else fpRound sign (fpMag a * 2 ^ 149) (fpMag b)

/-- `fabs`: clear the sign bit (00_scope.md R9). -/
def fpAbs (a : F32) : F32 := fpPack false (fpBits a)

/-- The size in whole units of one (2^149 units of 2^-149) at or above a size. -/
def ceilOnes (m : Nat) : Nat := (m + (2 ^ 149 - 1)) / 2 ^ 149

/-- `ffloor`: the largest integral value not above `a`, exact; a NaN or an infinity is returned as it
is (00_scope.md R9), and a zero keeps its sign (assumption log 11). -/
def fpFloor (a : F32) : F32 :=
  if !fpIsFinite a then a
  else if fpSign a then fpRound true (ceilOnes (fpMag a) * 2 ^ 149) 1
  else fpRound false (fpMag a / 2 ^ 149 * 2 ^ 149) 1

/-- `flt`: quiet ordered comparison `a < b`, false when an operand is a NaN (00_scope.md R9). -/
def fpLt (a b : F32) : Bool := !fpIsNaN a && !fpIsNaN b && decide (fpValue a < fpValue b)

/-- `fgt`: quiet ordered comparison `a > b` (00_scope.md R9). -/
def fpGt (a b : F32) : Bool := fpLt b a

end Sys2Proof.Machine
end

