-- ==== Sys2Proof/Machine/Numerics.lean ====
section
/-! DEFINITION. The numerics record `NUM` (00_scope.md R9) and its hardware value `NUM_B32`, with the
configuration functions held to the properties of R10. `NUM_IDEAL` is in Machine/Ideal.lean. -/

namespace Sys2Proof.Machine

/-- The numerics record `NUM` (00_scope.md R9), with the constants the rules' pseudocode writes. -/
structure Num (F : Type) where
  /-- `+0`. -/
  zero : F
  /-- `0.5`. -/
  half : F
  /-- `1.0`. -/
  one : F
  /-- `2.0`. -/
  two : F
  /-- `3.0`. -/
  three : F
  /-- `4.0`. -/
  four : F
  /-- `10.0`. -/
  ten : F
  /-- `20.0`. -/
  twenty : F
  /-- `-1.0`. -/
  negOne : F
  /-- `-2.0`. -/
  negTwo : F
  fadd : F → F → F
  fsub : F → F → F
  fmul : F → F → F
  fdiv : F → F → F
  fabs : F → F
  ffloor : F → F
  flt : F → F → Bool
  fgt : F → F → Bool
  fisnan : F → Bool
  fisfinite : F → Bool
  fsin : F → F
  fcos : F → F
  fpow10 : F → F
  flog10 : F → F

/-- `1.0` and `-1.0` as binary32. -/
def fpOne : F32 := 0x3F800000#32

/-- `-1.0` as binary32. -/
def fpNegOne : F32 := 0xBF800000#32

/-- The largest binary32 number below π (00_scope.md R10, `P_SIN_POS`). -/
def fpBelowPi : F32 := 0x40490FDA#32

/-- The smallest normal binary32 number, 2^-126. -/
def fpMinNormal : F32 := 0x00800000#32

/-- `-1.0 <= v <= 1.0` and `v` is not a NaN (00_scope.md R10, `P_TRIG_RANGE`). -/
def inUnitRange (v : F32) : Bool := !fpIsNaN v && !fpLt v fpNegOne && !fpGt v fpOne

/-- `+0 <= a <= 3.1415925`, as numbers (00_scope.md R10, `P_SIN_POS`; assumption log 10 on `-0`). -/
def upToPi (a : F32) : Bool := !fpIsNaN a && !fpLt a 0#32 && !fpGt a fpBelowPi

/-- What `P_TRIG_RANGE`, `P_TRIG_NONFINITE`, `P_SIN_ZERO` and `P_SIN_POS` (00_scope.md R10) allow
`fsin(a)` to be. -/
def sinAllows (a v : F32) : Bool :=
  if fpIsFinite a then
    inUnitRange v && (decide (a ≠ 0#32) || decide (v = 0#32)) &&
      (!upToPi a || !fpLt v 0#32) &&
      (!(upToPi a && !fpLt a fpMinNormal) || fpGt v 0#32)
  else fpIsNaN v

/-- What `P_TRIG_RANGE`, `P_TRIG_NONFINITE` and `P_SIN_ZERO` (00_scope.md R10) allow `fcos(a)` to be. -/
def cosAllows (a v : F32) : Bool :=
  if fpIsFinite a then inUnitRange v && (decide (a ≠ 0#32) || decide (v = fpOne))
  else fpIsNaN v

/-- A value that `sinAllows` admits, for a raw function that breaks R10. -/
def sinFallback (a : F32) : F32 :=
  if !fpIsFinite a then fpQuietNaN
  else if upToPi a && !fpLt a fpMinNormal then fpOne else 0#32

/-- A value that `cosAllows` admits, for a raw function that breaks R10. -/
def cosFallback (a : F32) : F32 := if fpIsFinite a then fpOne else fpQuietNaN

/-- `fsin` of `NUM_B32`: any function that meets the pointwise properties of 00_scope.md R10
(assumption log 8). It is the build's own function wherever that meets them. -/
def fpSin (a : F32) : F32 :=
  if a = 0#32 then 0#32
  else if sinAllows a (Config.rawSin a) then Config.rawSin a else sinFallback a

/-- `fcos` of `NUM_B32`, as `fpSin`. -/
def fpCos (a : F32) : F32 :=
  if a = 0#32 then fpOne
  else if cosAllows a (Config.rawCos a) then Config.rawCos a else cosFallback a

/-- `fpow10` of `NUM_B32`: any function with `P_POW10_ZERO` (00_scope.md R10, assumption log 8). -/
def fpPow10 (a : F32) : F32 := if fpBits a = 0 then fpOne else Config.rawPow10 a

/-- `flog10` of `NUM_B32`: any function with `P_LOG10_ONE` (00_scope.md R10, assumption log 8). -/
def fpLog10 (a : F32) : F32 := if a = fpOne then 0#32 else Config.rawLog10 a

/-- `NUM_B32`, the hardware's numerics record (00_scope.md R9). -/
def b32 : Num F32 where
  zero := 0x00000000#32
  half := 0x3F000000#32
  one := 0x3F800000#32
  two := 0x40000000#32
  three := 0x40400000#32
  four := 0x40800000#32
  ten := 0x41200000#32
  twenty := 0x41A00000#32
  negOne := 0xBF800000#32
  negTwo := 0xC0000000#32
  fadd := fpAdd
  fsub := fpSub
  fmul := fpMul
  fdiv := fpDiv
  fabs := fpAbs
  ffloor := fpFloor
  flt := fpLt
  fgt := fpGt
  fisnan := fpIsNaN
  fisfinite := fpIsFinite
  fsin := fpSin
  fcos := fpCos
  fpow10 := fpPow10
  flog10 := fpLog10

end Sys2Proof.Machine
end

