-- ==== Sys2Proof/Machine/Signal.lean ====
section
/-! DEFINITION. The internal functions of the block over a numerics record `N` (00_scope.md R9), each
line of pseudocode one operation in the order written (92_eei_decisions.md D2): the same text is the hardware at
`b32` and the source's exact formulas at the ideal record. -/

namespace Sys2Proof.Machine

/-- `clamp(v, lo, hi)` (00_scope.md R12). -/
def clamp {F : Type} (N : Num F) (v lo hi : F) : F :=
  let t := if N.flt v lo then lo else v
  if N.fgt t hi then hi else t

/-- The range test of a numeric setter (00_scope.md R13): the operand lies strictly outside. -/
def outOfRange {F : Type} (N : Num F) (v lo hi : F) : Bool := N.flt v lo || N.fgt v hi

/-- `smooth(current, target, rate)` (40_smoother.md R110). -/
def smoothStep {F : Type} (N : Num F) (current target rate : F) : F :=
  let d := N.fsub target current
  let m := N.fmul d rate
  N.fadd current m

/-- The five coefficients of 41_coefficients.md R120. -/
structure Coefs (F : Type) where
  b0 : F
  b1 : F
  b2 : F
  a1 : F
  a2 : F
deriving DecidableEq, Repr

/-- `alpha` from `sinω` and the resonance, by `QMAP` (41_coefficients.md R122, R123). -/
def alphaOf {F : Type} (N : Num F) (qmap : QMap) (sn r : F) : F :=
  match qmap with
  | .a => N.fdiv sn (N.fmul N.two (N.fadd N.half (N.fmul N.ten r)))
  | .b => N.fdiv sn (N.fmul N.two (N.fsub N.one r))

/-- `w`, the angle `ω = 2π·f/sr` (41_coefficients.md R123). -/
def angleOf {F : Type} (N : Num F) (cfg : Config F) (f sr : F) : F :=
  N.fdiv (N.fmul cfg.twoPi f) sr

/-- The coefficients from `alpha` and `cosω` (41_coefficients.md R123, from `a0` on). -/
def coefFrom {F : Type} (N : Num F) (alpha cs : F) : Coefs F :=
  let a0 := N.fadd N.one alpha
  let omc := N.fsub N.one cs
  let b0 := N.fdiv omc (N.fmul N.two a0)
  { b0 := b0
    b1 := N.fdiv omc a0
    b2 := b0
    a1 := N.fdiv (N.fmul N.negTwo cs) a0
    a2 := N.fdiv (N.fsub N.one alpha) a0 }

/-- `coef(f, r, sr)` (41_coefficients.md R123). -/
def coef {F : Type} (N : Num F) (cfg : Config F) (f r sr : F) : Coefs F :=
  let w := angleOf N cfg f sr
  coefFrom N (alphaOf N cfg.qmap (N.fsin w) r) (N.fcos w)

/-- Write the five coefficient registers of a filter unit. -/
def FilterUnit.withCoefs {F : Type} (f : FilterUnit F) (c : Coefs F) : FilterUnit F :=
  { f with b0 := c.b0, b1 := c.b1, b2 := c.b2, a1 := c.a1, a2 := c.a2 }

/-- Write `X1, X2, Y1, Y2 <- +0.0` (42_filter.md R147). -/
def FilterUnit.clearDelay {F : Type} (N : Num F) (f : FilterUnit F) : FilterUnit F :=
  { f with x1 := N.zero, x2 := N.zero, y1 := N.zero, y2 := N.zero }

/-- `fhi(u)`, the filter frequency ceiling at a sample rate (10_state.md R24). -/
def freqCeiling {F : Type} (N : Num F) (cfg : Config F) (sr : F) : F := N.fmul cfg.fFmaxFrac sr

/-- The frequency of a new filter unit (42_filter.md R141, `f0`). -/
def initialFreq {F : Type} (N : Num F) (cfg : Config F) (sr : F) : F :=
  clamp N cfg.defFreq cfg.fFmin (freqCeiling N cfg sr)

/-- The registers `F_CREATE` writes (42_filter.md R141). -/
def newFilter {F : Type} (N : Num F) (cfg : Config F) (sr : F) : FilterUnit F :=
  let f0 := initialFreq N cfg sr
  let c := coef N cfg f0 cfg.defRes sr
  { sampleRate := sr
    curFreq := f0
    tgtFreq := f0
    curRes := cfg.defRes
    tgtRes := cfg.defRes
    smooth := cfg.defSmooth
    b0 := c.b0
    b1 := c.b1
    b2 := c.b2
    a1 := c.a1
    a2 := c.a2
    x1 := N.zero
    x2 := N.zero
    y1 := N.zero
    y2 := N.zero }

/-- The output of the difference equation for one input sample (42_filter.md R140). -/
def biquadOut {F : Type} (N : Num F) (f : FilterUnit F) (x : F) : F :=
  let t0 := N.fmul f.b0 x
  let t1 := N.fmul f.b1 f.x1
  let t2 := N.fmul f.b2 f.x2
  let t3 := N.fmul f.a1 f.y1
  let t4 := N.fmul f.a2 f.y2
  N.fsub (N.fsub (N.fadd (N.fadd t0 t1) t2) t3) t4

/-- `biquad_step(u, x)`: the output, and the unit with its delay line shifted (42_filter.md R140). -/
def biquadStep {F : Type} (N : Num F) (f : FilterUnit F) (x : F) : F × FilterUnit F :=
  let y := biquadOut N f x
  (y, { f with x2 := f.x1, x1 := x, y2 := f.y1, y1 := y })

/-- The hysteresis gate on a pair of values (42_filter.md R149). -/
def gateOpen {F : Type} (N : Num F) (cfg : Config F) (f : FilterUnit F) (gf gr : F) : Bool :=
  N.fgt (N.fabs (N.fsub gf f.tgtFreq)) cfg.hystF || N.fgt (N.fabs (N.fsub gr f.tgtRes)) cfg.hystR

/-- `block_update(u)` (42_filter.md R149). -/
def blockUpdate {F : Type} (N : Num F) (cfg : Config F) (f : FilterUnit F) : FilterUnit F :=
  let cf1 := smoothStep N f.curFreq f.tgtFreq f.smooth
  let cr1 := smoothStep N f.curRes f.tgtRes f.smooth
  let gate :=
    match cfg.gateOn with
    | .post => gateOpen N cfg f cf1 cr1
    | .pre => gateOpen N cfg f f.curFreq f.curRes
  let f' := { f with curFreq := cf1, curRes := cr1 }
  if gate then f'.withCoefs (coef N cfg cf1 cr1 f.sampleRate) else f'

/-- `w_sine(p)` (43_oscillator.md R171). -/
def waveSine {F : Type} (N : Num F) (cfg : Config F) (p : F) : F := N.fsin (N.fmul cfg.twoPi p)

/-- `w_saw(p)` (43_oscillator.md R172). -/
def waveSaw {F : Type} (N : Num F) (p : F) : F := N.fsub (N.fmul N.two p) N.one

/-- `w_square(p)` (43_oscillator.md R173). -/
def waveSquare {F : Type} (N : Num F) (p : F) : F := if N.flt p N.half then N.one else N.negOne

/-- `w_tri(p)` (43_oscillator.md R174). -/
def waveTri {F : Type} (N : Num F) (p : F) : F :=
  if N.flt p N.half then N.fsub (N.fmul N.four p) N.one else N.fsub N.three (N.fmul N.four p)

/-- `wave(k, p)` (43_oscillator.md R170). -/
def waveOf {F : Type} (N : Num F) (cfg : Config F) (k : BitVec 2) (p : F) : F :=
  if k = 0#2 then waveSine N cfg p
  else if k = 1#2 then waveSaw N p
  else if k = 2#2 then waveSquare N p
  else waveTri N p

/-- The phase one sample on: `phase_advance(u)` (43_oscillator.md R175). -/
def phaseNext {F : Type} (N : Num F) (p inc : F) : F :=
  let s := N.fadd p inc
  N.fsub s (N.ffloor s)

/-- The registers `O_CREATE` writes (43_oscillator.md R176). -/
def newOsc {F : Type} (N : Num F) (cfg : Config F) (sr : F) : OscUnit F where
  sampleRate := sr
  freq := cfg.defOscFreq
  amp := cfg.defAmp
  wave := cfg.defWave
  phase := N.zero
  inc := N.fdiv cfg.defOscFreq sr

/-- One sample of an oscillator: `fmul(AMP, wave)` from the phase before the advance, and the unit with
its phase advanced (43_oscillator.md R181). -/
def oscStep {F : Type} (N : Num F) (cfg : Config F) (o : OscUnit F) : F × OscUnit F :=
  (N.fmul o.amp (waveOf N cfg o.wave o.phase), { o with phase := phaseNext N o.phase o.inc })

/-- `U_LERP` (44_utility.md R201). -/
def lerp {F : Type} (N : Num F) (a b t : F) : F := N.fadd a (N.fmul (N.fsub b a) t)

/-- `U_DB2LIN` (44_utility.md R202). -/
def dbToLin {F : Type} (N : Num F) (db : F) : F := N.fpow10 (N.fdiv db N.twenty)

/-- `max(linear, ε)` (44_utility.md R203). -/
def floorEps {F : Type} (N : Num F) (cfg : Config F) (lin : F) : F :=
  if N.fgt lin cfg.epsDb then lin else cfg.epsDb

/-- `U_LIN2DB` (44_utility.md R203). -/
def linToDb {F : Type} (N : Num F) (cfg : Config F) (lin : F) : F :=
  N.fmul N.twenty (N.flog10 (floorEps N cfg lin))

/-- A sample rate CREATE accepts (42_filter.md R141, 43_oscillator.md R176). -/
def rateAccepted {F : Type} (N : Num F) (sr : F) : Bool := N.fisfinite sr && N.fgt sr N.zero

/-- A run of input samples through a filter unit: the outputs in order, and the unit after them
(42_filter.md R140, R146: sample order preserved, no lookahead). -/
def filterStream {F : Type} (N : Num F) : FilterUnit F → List F → List F × FilterUnit F
  | f, [] => ([], f)
  | f, x :: xs =>
    let r := biquadStep N f x
    let rest := filterStream N r.2 xs
    (r.1 :: rest.1, rest.2)

/-- `n` samples of an oscillator unit in order, and the unit after them (43_oscillator.md R181). -/
def oscStream {F : Type} (N : Num F) (cfg : Config F) : Nat → OscUnit F → List F × OscUnit F
  | 0, o => ([], o)
  | n + 1, o =>
    let r := oscStep N cfg o
    let rest := oscStream N cfg n r.2
    (r.1 :: rest.1, rest.2)

end Sys2Proof.Machine
end

