-- ==== Sys2Proof/Machine/Operands.lean ====
section
/-! DEFINITION. What the operand slots of the commands name: the selector tables of the PEEK commands
(10_state.md R43 to R45), the waveform code (30_encoding.md R90) and the buffer of a PROCESS command
(20_memory.md R61, R67). An `F32` or `U32` operand is the slot itself (30_encoding.md R82). -/

namespace Sys2Proof.Machine

/-- The selector of the `LIVE` bit, in F_PEEK and O_PEEK (10_state.md R43, R44). -/
def selLive : Word := 15#32

/-- The register an F_PEEK selector names on a live unit; none at 15, which is answered before the
handle is tested, and none from 16 on (10_state.md R43). -/
def filterSelect (f : FilterUnit F32) (sel : Word) : Option Word :=
  match sel.toNat with
  | 0 => some f.sampleRate
  | 1 => some f.curFreq
  | 2 => some f.tgtFreq
  | 3 => some f.curRes
  | 4 => some f.tgtRes
  | 5 => some f.smooth
  | 6 => some f.b0
  | 7 => some f.b1
  | 8 => some f.b2
  | 9 => some f.a1
  | 10 => some f.a2
  | 11 => some f.x1
  | 12 => some f.x2
  | 13 => some f.y1
  | 14 => some f.y2
  | _ => none

/-- The register an O_PEEK selector names on a live unit; none at 15, which is answered before the
handle is tested, and none at 6 to 14 and from 16 on (10_state.md R44). -/
def oscSelect (o : OscUnit F32) (sel : Word) : Option Word :=
  match sel.toNat with
  | 0 => some o.sampleRate
  | 1 => some o.freq
  | 2 => some o.amp
  | 3 => some (o.wave.setWidth 32)
  | 4 => some o.phase
  | 5 => some o.inc
  | _ => none

/-- The counter a D_PEEK selector names (10_state.md R45). -/
def diagSelect (s : State) (sel : Word) : Option Word :=
  match sel.toNat with
  | 0 => some s.diagClamp
  | 1 => some s.diagNoop
  | _ => none

/-- The waveform of a code, if the code is at most 3 (30_encoding.md R90, 43_oscillator.md R180). -/
def waveOfCode (code : Word) : Option (BitVec 2) :=
  if code.toNat ≤ 3 then some (code.extractLsb' 0 2) else none

/-- A null pointer or a zero count (20_memory.md R61, 42_filter.md R146, 43_oscillator.md R181). -/
def emptyBuffer (ptr count : Word) : Bool := decide (ptr = 0#32) || decide (count = 0#32)

/-- `ptr + count <= MEM_WORDS`, natural numbers: the buffer lies inside the memory (20_memory.md R67). -/
def bufferInside (cfg : Config F32) (ptr count : Word) : Bool :=
  decide (ptr.toNat + count.toNat ≤ cfg.memWords)

end Sys2Proof.Machine
end

