-- ==== Sys2Proof/Machine/Ops.lean ====
section
/-! DEFINITION. The named operations the commands share: the NOOP event, which is all the block has in
place of an exception (60_exceptions.md R220, R222), the handle test (30_encoding.md R91 step 3), the setter template
(00_scope.md R13), the sample loops, and the host's own actions. -/

namespace Sys2Proof.Machine

/-- What a step answers. -/
abbrev Answer := Host.Outcome State Fault Refusal

/-- The causes of a no-op (60_exceptions.md R222). -/
inductive NoopCause where
  /-- Illegal encoding. -/
  | n1
  /-- Invalid handle, or a CREATE index out of range. -/
  | n2
  /-- Null pointer or zero count. -/
  | n3
  /-- NaN operand of a numeric setter. -/
  | n4
  /-- Sample rate not finite and positive. -/
  | n5
  /-- Undefined selector. -/
  | n6
deriving DecidableEq, Repr

/-- `noop(Nk)` (60_exceptions.md R222): the command ends, nothing changes but `DIAG_NOOP`. The cause is
recorded nowhere. -/
def noop (_cause : NoopCause) (s : State) : Answer := .next (noopEvent s)

/-- Write a filter unit: `none` ends its life (42_filter.md R141, R142). -/
def State.setFilter (s : State) (u : Nat) (f : Option (FilterUnit F32)) : State :=
  { s with filters := s.filters.set u f }

/-- Write an oscillator unit: `none` ends its life (43_oscillator.md R176, R177). -/
def State.setOsc (s : State) (u : Nat) (o : Option (OscUnit F32)) : State :=
  { s with oscs := s.oscs.set u o }

/-- `G.RESULT <- v` (10_state.md R34). -/
def State.setResult (s : State) (v : Word) : State := { s with result := v }

/-- A filter command on unit `u`: `noop(N2)` unless the handle is valid (30_encoding.md R91 step 3). -/
def onFilter (u : Nat) (s : State) (k : FilterUnit F32 → Answer) : Answer :=
  match s.filter? u with
  | none => noop .n2 s
  | some f => k f

/-- An oscillator command on unit `u`: `noop(N2)` unless the handle is valid (30_encoding.md R91 step 3). -/
def onOsc (u : Nat) (s : State) (k : OscUnit F32 → Answer) : Answer :=
  match s.osc? u with
  | none => noop .n2 s
  | some o => k o

/-- A numeric setter with operand `v` and range `[lo, hi]`: `store` writes the clamped value
(00_scope.md R13, `set_clamped`). -/
def setClamped (v lo hi : F32) (s : State) (store : F32 → State → State) : Answer :=
  if fpIsNaN v then noop .n4 s
  else
    let s' := if outOfRange b32 v lo hi then clampEvent s else s
    .next (store (clamp b32 v lo hi) s')

/-- A command that answers in `G.RESULT`, or `noop(N6)` where its selector names nothing
(42_filter.md R148, 43_oscillator.md R183, 44_utility.md R204). -/
def peekResult (s : State) : Option Word → Answer
  | some v => .next (s.setResult v)
  | none => noop .n6 s

/-- The sample loop of F_PROCESS: `n` samples from word `a` on, read, filtered and overwritten one at a
time (42_filter.md R146, 20_memory.md R65). -/
def filterLoop : Nat → Nat → FilterUnit F32 → Memory → FilterUnit F32 × Memory
  | 0, _, f, m => (f, m)
  | n + 1, a, f, m =>
    let r := biquadStep b32 f (memRead m a)
    filterLoop n (a + 1) r.2 (memWrite m a r.1)

/-- The sample loop of O_PROCESS: `n` samples written from word `a` on (43_oscillator.md R181,
20_memory.md R66). -/
def oscLoop (cfg : Config F32) : Nat → Nat → OscUnit F32 → Memory → OscUnit F32 × Memory
  | 0, _, o, m => (o, m)
  | n + 1, a, o, m =>
    let r := oscStep b32 cfg o
    oscLoop cfg n (a + 1) r.2 (memWrite m a r.1)

/-- The buffer tests of a PROCESS command on a live unit: `noop(N3)` for an empty buffer, and no meaning
for one that does not lie inside the memory (42_filter.md R146, 20_memory.md R67, 60_exceptions.md R234). -/
def onBuffer (ptr count : Word) (s : State) (k : Answer) : Answer :=
  if emptyBuffer ptr count then noop .n3 s
  else if bufferInside s.cfg ptr count then k
  else .refused .bufferOutsideMemory

/-- The response port: the host reads `G.RESULT`, with no side effect (30_encoding.md R87). -/
def State.response (s : State) : Word := s.result

/-- The word of sample memory the host reads at a word address (20_memory.md R60). DESIGN CHOICE (assumption log 6),
safe: a read at or above `MEM_WORDS`, an address of which R74 says only that it does not exist, gives no word. -/
def State.sample (s : State) (a : Nat) : Option Word :=
  if a < s.cfg.memWords then some (memRead s.mem a) else none

/-- The host writes a word of the sample memory (20_memory.md R60); a word at or above `MEM_WORDS` does
not exist (R74, assumption log 6). -/
def hostWrite (addr value : Word) (s : State) : Answer :=
  if addr.toNat < s.cfg.memWords then .next { s with mem := memWrite s.mem addr.toNat value }
  else .fault .absentWord

/-- HRESET (70_reset_and_hazards.md R240): no unit live, `RESULT` and both counters 0, the sample memory
whatever `contents` says (10_state.md R41, assumption log 7); the build and the host's later actions stay. -/
def hreset (contents : List Host.Cell) (s : State) : State :=
  { State.afterHreset s.cfg s.filters.length s.oscs.length (memOfCells s.cfg.memWords contents) with
    host := s.host }

/-- The host's next action and the state with it taken from the stream; none when the host is silent. -/
def takeAction (s : State) : Option (HostAction × State) :=
  match s.host with
  | [] => none
  | a :: rest => some (a, { s with host := rest })

/-- An illegal encoding executes as `noop(N1)` (30_encoding.md R84). -/
def illegalWord (s : State) : Answer := noop .n1 s

end Sys2Proof.Machine
end

