-- ==== Sys2Proof/Machine/Filter.lean ====
section
/-! DEFINITION. The filter commands (42_filter.md R141 to R149), opcodes 0x10 to 0x17. -/

namespace Sys2Proof.Machine

/-- `F_CREATE u, sr` (42_filter.md R141). -/
def execFCreate (u : Nat) (sr : F32) (s : State) : Answer :=
  if s.filters.length ≤ u then noop .n2 s
  else if rateAccepted b32 sr then .next (s.setFilter u (some (newFilter b32 s.cfg sr)))
  else noop .n5 s

/-- `F_DESTROY u` (42_filter.md R142). -/
def execFDestroy (u : Nat) (s : State) : Answer :=
  onFilter u s fun _ => .next (s.setFilter u none)

/-- `F_SET_FREQ u, hz` (42_filter.md R143): the target only. -/
def execFSetFreq (u : Nat) (hz : F32) (s : State) : Answer :=
  onFilter u s fun f =>
    setClamped hz s.cfg.fFmin (freqCeiling b32 s.cfg f.sampleRate) s fun v t =>
      t.setFilter u (some { f with tgtFreq := v })

/-- `F_SET_RES u, r` (42_filter.md R144): the target only. -/
def execFSetRes (u : Nat) (r : F32) (s : State) : Answer :=
  onFilter u s fun f =>
    setClamped r s.cfg.resMin s.cfg.resMax s fun v t =>
      t.setFilter u (some { f with tgtRes := v })

/-- `F_SET_SMOOTH u, rate` (42_filter.md R145). -/
def execFSetSmooth (u : Nat) (rate : F32) (s : State) : Answer :=
  onFilter u s fun f =>
    setClamped rate s.cfg.smoothMin s.cfg.smoothMax s fun v t =>
      t.setFilter u (some { f with smooth := v })

/-- `F_PROCESS u, ptr, count` (42_filter.md R146): one block update (R149), then every sample of the
buffer in order. -/
def execFProcess (u : Nat) (ptr count : Word) (s : State) : Answer :=
  onFilter u s fun f =>
    onBuffer ptr count s
      (let r := filterLoop count.toNat ptr.toNat (blockUpdate b32 s.cfg f) s.mem
       .next { s.setFilter u (some r.1) with mem := r.2 })

/-- `F_RESET u` (42_filter.md R147). -/
def execFReset (u : Nat) (s : State) : Answer :=
  onFilter u s fun f => .next (s.setFilter u (some (f.clearDelay b32)))

/-- `F_PEEK u, sel` (42_filter.md R148): selector 15 answers for any index, before the handle test
(30_encoding.md R91 step 3). -/
def execFPeek (u : Nat) (sel : Word) (s : State) : Answer :=
  if sel = selLive then .next (s.setResult (liveWord (s.filter? u).isSome))
  else onFilter u s fun f => peekResult s (filterSelect f sel)

end Sys2Proof.Machine
end

