-- ==== Sys2Proof/Machine/Oscillator.lean ====
section
/-! DEFINITION. The oscillator commands (43_oscillator.md R176 to R183), opcodes 0x20 to 0x27. -/

namespace Sys2Proof.Machine

/-- `O_CREATE u, sr` (43_oscillator.md R176). -/
def execOCreate (u : Nat) (sr : F32) (s : State) : Answer :=
  if s.oscs.length ≤ u then noop .n2 s
  else if rateAccepted b32 sr then .next (s.setOsc u (some (newOsc b32 s.cfg sr)))
  else noop .n5 s

/-- `O_DESTROY u` (43_oscillator.md R177). -/
def execODestroy (u : Nat) (s : State) : Answer :=
  onOsc u s fun _ => .next (s.setOsc u none)

/-- `O_SET_FREQ u, hz` (43_oscillator.md R178): the frequency, and the increment computed from it. -/
def execOSetFreq (u : Nat) (hz : F32) (s : State) : Answer :=
  onOsc u s fun o =>
    setClamped hz s.cfg.oscFmin s.cfg.oscFmax s fun v t =>
      t.setOsc u (some { o with freq := v, inc := b32.fdiv v o.sampleRate })

/-- `O_SET_AMP u, a` (43_oscillator.md R179). -/
def execOSetAmp (u : Nat) (amp : F32) (s : State) : Answer :=
  onOsc u s fun o =>
    setClamped amp s.cfg.ampMin s.cfg.ampMax s fun v t =>
      t.setOsc u (some { o with amp := v })

/-- `O_SET_WAVE u, code` (43_oscillator.md R180): a code above 3 selects sine and is a CLAMP event. -/
def execOSetWave (u : Nat) (code : Word) (s : State) : Answer :=
  onOsc u s fun o =>
    match waveOfCode code with
    | some k => .next (s.setOsc u (some { o with wave := k }))
    | none => .next ((clampEvent s).setOsc u (some { o with wave := 0#2 }))

/-- `O_PROCESS u, ptr, count` (43_oscillator.md R181): every sample of the buffer in order, output first,
advance second. -/
def execOProcess (u : Nat) (ptr count : Word) (s : State) : Answer :=
  onOsc u s fun o =>
    onBuffer ptr count s
      (let r := oscLoop s.cfg count.toNat ptr.toNat o s.mem
       .next { s.setOsc u (some r.1) with mem := r.2 })

/-- `O_RESET u` (43_oscillator.md R182). -/
def execOReset (u : Nat) (s : State) : Answer :=
  onOsc u s fun o => .next (s.setOsc u (some { o with phase := b32.zero }))

/-- `O_PEEK u, sel` (43_oscillator.md R183): selector 15 answers for any index, before the handle test
(30_encoding.md R91 step 3). -/
def execOPeek (u : Nat) (sel : Word) (s : State) : Answer :=
  if sel = selLive then .next (s.setResult (liveWord (s.osc? u).isSome))
  else onOsc u s fun o => peekResult s (oscSelect o sel)

end Sys2Proof.Machine
end

