-- ==== Sys2Proof/Machine/Utility.lean ====
section
/-! DEFINITION. The utility commands and the diagnostic read (44_utility.md R200 to R205), opcodes 0x30 to
0x34. None has a unit, none is an event but an undefined D_PEEK selector. -/

namespace Sys2Proof.Machine

/-- `U_CLAMP v, lo, hi` (44_utility.md R200). -/
def execUClamp (v lo hi : F32) (s : State) : Answer := .next (s.setResult (clamp b32 v lo hi))

/-- `U_LERP a, b, t` (44_utility.md R201). -/
def execULerp (a b t : F32) (s : State) : Answer := .next (s.setResult (lerp b32 a b t))

/-- `U_DB2LIN db` (44_utility.md R202). -/
def execUDb2Lin (db : F32) (s : State) : Answer := .next (s.setResult (dbToLin b32 db))

/-- `U_LIN2DB lin` (44_utility.md R203). -/
def execULin2Db (lin : F32) (s : State) : Answer := .next (s.setResult (linToDb b32 s.cfg lin))

/-- `D_PEEK sel` (44_utility.md R204). -/
def execDPeek (sel : Word) (s : State) : Answer := peekResult s (diagSelect s sel)

end Sys2Proof.Machine
end

