-- ==== Sys2Proof/Machine/Dispatch.lean ====
section
/-! DEFINITION. The meaning of every command of 30_encoding.md R83: one arm a command. -/

namespace Sys2Proof.Machine

def exec (i : Instr) (s : State) : Host.Outcome State Fault Refusal :=
  match i with
  | .fCreate u sr => Sys2Proof.Machine.execFCreate u sr s
  | .fDestroy u => Sys2Proof.Machine.execFDestroy u s
  | .fSetFreq u hz => Sys2Proof.Machine.execFSetFreq u hz s
  | .fSetRes u r => Sys2Proof.Machine.execFSetRes u r s
  | .fSetSmooth u rate => Sys2Proof.Machine.execFSetSmooth u rate s
  | .fProcess u ptr count => Sys2Proof.Machine.execFProcess u ptr count s
  | .fReset u => Sys2Proof.Machine.execFReset u s
  | .fPeek u sel => Sys2Proof.Machine.execFPeek u sel s
  | .oCreate u sr => Sys2Proof.Machine.execOCreate u sr s
  | .oDestroy u => Sys2Proof.Machine.execODestroy u s
  | .oSetFreq u hz => Sys2Proof.Machine.execOSetFreq u hz s
  | .oSetAmp u amp => Sys2Proof.Machine.execOSetAmp u amp s
  | .oSetWave u code => Sys2Proof.Machine.execOSetWave u code s
  | .oProcess u ptr count => Sys2Proof.Machine.execOProcess u ptr count s
  | .oReset u => Sys2Proof.Machine.execOReset u s
  | .oPeek u sel => Sys2Proof.Machine.execOPeek u sel s
  | .uClamp v lo hi => Sys2Proof.Machine.execUClamp v lo hi s
  | .uLerp a b t => Sys2Proof.Machine.execULerp a b t s
  | .uDb2Lin db => Sys2Proof.Machine.execUDb2Lin db s
  | .uLin2Db lin => Sys2Proof.Machine.execULin2Db lin s
  | .dPeek sel => Sys2Proof.Machine.execDPeek sel s

end Sys2Proof.Machine
end

