-- ==== Sys2Proof/Machine/Step.lean ====
section
/-! DEFINITION. One step of the machine: the host's next action (assumption log 5). A command word is
decoded and executed as one atomic step (30_encoding.md R86, R91); when the host is silent the block is
idle and its state does not change (R86 item 3, 60_exceptions.md R233). -/

namespace Sys2Proof.Machine

/-- Execute a command word (30_encoding.md R91). -/
def runWord (w : Command) (s : State) : Host.Outcome State Fault Refusal :=
  match decode w with
  | .ok i => exec i s
  | .error _ => illegalWord s

/-- Perform one action of the host on the block. -/
def perform (a : HostAction) (s : State) : Host.Outcome State Fault Refusal :=
  match a with
  | .command w => runWord w s
  | .write addr value => hostWrite addr value s
  | .hreset contents => .next (hreset contents s)

/-- One step. -/
def step (s : State) : Host.Outcome State Fault Refusal :=
  match takeAction s with
  | none => .next s
  | some (a, s') => perform a s'

/-- The state whose next step runs the opcode-table word `w` of `nbits` bits: the host presents that
command word next (assumption log 5). -/
def State.withFetchWord (s : State) (nbits w : Nat) : State :=
  { s with host := .command (BitVec.ofNat 128 (w % 2 ^ nbits)) :: s.host }

end Sys2Proof.Machine
end

