-- ==== Sys2Proof/Machine/Assembler.lean ====
section
/-! DEFINITION. The assembler syntax of 30_encoding.md R88, on lists of characters. There are no
pseudo-instructions (R89). What R88 leaves open of the syntax is in assumption log 18. -/

namespace Sys2Proof.Machine

/-- White space between tokens (assumption log 18). -/
def isBlank (c : Char) : Bool := c == ' ' || c == '\t' || c == '\r'

/-- The characters without white space at either end. -/
def trimBlanks (cs : List Char) : List Char :=
  ((cs.dropWhile isBlank).reverse.dropWhile isBlank).reverse

/-- The pieces of a text between occurrences of a separator. -/
def splitAtChar (sep : Char) : List Char → List (List Char)
  | [] => [[]]
  | c :: cs =>
    match splitAtChar sep cs with
    | [] => [[c]]
    | p :: ps => if c = sep then [] :: p :: ps else (c :: p) :: ps

/-- A decimal digit. -/
def decDigit (c : Char) : Option Nat :=
  if 48 ≤ c.toNat ∧ c.toNat ≤ 57 then some (c.toNat - 48) else none

/-- A hexadecimal digit, of either case. -/
def hexDigit (c : Char) : Option Nat :=
  if 48 ≤ c.toNat ∧ c.toNat ≤ 57 then some (c.toNat - 48)
  else if 65 ≤ c.toNat ∧ c.toNat ≤ 70 then some (c.toNat - 55)
  else if 97 ≤ c.toNat ∧ c.toNat ≤ 102 then some (c.toNat - 87)
  else none

/-- The value of a run of digits in a base, after those read so far. -/
def digitsValue (digit : Char → Option Nat) (base : Nat) : List Char → Nat → Option Nat
  | [], acc => some acc
  | c :: cs, acc =>
    match digit c with
    | some d => digitsValue digit base cs (acc * base + d)
    | none => none

/-- A nonempty run of decimal digits. -/
def parseDec (cs : List Char) : Option Nat :=
  match cs with
  | [] => none
  | _ => digitsValue decDigit 10 cs 0

/-- `0x` and `lo` to `hi` hexadecimal digits. -/
def parseHex (lo hi : Nat) (cs : List Char) : Option Nat :=
  match cs with
  | '0' :: 'x' :: ds =>
    if lo ≤ ds.length ∧ ds.length ≤ hi then digitsValue hexDigit 16 ds 0 else none
  | _ => none

/-- A number below a bound. -/
def belowBound (bound : Nat) : Option Nat → Option Nat
  | some n => if n < bound then some n else none
  | none => none

/-- A `U32` operand: a decimal integer, or `0x` and up to 8 hexadecimal digits (30_encoding.md R88). -/
def parseU32 (cs : List Char) : Option Nat :=
  match parseHex 1 8 cs with
  | some n => some n
  | none => belowBound (2 ^ 32) (parseDec cs)

/-- A unit: a decimal integer 0 to 255 (30_encoding.md R88). -/
def parseUnit (cs : List Char) : Option Nat := belowBound 256 (parseDec cs)

/-- The exponent of a decimal literal, as the powers of ten it multiplies and divides by. -/
def parseExponent (cs : List Char) : Option (Nat × Nat) :=
  match cs with
  | '-' :: ds => (parseDec ds).map fun n => (0, n)
  | '+' :: ds => (parseDec ds).map fun n => (n, 0)
  | ds => (parseDec ds).map fun n => (n, 0)

/-- Bits 30:0 of the binary32 number nearest `digits · 10^up / 10^down`, ties to even (30_encoding.md
R88). -/
def decimalBits (digits up down : Nat) : Nat := roundBits (digits * 10 ^ up * 2 ^ 149) (10 ^ down)

/-- A decimal literal without its sign: digits, an optional fraction, an optional exponent. DESIGN CHOICE
(assumption log 18), safe: 30_encoding.md R88 shows literals by example; here the point may be absent, and the digits on
one side of it, so that `5`, `5.` and `.5` are literals. -/
def parseMagnitude (cs : List Char) : Option Nat :=
  let mantissa := cs.takeWhile fun c => c != 'e'
  let tail := cs.dropWhile fun c => c != 'e'
  let whole := mantissa.takeWhile fun c => c != '.'
  let frac := (mantissa.dropWhile fun c => c != '.').drop 1
  let exponent := match tail with
    | [] => some (0, 0)
    | _ :: ds => parseExponent ds
  match parseDec (whole ++ frac), exponent with
  | some n, some (up, down) => some (decimalBits n up (down + frac.length))
  | _, _ => none

/-- An `F32` operand: `inf`, `-inf`, `nan`, a raw bit pattern, or a decimal literal converted to the
nearest binary32 value, ties to even (30_encoding.md R88). -/
def parseF32 (cs : List Char) : Option Nat :=
  match cs with
  | ['n', 'a', 'n'] => some fpQuietNaN.toNat
  | ['i', 'n', 'f'] => some (fpInf false).toNat
  | ['-', 'i', 'n', 'f'] => some (fpInf true).toNat
  | '-' :: ds => (parseMagnitude ds).map fun n => (fpPack true n).toNat
  | ds =>
    match parseHex 8 8 ds with
    | some n => some n
    | none => parseMagnitude ds

/-- The position of a name in a list of names. -/
def nameIndex (names : List String) (cs : List Char) : Option Nat :=
  names.findIdx? fun n => n.toList == cs

/-- The waveform names (30_encoding.md R88), in code order. -/
def waveNames : List String := ["sine", "saw", "square", "tri"]

/-- The register names of 10_state.md R43, in selector order. -/
def filterNames : List String :=
  ["SAMPLE_RATE", "CUR_FREQ", "TGT_FREQ", "CUR_RES", "TGT_RES", "SMOOTH", "B0", "B1", "B2", "A1", "A2",
    "X1", "X2", "Y1", "Y2", "LIVE"]

/-- The register names of 10_state.md R44 at selectors 0 to 5. -/
def oscNames : List String := ["SAMPLE_RATE", "FREQ", "AMP", "WAVE", "PHASE", "INC"]

/-- The register names of 10_state.md R45, in selector order. -/
def diagNames : List String := ["G.DIAG_CLAMP", "G.DIAG_NOOP"]

/-- The same registers under the names of R35 without their group. -/
def diagShortNames : List String := ["DIAG_CLAMP", "DIAG_NOOP"]

/-- What an operand of a command is (30_encoding.md R82). -/
inductive OperandKind where
  | unit
  | f32
  | u32
  | waveCode
  | filterSel
  | oscSel
  | diagSel
deriving DecidableEq, Repr

/-- A name if it is one, else a `U32` operand. -/
def nameOrU32 (name : Option Nat) (cs : List Char) : Option Nat :=
  match name with
  | some n => some n
  | none => parseU32 cs

/-- The bits of an operand of a kind (30_encoding.md R88). -/
def parseOperand (k : OperandKind) (cs : List Char) : Option Nat :=
  match k with
  | .unit => parseUnit cs
  | .f32 => parseF32 cs
  | .u32 => parseU32 cs
  | .waveCode => nameOrU32 (nameIndex waveNames cs) cs
  | .filterSel => nameOrU32 (nameIndex filterNames cs) cs
  | .oscSel => nameOrU32 (if "LIVE".toList == cs then some 15 else nameIndex oscNames cs) cs
  | .diagSel => nameOrU32 (nameIndex diagNames cs <|> nameIndex diagShortNames cs) cs

/-- Every operand of a list of kinds, in order; none where one does not parse or their numbers differ. -/
def parseOperands : List OperandKind → List (List Char) → Option (List Nat)
  | [], [] => some []
  | k :: ks, t :: ts =>
    match parseOperand k (trimBlanks t), parseOperands ks ts with
    | some v, some vs => some (v :: vs)
    | _, _ => none
  | _, _ => none

/-- A mnemonic with its opcode and its operands in the order of 30_encoding.md R83. -/
structure AsmRow where
  name : String
  opc : BitVec 8
  kinds : List OperandKind
deriving DecidableEq, Repr

/-- The mnemonics of 30_encoding.md R83. -/
def asmRows : List AsmRow :=
  [ ⟨"F_CREATE", 0x10#8, [.unit, .f32]⟩,
    ⟨"F_DESTROY", 0x11#8, [.unit]⟩,
    ⟨"F_SET_FREQ", 0x12#8, [.unit, .f32]⟩,
    ⟨"F_SET_RES", 0x13#8, [.unit, .f32]⟩,
    ⟨"F_SET_SMOOTH", 0x14#8, [.unit, .f32]⟩,
    ⟨"F_PROCESS", 0x15#8, [.unit, .u32, .u32]⟩,
    ⟨"F_RESET", 0x16#8, [.unit]⟩,
    ⟨"F_PEEK", 0x17#8, [.unit, .filterSel]⟩,
    ⟨"O_CREATE", 0x20#8, [.unit, .f32]⟩,
    ⟨"O_DESTROY", 0x21#8, [.unit]⟩,
    ⟨"O_SET_FREQ", 0x22#8, [.unit, .f32]⟩,
    ⟨"O_SET_AMP", 0x23#8, [.unit, .f32]⟩,
    ⟨"O_SET_WAVE", 0x24#8, [.unit, .waveCode]⟩,
    ⟨"O_PROCESS", 0x25#8, [.unit, .u32, .u32]⟩,
    ⟨"O_RESET", 0x26#8, [.unit]⟩,
    ⟨"O_PEEK", 0x27#8, [.unit, .oscSel]⟩,
    ⟨"U_CLAMP", 0x30#8, [.f32, .f32, .f32]⟩,
    ⟨"U_LERP", 0x31#8, [.f32, .f32, .f32]⟩,
    ⟨"U_DB2LIN", 0x32#8, [.f32]⟩,
    ⟨"U_LIN2DB", 0x33#8, [.f32]⟩,
    ⟨"D_PEEK", 0x34#8, [.diagSel]⟩ ]

/-- The slots `UNIT`, `A`, `B`, `C` from the operands in order: the unit first where there is one, then
the operand slots; a slot not given is zero (30_encoding.md R81, R82). -/
def wordOfOperands (row : AsmRow) (vals : List Nat) : Command :=
  match row.kinds with
  | .unit :: _ =>
    packWord row.opc (vals.getD 0 0) (BitVec.ofNat 32 (vals.getD 1 0)) (BitVec.ofNat 32 (vals.getD 2 0)) 0#32
  | _ =>
    packWord row.opc 0 (BitVec.ofNat 32 (vals.getD 0 0)) (BitVec.ofNat 32 (vals.getD 1 0))
      (BitVec.ofNat 32 (vals.getD 2 0))

/-- One line of assembler: the command word, if the line is a command (30_encoding.md R88). A `;` starts
a comment. -/
def assembleLine (line : List Char) : Option Command :=
  let code := trimBlanks (line.takeWhile fun c => c != ';')
  let mnemonic := code.takeWhile fun c => !isBlank c
  let operands := trimBlanks (code.dropWhile fun c => !isBlank c)
  match asmRows.find? fun r => r.name.toList == mnemonic with
  | none => none
  | some row => (parseOperands row.kinds (splitAtChar ',' operands)).map (wordOfOperands row)

/-- A line with nothing on it but white space and a comment, which is no command. DESIGN CHOICE (assumption log 18),
safe: 30_encoding.md R88 does not say what such a line is. -/
def isEmptyLine (line : List Char) : Bool :=
  (trimBlanks (line.takeWhile fun c => c != ';')).isEmpty

/-- A text of one command per line: the command words in order, if every line that is not empty is a
command (30_encoding.md R88; empty lines are skipped, assumption log 18). -/
def assemble (text : List Char) : Option (List Command) :=
  ((splitAtChar '\n' text).filter fun l => !isEmptyLine l).mapM assembleLine

end Sys2Proof.Machine
end

