-- ==== Sys2Proof/Machine/Ideal.lean ====
section
/-! DEFINITION. `NUM_IDEAL` (00_scope.md R9): every `F32` a real number, every operation exact; the
arithmetic in which the source states its properties (93_implementation_defined.md G2). It has no bit-level encoding
and no command runs in it; assumption log 17. Beside it, a binary32 number as a real and the accuracy properties
of R10. -/

namespace Sys2Proof.Machine

/-- `NUM_IDEAL` (00_scope.md R9). -/
noncomputable def ideal : Num ℝ where
  zero := 0
  half := 1 / 2
  one := 1
  two := 2
  three := 3
  four := 4
  ten := 10
  twenty := 20
  negOne := -1
  negTwo := -2
  fadd a b := a + b
  fsub a b := a - b
  fmul a b := a * b
  fdiv a b := a / b
  fabs a := |a|
  ffloor a := (⌊a⌋ : ℝ)
  flt a b := decide (a < b)
  fgt a b := decide (a > b)
  fisnan _ := false
  fisfinite _ := true
  fsin := Real.sin
  fcos := Real.cos
  fpow10 a := (10 : ℝ) ^ a
  flog10 a := Real.logb 10 a

/-- The configuration in which the source writes its formulas: the decimal values of 00_scope.md R6 as
reals, and `TWO_PI` the number 2π (41_coefficients.md R121), for a mapping and a gate. -/
noncomputable def idealConfig (qmap : QMap) (gateOn : GateOn) : Config ℝ where
  memWords := 2 ^ 32
  fFmin := 20
  fFmaxFrac := 45 / 100
  resMin := 0
  resMax := 99 / 100
  smoothMin := 0
  smoothMax := 1 / 10
  hystF := 1
  hystR := 1 / 1000
  gateOn := gateOn
  qmap := qmap
  defFreq := 1000
  defRes := 7 / 10
  defSmooth := 1 / 100
  oscFmin := 20
  oscFmax := 20000
  ampMin := 0
  ampMax := 1
  defOscFreq := 441
  defAmp := 1
  defWave := 0#2
  epsDb := 1 / 10 ^ 12
  twoPi := 2 * Real.pi

/-- The real number a finite binary32 word stands for (00_scope.md R8). -/
noncomputable def fpReal (a : F32) : ℝ := (fpValue a : ℝ) / 2 ^ 149

/-- A real number in the range of the normal binary32 numbers. -/
def NormalSize (x : ℝ) : Prop := 1 / 2 ^ 126 ≤ |x| ∧ |x| ≤ (2 ^ 24 - 1) * 2 ^ 104

/-- `P_TRIG_ACC` with `TRIG_EPS = eps` (00_scope.md R10): what a claim may assume of the build's sine and
cosine (assumption log 9). -/
def TrigAcc (eps : ℝ) : Prop :=
  ∀ a : F32, fpIsFinite a = true → |fpReal a| ≤ 8 →
    |fpReal (fpSin a) - Real.sin (fpReal a)| ≤ eps ∧ |fpReal (fpCos a) - Real.cos (fpReal a)| ≤ eps

/-- `P_POW_ACC` with `EXP_EPS = eps` (00_scope.md R10, assumption log 9). -/
def PowAcc (eps : ℝ) : Prop :=
  ∀ a : F32, fpIsFinite a = true → NormalSize ((10 : ℝ) ^ fpReal a) →
    fpIsFinite (fpPow10 a) = true ∧
      |fpReal (fpPow10 a) - (10 : ℝ) ^ fpReal a| ≤ eps * |(10 : ℝ) ^ fpReal a|

/-- `P_LOG_ACC` with `EXP_EPS = eps` (00_scope.md R10, assumption log 9). -/
def LogAcc (eps : ℝ) : Prop :=
  ∀ a : F32, fpIsFinite a = true → 0 < fpReal a → NormalSize (Real.logb 10 (fpReal a)) →
    fpIsFinite (fpLog10 a) = true ∧
      |fpReal (fpLog10 a) - Real.logb 10 (fpReal a)| ≤ eps * |Real.logb 10 (fpReal a)|

end Sys2Proof.Machine
end

