-- ==== Sys2Proof/Safety.lean ====
section
/-! DEFINITION. What counts as a legal build, a legal state and a safe step, in the terms the statements
use. -/

namespace Sys2Proof.Machine

/-- `v` is a number of the closed range `[lo, hi]`: not a NaN, not below, not above. -/
def inRange (v lo hi : F32) : Bool := !fpIsNaN v && !fpLt v lo && !fpGt v hi

/-- The builds 00_scope.md R6 allows: the fixed parameters at the values of its table, the open ones
within the limits it names (assumption log 2). -/
structure ConfigValid (cfg : Config F32) : Prop where
  memWords : 2 ≤ cfg.memWords ∧ cfg.memWords ≤ 2 ^ 32
  fFmin : cfg.fFmin = standardConfig.fFmin
  fFmaxFrac : cfg.fFmaxFrac = standardConfig.fFmaxFrac
  resMin : cfg.resMin = standardConfig.resMin
  resMax : cfg.resMax = standardConfig.resMax
  smoothMin : cfg.smoothMin = standardConfig.smoothMin
  smoothMax : cfg.smoothMax = standardConfig.smoothMax ∨ cfg.smoothMax = fpOne
  hystF : fpIsFinite cfg.hystF = true ∧ fpLt cfg.hystF 0#32 = false
  hystR : fpIsFinite cfg.hystR = true ∧ fpLt cfg.hystR 0#32 = false
  defFreq : fpIsNaN cfg.defFreq = false
  defRes : inRange cfg.defRes cfg.resMin cfg.resMax = true
  defSmooth : inRange cfg.defSmooth cfg.smoothMin cfg.smoothMax = true
  oscFmin : cfg.oscFmin = standardConfig.oscFmin ∨ cfg.oscFmin = 0x3DCCCCCD#32
  oscFmax : fpIsFinite cfg.oscFmax = true ∧ fpLt cfg.oscFmax cfg.oscFmin = false
  ampMin : cfg.ampMin = standardConfig.ampMin
  ampMax : cfg.ampMax = standardConfig.ampMax
  defOscFreq : inRange cfg.defOscFreq cfg.oscFmin cfg.oscFmax = true
  defAmp : inRange cfg.defAmp cfg.ampMin cfg.ampMax = true
  epsDb : cfg.epsDb = standardConfig.epsDb
  twoPi : cfg.twoPi = standardConfig.twoPi

/-- The lower end of a filter unit's frequency range at a sample rate: `F_FMIN`, or the ceiling where
that is lower (10_state.md R24). -/
def freqFloor (cfg : Config F32) (sr : F32) : F32 :=
  if fpLt (freqCeiling b32 cfg sr) cfg.fFmin then freqCeiling b32 cfg sr else cfg.fFmin

/-- The legal values of a live filter unit's registers (10_state.md R21, R23 to R27). The current values are finite and
not negative in every build (40_smoother.md R113, R116). They keep their ranges where `SMOOTH_MAX` is the default 0.1:
R116 item 3 gives that up above rate 0.5. -/
structure FilterLegal (cfg : Config F32) (f : FilterUnit F32) : Prop where
  sampleRate : rateAccepted b32 f.sampleRate = true
  tgtFreq : inRange f.tgtFreq (freqFloor cfg f.sampleRate) (freqCeiling b32 cfg f.sampleRate) = true
  tgtRes : inRange f.tgtRes cfg.resMin cfg.resMax = true
  smooth : inRange f.smooth cfg.smoothMin cfg.smoothMax = true
  coefs : f.b2 = f.b0
  curFreqNumber : fpIsFinite f.curFreq = true ∧ fpLt f.curFreq 0#32 = false
  curResNumber : fpIsFinite f.curRes = true ∧ fpLt f.curRes 0#32 = false
  curFreq : cfg.smoothMax = standardConfig.smoothMax →
    inRange f.curFreq (freqFloor cfg f.sampleRate) (freqCeiling b32 cfg f.sampleRate) = true
  curRes : cfg.smoothMax = standardConfig.smoothMax →
    inRange f.curRes cfg.resMin cfg.resMax = true

/-- `0 <= p < 1` (10_state.md R33). -/
def phaseLegal (p : F32) : Bool := !fpIsNaN p && !fpLt p 0#32 && fpLt p fpOne

/-- No frequency of the oscillator's range has an infinite increment at this sample rate: by 10_state.md
R30, a rate of at least about 5.9e-35. -/
def incBounded (cfg : Config F32) (sr : F32) : Bool := fpIsFinite (fpDiv cfg.oscFmax sr)

/-- The legal values of a live oscillator unit's registers (10_state.md R29 to R33). The phase is legal where
the increment cannot overflow: a finite `INC` alone is not enough, since a NaN phase stays one when a
lower frequency makes `INC` finite again (70_reset_and_hazards.md R252). -/
structure OscLegal (cfg : Config F32) (o : OscUnit F32) : Prop where
  sampleRate : rateAccepted b32 o.sampleRate = true
  freq : inRange o.freq cfg.oscFmin cfg.oscFmax = true
  amp : inRange o.amp cfg.ampMin cfg.ampMax = true
  inc : o.inc = fpDiv o.freq o.sampleRate
  phase : incBounded cfg o.sampleRate = true → phaseLegal o.phase = true

/-- The invariant of the machine: a legal build (00_scope.md R6), 1 to 255 units of each kind (R6), every
live unit's registers legal, the sample memory in its canonical form and inside the memory. -/
structure State.Inv (s : State) : Prop where
  cfg : ConfigValid s.cfg
  nf : 1 ≤ s.filters.length ∧ s.filters.length ≤ 255
  no : 1 ≤ s.oscs.length ∧ s.oscs.length ≤ 255
  filters : ∀ u f, s.filter? u = some f → FilterLegal s.cfg f
  oscs : ∀ u o, s.osc? u = some o → OscLegal s.cfg o
  wf : s.mem.wf = true
  inside : s.mem.inside s.cfg.memWords = true

/-- A command that answers a next state in every state but those where the spec gives a PROCESS command
no meaning (60_exceptions.md R234). -/
def hasMeaning (i : Instr) (s : State) : Bool :=
  match i with
  | .fProcess u ptr count =>
    (s.filter? u).isNone || emptyBuffer ptr count || bufferInside s.cfg ptr count
  | .oProcess u ptr count =>
    (s.osc? u).isNone || emptyBuffer ptr count || bufferInside s.cfg ptr count
  | _ => true

/-- The NOOP cause of a command in a state, by the table of 60_exceptions.md R222, tested in the order of
30_encoding.md R91 and 60_exceptions.md R225. -/
def noopCause (i : Instr) (s : State) : Option NoopCause :=
  match i with
  | .fCreate u sr =>
    if s.filters.length ≤ u then some .n2 else if rateAccepted b32 sr then none else some .n5
  | .oCreate u sr =>
    if s.oscs.length ≤ u then some .n2 else if rateAccepted b32 sr then none else some .n5
  | .fDestroy u => if (s.filter? u).isNone then some .n2 else none
  | .fReset u => if (s.filter? u).isNone then some .n2 else none
  | .oDestroy u => if (s.osc? u).isNone then some .n2 else none
  | .oReset u => if (s.osc? u).isNone then some .n2 else none
  | .oSetWave u _ => if (s.osc? u).isNone then some .n2 else none
  | .fSetFreq u v => if (s.filter? u).isNone then some .n2 else if fpIsNaN v then some .n4 else none
  | .fSetRes u v => if (s.filter? u).isNone then some .n2 else if fpIsNaN v then some .n4 else none
  | .fSetSmooth u v => if (s.filter? u).isNone then some .n2 else if fpIsNaN v then some .n4 else none
  | .oSetFreq u v => if (s.osc? u).isNone then some .n2 else if fpIsNaN v then some .n4 else none
  | .oSetAmp u v => if (s.osc? u).isNone then some .n2 else if fpIsNaN v then some .n4 else none
  | .fProcess u ptr count =>
    if (s.filter? u).isNone then some .n2 else if ptr = 0#32 ∨ count = 0#32 then some .n3 else none
  | .oProcess u ptr count =>
    if (s.osc? u).isNone then some .n2 else if ptr = 0#32 ∨ count = 0#32 then some .n3 else none
  | .fPeek u sel =>
    if sel = 15#32 then none
    else if (s.filter? u).isNone then some .n2 else if 16 ≤ sel.toNat then some .n6 else none
  | .oPeek u sel =>
    if sel = 15#32 then none
    else if (s.osc? u).isNone then some .n2 else if 6 ≤ sel.toNat then some .n6 else none
  | .dPeek sel => if 2 ≤ sel.toNat then some .n6 else none
  | .uClamp _ _ _ => none
  | .uLerp _ _ _ => none
  | .uDb2Lin _ => none
  | .uLin2Db _ => none

/-- Whether a command is a CLAMP event, by 60_exceptions.md R223: a setter that is no NOOP event, with an
operand strictly outside its register's range, or a waveform code above 3. -/
def clampCause (i : Instr) (s : State) : Bool :=
  (noopCause i s).isNone &&
    match i with
    | .fSetFreq u v =>
      (s.filter? u).any fun f => fpLt v s.cfg.fFmin || fpGt v (fpMul s.cfg.fFmaxFrac f.sampleRate)
    | .fSetRes _ v => fpLt v s.cfg.resMin || fpGt v s.cfg.resMax
    | .fSetSmooth _ v => fpLt v s.cfg.smoothMin || fpGt v s.cfg.smoothMax
    | .oSetFreq _ v => fpLt v s.cfg.oscFmin || fpGt v s.cfg.oscFmax
    | .oSetAmp _ v => fpLt v s.cfg.ampMin || fpGt v s.cfg.ampMax
    | .oSetWave _ code => decide (3 < code.toNat)
    | _ => false

/-- The words of the sample memory from word `a` on, `n` of them. -/
def samplesFrom (m : Memory) (a : Nat) : Nat → List Word
  | 0 => []
  | n + 1 => memRead m a :: samplesFrom m (a + 1) n

end Sys2Proof.Machine
end

