-- ==== Sys2Proof/Certificates/Slice0/Obligations.lean ====
section
/-! DEFINITION. The statements for the provers. Each docstring says which rule of spec/ it formalises. -/

open Sys2Proof Sys2Proof.Machine

/-! ### Encoding and decoding -/

/-- Every well-formed command decodes back from its word, every operand at every value (30_encoding.md
R80 to R83). -/
def Obligations.DecodeEncodeRoundTrip : Prop :=
  ∀ i : Instr, i.wellFormed = true → decode (encode i) = .ok i

/-- Every word that decodes is the word of the command it decodes to, so no two words name one command
and no bit is dropped (30_encoding.md R81, R92). -/
def Obligations.EncodeDecodeRoundTrip : Prop :=
  ∀ (w : Command) (i : Instr), decode w = .ok i → i.wellFormed = true ∧ encode i = w

/-- Words written out in the spec decode to the commands it gives them (95_test_vectors.md V-F-1, V-E-9,
V-F-19, V-O-2, V-E-10, V-UT-25). -/
def Obligations.SpecWordsDecode : Prop :=
  decode 0x10000000472C44000000000000000000#128 = .ok (.fCreate 0 0x472C4400#32) ∧
  decode 0x15000000000000100000000600000000#128 = .ok (.fProcess 0 16#32 6#32) ∧
  decode 0x17FF00000000000F0000000000000000#128 = .ok (.fPeek 255 15#32) ∧
  decode 0x2200000040A000000000000000000000#128 = .ok (.oSetFreq 0 0x40A00000#32) ∧
  decode 0x3100000040000000408000003F000000#128 = .ok (.uLerp 0x40000000#32 0x40800000#32 0x3F000000#32) ∧
  decode 0x34000000000000000000000000000000#128 = .ok (.dPeek 0#32)

/-- 30_encoding.md R84: a word is illegal exactly when its opcode is in no row of R83 or a field its
format does not use is nonzero; presented by the host it executes as `noop(N1)`, which changes nothing
but `DIAG_NOOP`. The all-zero and the all-ones word are illegal. -/
def Obligations.IllegalWordsAreNoops : Prop :=
  (∀ w : Command, (∀ i, decode w ≠ .ok i) ↔
    ((opcField w).toNat < 0x10 ∨ (0x18 ≤ (opcField w).toNat ∧ (opcField w).toNat < 0x20) ∨
      (0x28 ≤ (opcField w).toNat ∧ (opcField w).toNat < 0x30) ∨ 0x35 ≤ (opcField w).toNat) ∨
    w.extractLsb' 96 16 ≠ 0#16 ∨
    (opcField w ∈ [0x11#8, 0x16#8, 0x21#8, 0x26#8] ∧ (slotA w ≠ 0#32 ∨ slotB w ≠ 0#32 ∨ slotC w ≠ 0#32)) ∨
    (opcField w ∈ [0x10#8, 0x12#8, 0x13#8, 0x14#8, 0x17#8, 0x20#8, 0x22#8, 0x23#8, 0x24#8, 0x27#8] ∧
      (slotB w ≠ 0#32 ∨ slotC w ≠ 0#32)) ∨
    (opcField w ∈ [0x15#8, 0x25#8] ∧ slotC w ≠ 0#32) ∨
    (opcField w ∈ [0x32#8, 0x33#8, 0x34#8] ∧ (unitField w ≠ 0#8 ∨ slotB w ≠ 0#32 ∨ slotC w ≠ 0#32)) ∨
    (opcField w ∈ [0x30#8, 0x31#8] ∧ unitField w ≠ 0#8)) ∧
  (∀ (s : State) (w : Command) (rest : List HostAction), s.host = .command w :: rest →
    (∀ i, decode w ≠ .ok i) →
      step s = .next { s with host := rest, diagNoop := satInc s.diagNoop }) ∧
  (∀ i, decode 0#128 ≠ .ok i) ∧ (∀ i, decode (BitVec.allOnes 128) ≠ .ok i)

/-- The assembler's words for the two examples of 30_encoding.md R88, and for the example of 43_oscillator.md R180 with
a comment after it. That the blanks between the tokens are trimmed is the model's choice (assumption log 18). -/
def Obligations.AssemblerExamples : Prop :=
  assembleLine "F_SET_FREQ 0, 1000.0".toList = some 0x12000000447A00000000000000000000#128 ∧
  assembleLine "O_PROCESS 1, 16, 8".toList = some 0x25010000000000100000000800000000#128 ∧
  assembleLine "O_SET_WAVE 0, saw ; sawtooth".toList = some 0x24000000000000010000000000000000#128

/-! ### Steps of the machine -/

/-- A step runs the command the presented word decodes to, on the state with that word taken; the other
actions of the host do what the host asks; a silent host leaves the state as it is (30_encoding.md R86).
That the host is a stream of actions and that its write to an absent word faults are the model's choices
(assumption log 5, 6, 7). -/
def Obligations.StepRunsPresentedCommand : Prop :=
  (∀ (s : State) (w : Command) (i : Instr) (rest : List HostAction), s.host = .command w :: rest →
    decode w = .ok i → step s = exec i { s with host := rest }) ∧
  (∀ (s : State) (a v : Word) (rest : List HostAction), s.host = .write a v :: rest →
    a.toNat < s.cfg.memWords →
      step s = .next { s with host := rest, mem := memWrite s.mem a.toNat v }) ∧
  (∀ (s : State) (a v : Word) (rest : List HostAction), s.host = .write a v :: rest →
    s.cfg.memWords ≤ a.toNat → step s = .fault .absentWord) ∧
  (∀ (s : State) (cells : List Host.Cell) (rest : List HostAction), s.host = .hreset cells :: rest →
    step s = .next (hreset cells { s with host := rest })) ∧
  (∀ s : State, s.host = [] → step s = .next s)

/-- 60_exceptions.md R234: a word, legal or illegal, in any state, has a next state, but for the one case
of a PROCESS command with a valid handle, nonzero pointer and count and `ptr + count > MEM_WORDS`, which
is refused; nothing faults. -/
def Obligations.OnlyOutsideBuffersAreRefused : Prop :=
  ∀ (w : Command) (s : State),
    (((∃ u ptr count, (∃ f, s.filter? u = some f) ∧ decode w = .ok (.fProcess u ptr count) ∧
          ptr ≠ 0#32 ∧ count ≠ 0#32 ∧ s.cfg.memWords < ptr.toNat + count.toNat) ∨
        (∃ u ptr count, (∃ o, s.osc? u = some o) ∧ decode w = .ok (.oProcess u ptr count) ∧
          ptr ≠ 0#32 ∧ count ≠ 0#32 ∧ s.cfg.memWords < ptr.toNat + count.toNat)) ∧
      runWord w s = .refused .bufferOutsideMemory) ∨
    ((¬ ((∃ u ptr count, (∃ f, s.filter? u = some f) ∧ decode w = .ok (.fProcess u ptr count) ∧
          ptr ≠ 0#32 ∧ count ≠ 0#32 ∧ s.cfg.memWords < ptr.toNat + count.toNat) ∨
        (∃ u ptr count, (∃ o, s.osc? u = some o) ∧ decode w = .ok (.oProcess u ptr count) ∧
          ptr ≠ 0#32 ∧ count ≠ 0#32 ∧ s.cfg.memWords < ptr.toNat + count.toNat))) ∧
      ∃ t, runWord w s = .next t)

/-- Every step keeps the invariant: a legal build, every live unit's registers in the ranges of 10_state.md
R21 to R33, the sample memory canonical and inside its bounds. Two ranges have an exception: where `SMOOTH_MAX` is
1.0 the current values of a filter are only finite and not negative (40_smoother.md R113, R116 item 3), and the
phase of an oscillator is in [0, 1) only at a sample rate where no frequency overflows its increment
(`incBounded`; 10_state.md R33, 70_reset_and_hazards.md R252). -/
def Obligations.StepKeepsInvariant : Prop :=
  ∀ s t : State, s.Inv → step s = .next t → t.Inv

/-- The reset state meets the invariant. The parameter values left open by 00_scope.md R6 are the
model's choice (assumption log 2). -/
def Obligations.ResetMeetsInvariant : Prop := State.reset.Inv

/-- HRESET (70_reset_and_hazards.md R240, 10_state.md R41): no unit live, as many units as before, RESULT
and both counters zero, the build unchanged; the same of the reset state. That HRESET is a step, too, is
the model's choice (assumption log 7). -/
def Obligations.HresetEndsEveryUnit : Prop :=
  (∀ (s : State) (cells : List Host.Cell),
    (∀ u, (hreset cells s).filter? u = none) ∧ (∀ u, (hreset cells s).osc? u = none) ∧
    (hreset cells s).filters.length = s.filters.length ∧ (hreset cells s).oscs.length = s.oscs.length ∧
    (hreset cells s).result = 0#32 ∧ (hreset cells s).diagClamp = 0#32 ∧
    (hreset cells s).diagNoop = 0#32 ∧ (hreset cells s).cfg = s.cfg ∧ (hreset cells s).host = s.host) ∧
  (∀ u, State.reset.filter? u = none) ∧ (∀ u, State.reset.osc? u = none) ∧
  State.reset.result = 0#32 ∧ State.reset.diagClamp = 0#32 ∧ State.reset.diagNoop = 0#32

/-! ### The filter commands -/

/-- 42_filter.md R141: F_CREATE with an index in range and a finite positive rate initialises the unit
from scratch, live or not; a rate that is not is a NOOP event, an index out of range too. -/
def Obligations.FCreateInitialisesUnit : Prop :=
  ∀ (s : State) (u : Nat) (sr : F32),
    (u < s.filters.length → fpIsFinite sr = true → fpGt sr 0#32 = true →
      ∃ f0 c, f0 = clamp b32 s.cfg.defFreq s.cfg.fFmin (fpMul s.cfg.fFmaxFrac sr) ∧
        c = coef b32 s.cfg f0 s.cfg.defRes sr ∧
        exec (.fCreate u sr) s = .next (s.setFilter u (some
          { sampleRate := sr, curFreq := f0, tgtFreq := f0, curRes := s.cfg.defRes,
            tgtRes := s.cfg.defRes, smooth := s.cfg.defSmooth, b0 := c.b0, b1 := c.b1, b2 := c.b2,
            a1 := c.a1, a2 := c.a2, x1 := 0#32, x2 := 0#32, y1 := 0#32, y2 := 0#32 }))) ∧
    (u < s.filters.length → (fpIsFinite sr = false ∨ fpGt sr 0#32 = false) →
      exec (.fCreate u sr) s = .next (noopEvent s)) ∧
    (s.filters.length ≤ u → exec (.fCreate u sr) s = .next (noopEvent s))

/-- 42_filter.md R142: F_DESTROY ends a live unit's life; on an invalid handle it is a NOOP event, so that
destroying twice is harmless. -/
def Obligations.FDestroyEndsUnit : Prop :=
  ∀ (s : State) (u : Nat),
    (∀ f, s.filter? u = some f → exec (.fDestroy u) s = .next (s.setFilter u none) ∧
      (s.setFilter u none).filter? u = none) ∧
    (s.filter? u = none → exec (.fDestroy u) s = .next (noopEvent s))

/-- 42_filter.md R143: F_SET_FREQ writes the target only, clamped to 20 Hz and 0.45 times the sample rate;
a number outside is a CLAMP event, a NaN or an invalid handle a NOOP event. -/
def Obligations.FSetFreqWritesTarget : Prop :=
  ∀ (s : State) (u : Nat) (hz : F32),
    (∀ f, s.filter? u = some f → fpIsNaN hz = false →
      exec (.fSetFreq u hz) s = .next
        ((if fpLt hz s.cfg.fFmin || fpGt hz (fpMul s.cfg.fFmaxFrac f.sampleRate) then clampEvent s else s).setFilter
          u (some { f with tgtFreq := clamp b32 hz s.cfg.fFmin (fpMul s.cfg.fFmaxFrac f.sampleRate) }))) ∧
    (∀ f, s.filter? u = some f → fpIsNaN hz = true → exec (.fSetFreq u hz) s = .next (noopEvent s)) ∧
    (s.filter? u = none → exec (.fSetFreq u hz) s = .next (noopEvent s))

/-- 42_filter.md R144: F_SET_RES, as F_SET_FREQ, for the resonance and its range. -/
def Obligations.FSetResWritesTarget : Prop :=
  ∀ (s : State) (u : Nat) (r : F32),
    (∀ f, s.filter? u = some f → fpIsNaN r = false →
      exec (.fSetRes u r) s = .next
        ((if fpLt r s.cfg.resMin || fpGt r s.cfg.resMax then clampEvent s else s).setFilter
          u (some { f with tgtRes := clamp b32 r s.cfg.resMin s.cfg.resMax }))) ∧
    (∀ f, s.filter? u = some f → fpIsNaN r = true → exec (.fSetRes u r) s = .next (noopEvent s)) ∧
    (s.filter? u = none → exec (.fSetRes u r) s = .next (noopEvent s))

/-- 42_filter.md R145: F_SET_SMOOTH writes the one smoothing rate of the unit, clamped. -/
def Obligations.FSetSmoothWritesRate : Prop :=
  ∀ (s : State) (u : Nat) (rate : F32),
    (∀ f, s.filter? u = some f → fpIsNaN rate = false →
      exec (.fSetSmooth u rate) s = .next
        ((if fpLt rate s.cfg.smoothMin || fpGt rate s.cfg.smoothMax then clampEvent s else s).setFilter
          u (some { f with smooth := clamp b32 rate s.cfg.smoothMin s.cfg.smoothMax }))) ∧
    (∀ f, s.filter? u = some f → fpIsNaN rate = true →
      exec (.fSetSmooth u rate) s = .next (noopEvent s)) ∧
    (s.filter? u = none → exec (.fSetSmooth u rate) s = .next (noopEvent s))

/-- 42_filter.md R146: F_PROCESS on a live unit with a nonempty buffer inside the memory runs one block
update, which gives the unit `g`, and then the filter over the buffer, in place: the words of the buffer afterwards are
the outputs of the stream of the words before; every byte outside the buffer is as before. By R140 each output is the
sum of five products, rounded one operation at a time from the left, over the samples `x` in and `y` out, whose first
two are the delay line of `g`; the delay line afterwards is the last two of each, and no other register of `g` moves. -/
def Obligations.FProcessFiltersBufferInPlace : Prop :=
  ∀ (s : State) (u : Nat) (ptr count : Word) (f : FilterUnit F32),
    s.mem.wf = true → s.filter? u = some f → ptr ≠ 0#32 → count ≠ 0#32 →
    ptr.toNat + count.toNat ≤ s.cfg.memWords →
      ∃ (g : FilterUnit F32) (m : Memory) (r : List F32 × FilterUnit F32) (x y : Nat → F32),
        g = blockUpdate b32 s.cfg f ∧
        r = filterStream b32 g (samplesFrom s.mem ptr.toNat count.toNat) ∧
        exec (.fProcess u ptr count) s = .next { s.setFilter u (some r.2) with mem := m } ∧
        samplesFrom m ptr.toNat count.toNat = r.1 ∧
        (∀ a, a < 4 * ptr.toNat ∨ 4 * (ptr.toNat + count.toNat) ≤ a → readByte m a = readByte s.mem a) ∧
        (x 0 = g.x2 ∧ x 1 = g.x1 ∧ y 0 = g.y2 ∧ y 1 = g.y1) ∧
        (∀ n, n < count.toNat → x (n + 2) = memRead s.mem (ptr.toNat + n) ∧
          y (n + 2) = memRead m (ptr.toNat + n) ∧
          y (n + 2) = fpSub (fpSub (fpAdd (fpAdd (fpMul g.b0 (x (n + 2))) (fpMul g.b1 (x (n + 1))))
            (fpMul g.b2 (x n))) (fpMul g.a1 (y (n + 1)))) (fpMul g.a2 (y n))) ∧
        r.2 = { g with x1 := x (count.toNat + 1), x2 := x count.toNat,
                       y1 := y (count.toNat + 1), y2 := y count.toNat }

/-- 42_filter.md R149 with the smoother of 40_smoother.md R110: the block update advances both current values once;
the gate tests the advanced values under `POST` and the old ones under `PRE`; open, it writes the five coefficients
computed from the advanced values; closed, it keeps them; no other register moves. -/
def Obligations.BlockUpdateAdvancesThenGates : Prop :=
  ∀ (cfg : Config F32) (f : FilterUnit F32), ∃ (cf cr gf gr : F32) (c : Coefs F32),
    cf = fpAdd f.curFreq (fpMul (fpSub f.tgtFreq f.curFreq) f.smooth) ∧
    cr = fpAdd f.curRes (fpMul (fpSub f.tgtRes f.curRes) f.smooth) ∧
    (cfg.gateOn = .post → gf = cf ∧ gr = cr) ∧
    (cfg.gateOn = .pre → gf = f.curFreq ∧ gr = f.curRes) ∧
    c = coef b32 cfg cf cr f.sampleRate ∧
    ((fpGt (fpAbs (fpSub gf f.tgtFreq)) cfg.hystF = true ∨ fpGt (fpAbs (fpSub gr f.tgtRes)) cfg.hystR = true) →
      blockUpdate b32 cfg f = { f with curFreq := cf, curRes := cr,
                                       b0 := c.b0, b1 := c.b1, b2 := c.b2, a1 := c.a1, a2 := c.a2 }) ∧
    (fpGt (fpAbs (fpSub gf f.tgtFreq)) cfg.hystF = false → fpGt (fpAbs (fpSub gr f.tgtRes)) cfg.hystR = false →
      blockUpdate b32 cfg f = { f with curFreq := cf, curRes := cr })

/-- 41_coefficients.md R123 with the two mappings of R122, in binary32: the five coefficients, one rounded operation
a line of the rule. -/
def Obligations.CoefficientsFollowCookbook : Prop :=
  ∀ (cfg : Config F32) (f r sr : F32) (k : Coefs F32), k = coef b32 cfg f r sr →
    ∃ w sn cs al a0 omc : F32,
      w = fpDiv (fpMul cfg.twoPi f) sr ∧ sn = fpSin w ∧ cs = fpCos w ∧
      (cfg.qmap = .a →
        al = fpDiv sn (fpMul 0x40000000#32 (fpAdd 0x3F000000#32 (fpMul 0x41200000#32 r)))) ∧
      (cfg.qmap = .b → al = fpDiv sn (fpMul 0x40000000#32 (fpSub 0x3F800000#32 r))) ∧
      a0 = fpAdd 0x3F800000#32 al ∧ omc = fpSub 0x3F800000#32 cs ∧
      k.b0 = fpDiv omc (fpMul 0x40000000#32 a0) ∧ k.b1 = fpDiv omc a0 ∧ k.b2 = k.b0 ∧
      k.a1 = fpDiv (fpMul 0xC0000000#32 cs) a0 ∧ k.a2 = fpDiv (fpSub 0x3F800000#32 al) a0

/-- 42_filter.md R146 and its corner case (a): F_PROCESS and O_PROCESS with a null pointer or a zero count,
or on an invalid handle, are NOOP events and nothing else: no smoother or phase advances (43_oscillator.md R181
case (a)). -/
def Obligations.EmptyProcessIsNoop : Prop :=
  ∀ (s : State) (u : Nat) (ptr count : Word),
    ((s.filter? u = none ∨ ptr = 0#32 ∨ count = 0#32) →
      exec (.fProcess u ptr count) s = .next (noopEvent s)) ∧
    ((s.osc? u = none ∨ ptr = 0#32 ∨ count = 0#32) →
      exec (.oProcess u ptr count) s = .next (noopEvent s))

/-- 20_memory.md R67, 93_implementation_defined.md U3: a PROCESS command on a live unit whose buffer does not lie inside
the sample memory is refused. -/
def Obligations.OutsideBufferIsRefused : Prop :=
  ∀ (s : State) (u : Nat) (ptr count : Word), ptr ≠ 0#32 → count ≠ 0#32 →
    s.cfg.memWords < ptr.toNat + count.toNat →
      (∀ f, s.filter? u = some f → exec (.fProcess u ptr count) s = .refused .bufferOutsideMemory) ∧
      (∀ o, s.osc? u = some o → exec (.oProcess u ptr count) s = .refused .bufferOutsideMemory)

/-- 42_filter.md R147: F_RESET zeroes the four delay registers and nothing else; on a delay line already
zero it changes nothing and counts nothing; on an invalid handle it is a NOOP event. -/
def Obligations.FResetClearsDelayLine : Prop :=
  ∀ (s : State) (u : Nat),
    (∀ f, s.filter? u = some f → exec (.fReset u) s = .next
      (s.setFilter u (some { f with x1 := 0#32, x2 := 0#32, y1 := 0#32, y2 := 0#32 }))) ∧
    (∀ f, s.filter? u = some f → f.x1 = 0#32 → f.x2 = 0#32 → f.y1 = 0#32 → f.y2 = 0#32 →
      exec (.fReset u) s = .next s) ∧
    (s.filter? u = none → exec (.fReset u) s = .next (noopEvent s))

/-- 42_filter.md R148 with the selector table of 10_state.md R43: what F_PEEK leaves in RESULT, for every
selector. -/
def Obligations.FPeekReadsRegister : Prop :=
  ∀ (s : State) (u : Nat),
    (∀ f, s.filter? u = some f →
      (∀ k : Nat, k < 15 → ∃ v, exec (.fPeek u (BitVec.ofNat 32 k)) s = .next { s with result := v } ∧
        [f.sampleRate, f.curFreq, f.tgtFreq, f.curRes, f.tgtRes, f.smooth, f.b0, f.b1, f.b2, f.a1, f.a2,
          f.x1, f.x2, f.y1, f.y2][k]? = some v) ∧
      exec (.fPeek u 15#32) s = .next { s with result := 1#32 } ∧
      (∀ sel : Word, 16 ≤ sel.toNat → exec (.fPeek u sel) s = .next (noopEvent s))) ∧
    (s.filter? u = none →
      exec (.fPeek u 15#32) s = .next { s with result := 0#32 } ∧
      ∀ sel : Word, sel ≠ 15#32 → exec (.fPeek u sel) s = .next (noopEvent s))

/-! ### The oscillator commands -/

/-- 43_oscillator.md R176: O_CREATE, as F_CREATE. -/
def Obligations.OCreateInitialisesUnit : Prop :=
  ∀ (s : State) (u : Nat) (sr : F32),
    (u < s.oscs.length → fpIsFinite sr = true → fpGt sr 0#32 = true →
      exec (.oCreate u sr) s = .next (s.setOsc u (some
        { sampleRate := sr, freq := s.cfg.defOscFreq, amp := s.cfg.defAmp, wave := s.cfg.defWave,
          phase := 0#32, inc := fpDiv s.cfg.defOscFreq sr }))) ∧
    (u < s.oscs.length → (fpIsFinite sr = false ∨ fpGt sr 0#32 = false) →
      exec (.oCreate u sr) s = .next (noopEvent s)) ∧
    (s.oscs.length ≤ u → exec (.oCreate u sr) s = .next (noopEvent s))

/-- 43_oscillator.md R177: O_DESTROY, which does nothing to a filter unit. -/
def Obligations.ODestroyEndsUnit : Prop :=
  ∀ (s : State) (u : Nat),
    (∀ o, s.osc? u = some o → exec (.oDestroy u) s = .next (s.setOsc u none) ∧
      (s.setOsc u none).osc? u = none ∧ ∀ v, (s.setOsc u none).filter? v = s.filter? v) ∧
    (s.osc? u = none → exec (.oDestroy u) s = .next (noopEvent s))

/-- 43_oscillator.md R178: O_SET_FREQ writes the clamped frequency and the increment computed from it; the
phase is untouched. -/
def Obligations.OSetFreqWritesIncrement : Prop :=
  ∀ (s : State) (u : Nat) (hz : F32),
    (∀ o, s.osc? u = some o → fpIsNaN hz = false →
      ∃ f, f = clamp b32 hz s.cfg.oscFmin s.cfg.oscFmax ∧
        exec (.oSetFreq u hz) s = .next
          ((if fpLt hz s.cfg.oscFmin || fpGt hz s.cfg.oscFmax then clampEvent s else s).setOsc
            u (some { o with freq := f, inc := fpDiv f o.sampleRate }))) ∧
    (∀ o, s.osc? u = some o → fpIsNaN hz = true → exec (.oSetFreq u hz) s = .next (noopEvent s)) ∧
    (s.osc? u = none → exec (.oSetFreq u hz) s = .next (noopEvent s))

/-- 43_oscillator.md R179: O_SET_AMP. -/
def Obligations.OSetAmpWritesAmplitude : Prop :=
  ∀ (s : State) (u : Nat) (a : F32),
    (∀ o, s.osc? u = some o → fpIsNaN a = false →
      exec (.oSetAmp u a) s = .next
        ((if fpLt a s.cfg.ampMin || fpGt a s.cfg.ampMax then clampEvent s else s).setOsc
          u (some { o with amp := clamp b32 a s.cfg.ampMin s.cfg.ampMax }))) ∧
    (∀ o, s.osc? u = some o → fpIsNaN a = true → exec (.oSetAmp u a) s = .next (noopEvent s)) ∧
    (s.osc? u = none → exec (.oSetAmp u a) s = .next (noopEvent s))

/-- 43_oscillator.md R180: O_SET_WAVE writes the low two bits of a code up to 3; a greater code sets sine and is a
CLAMP event. -/
def Obligations.OSetWaveSelectsWaveform : Prop :=
  ∀ (s : State) (u : Nat) (code : Word),
    (∀ o, s.osc? u = some o → code.toNat ≤ 3 →
      exec (.oSetWave u code) s = .next (s.setOsc u (some { o with wave := BitVec.ofNat 2 code.toNat }))) ∧
    (∀ o, s.osc? u = some o → 4 ≤ code.toNat →
      exec (.oSetWave u code) s = .next ((clampEvent s).setOsc u (some { o with wave := 0#2 }))) ∧
    (s.osc? u = none → exec (.oSetWave u code) s = .next (noopEvent s))

/-- 43_oscillator.md R181: O_PROCESS on a live unit with a nonempty buffer inside the memory fills the buffer with
`fmul(AMP, wave)` of each phase in turn and leaves the phase advanced once a sample (R175); every byte outside
the buffer is as before. The wave `w` is that of R170 for the unit's code: the sine of `2π·p` (R171), `2p - 1` (R172),
plus one below one half and else minus one (R173), `4p - 1` below one half and else `3 - 4p` (R174). -/
def Obligations.OProcessFillsBuffer : Prop :=
  ∀ (s : State) (u : Nat) (ptr count : Word) (o : OscUnit F32),
    s.mem.wf = true → s.osc? u = some o → ptr ≠ 0#32 → count ≠ 0#32 →
    ptr.toNat + count.toNat ≤ s.cfg.memWords →
      ∃ (m : Memory) (p : Nat → F32) (w : F32 → F32),
        p = (fun n : Nat => (fun q => fpSub (fpAdd q o.inc) (fpFloor (fpAdd q o.inc)))^[n] o.phase) ∧
        (o.wave = 0#2 → ∀ q, w q = fpSin (fpMul s.cfg.twoPi q)) ∧
        (o.wave = 1#2 → ∀ q, w q = fpSub (fpMul 0x40000000#32 q) 0x3F800000#32) ∧
        (o.wave = 2#2 → ∀ q, w q = if fpLt q 0x3F000000#32 then 0x3F800000#32 else 0xBF800000#32) ∧
        (o.wave = 3#2 → ∀ q, w q = if fpLt q 0x3F000000#32 then fpSub (fpMul 0x40800000#32 q) 0x3F800000#32
          else fpSub 0x40400000#32 (fpMul 0x40800000#32 q)) ∧
        (∀ q, w q = waveOf b32 s.cfg o.wave q) ∧
        exec (.oProcess u ptr count) s =
          .next { s.setOsc u (some { o with phase := p count.toNat }) with mem := m } ∧
        (∀ n, n < count.toNat → memRead m (ptr.toNat + n) = fpMul o.amp (w (p n))) ∧
        ∀ a, a < 4 * ptr.toNat ∨ 4 * (ptr.toNat + count.toNat) ≤ a → readByte m a = readByte s.mem a

/-- 43_oscillator.md R182: O_RESET zeroes the phase only. -/
def Obligations.OResetZeroesPhase : Prop :=
  ∀ (s : State) (u : Nat),
    (∀ o, s.osc? u = some o → exec (.oReset u) s = .next (s.setOsc u (some { o with phase := 0#32 }))) ∧
    (∀ o, s.osc? u = some o → o.phase = 0#32 → exec (.oReset u) s = .next s) ∧
    (s.osc? u = none → exec (.oReset u) s = .next (noopEvent s))

/-- 43_oscillator.md R183 with the selector table of 10_state.md R44: what O_PEEK leaves in RESULT, for every
selector. -/
def Obligations.OPeekReadsRegister : Prop :=
  ∀ (s : State) (u : Nat),
    (∀ o, s.osc? u = some o →
      (∀ k : Nat, k < 6 → ∃ v, exec (.oPeek u (BitVec.ofNat 32 k)) s = .next { s with result := v } ∧
        [o.sampleRate, o.freq, o.amp, BitVec.ofNat 32 o.wave.toNat, o.phase, o.inc][k]? = some v) ∧
      exec (.oPeek u 15#32) s = .next { s with result := 1#32 } ∧
      (∀ sel : Word, 6 ≤ sel.toNat → sel ≠ 15#32 → exec (.oPeek u sel) s = .next (noopEvent s))) ∧
    (s.osc? u = none →
      exec (.oPeek u 15#32) s = .next { s with result := 0#32 } ∧
      ∀ sel : Word, sel ≠ 15#32 → exec (.oPeek u sel) s = .next (noopEvent s))

/-! ### The utility commands -/

/-- 44_utility.md R200, R201, R202, R203: the four utility commands answer in RESULT, whatever the state,
and change nothing else. -/
def Obligations.UtilityCommandsAnswerInResult : Prop :=
  ∀ (s : State) (a b c : F32),
    (∃ v, (v = if fpLt a b then b else a) ∧
      exec (.uClamp a b c) s = .next { s with result := if fpGt v c then c else v }) ∧
    exec (.uLerp a b c) s = .next { s with result := fpAdd a (fpMul (fpSub b a) c) } ∧
    exec (.uDb2Lin a) s = .next { s with result := fpPow10 (fpDiv a 0x41A00000#32) } ∧
    ∃ v, (v = if fpGt a s.cfg.epsDb then a else s.cfg.epsDb) ∧
      exec (.uLin2Db a) s = .next { s with result := fpMul 0x41A00000#32 (fpLog10 v) }

/-- 44_utility.md R204: D_PEEK reads a counter as it was before the command; a selector from 2 on is a
NOOP event. -/
def Obligations.DPeekReadsCounter : Prop :=
  ∀ s : State,
    exec (.dPeek 0#32) s = .next { s with result := s.diagClamp } ∧
    exec (.dPeek 1#32) s = .next { s with result := s.diagNoop } ∧
    ∀ sel : Word, 2 ≤ sel.toNat → exec (.dPeek sel) s = .next { s with diagNoop := satInc s.diagNoop }

/-- 44_utility.md R202, R203, by 00_scope.md R10: zero decibels is a gain of exactly one, for either zero;
a gain of one is exactly `+0` decibels; and the operand of the logarithm is a number at least `EPS_DB`. -/
def Obligations.DecibelFixedPoints : Prop :=
  (∀ s : State, exec (.uDb2Lin 0x00000000#32) s = .next { s with result := 0x3F800000#32 } ∧
    exec (.uDb2Lin 0x80000000#32) s = .next { s with result := 0x3F800000#32 }) ∧
  (∀ s : State, ConfigValid s.cfg →
    exec (.uLin2Db 0x3F800000#32) s = .next { s with result := 0x00000000#32 }) ∧
  (∀ (cfg : Config F32) (lin : F32), ConfigValid cfg →
    fpIsNaN (floorEps b32 cfg lin) = false ∧ fpLt (floorEps b32 cfg lin) cfg.epsDb = false)

/-! ### Frames -/

/-- The filter commands leave the other filter units, every oscillator unit, the build, the host's actions
and, but for F_PEEK, RESULT as they were; all of them but F_PROCESS leave every byte of memory
(10_state.md R42, 20_memory.md R68). -/
def Obligations.FilterCommandFrame : Prop :=
  ∀ (s t : State) (u : Nat) (i : Instr), exec i s = .next t →
    ((∃ x, i = .fCreate u x ∨ i = .fSetFreq u x ∨ i = .fSetRes u x ∨ i = .fSetSmooth u x ∨ i = .fPeek u x) ∨
      i = .fDestroy u ∨ i = .fReset u ∨ ∃ p n, i = .fProcess u p n) →
    t.cfg = s.cfg ∧ t.host = s.host ∧ t.oscs = s.oscs ∧ t.filters.length = s.filters.length ∧
    (∀ v, v ≠ u → t.filter? v = s.filter? v) ∧
    ((∀ x, i ≠ .fPeek u x) → t.result = s.result) ∧
    ((∀ p n, i ≠ .fProcess u p n) → ∀ a, readByte t.mem a = readByte s.mem a) ∧
    (∀ p n, i = .fProcess u p n → ∀ a, a < 4 * p.toNat ∨ 4 * (p.toNat + n.toNat) ≤ a →
      readByte t.mem a = readByte s.mem a)

/-- The oscillator commands, as the filter commands (10_state.md R42, 20_memory.md R68). -/
def Obligations.OscillatorCommandFrame : Prop :=
  ∀ (s t : State) (u : Nat) (i : Instr), exec i s = .next t →
    ((∃ x, i = .oCreate u x ∨ i = .oSetFreq u x ∨ i = .oSetAmp u x ∨ i = .oSetWave u x ∨ i = .oPeek u x) ∨
      i = .oDestroy u ∨ i = .oReset u ∨ ∃ p n, i = .oProcess u p n) →
    t.cfg = s.cfg ∧ t.host = s.host ∧ t.filters = s.filters ∧ t.oscs.length = s.oscs.length ∧
    (∀ v, v ≠ u → t.osc? v = s.osc? v) ∧
    ((∀ x, i ≠ .oPeek u x) → t.result = s.result) ∧
    ((∀ p n, i ≠ .oProcess u p n) → ∀ a, readByte t.mem a = readByte s.mem a) ∧
    (∀ p n, i = .oProcess u p n → ∀ a, a < 4 * p.toNat ∨ 4 * (p.toNat + n.toNat) ≤ a →
      readByte t.mem a = readByte s.mem a)

/-- 44_utility.md R205: the four utility commands answer by their operands and the configuration alone; they touch
no unit, no byte of memory and neither counter. D_PEEK, which reads the counters, touches no unit, no byte of memory
and not the CLAMP counter (R204, 20_memory.md R68). -/
def Obligations.UtilityCommandFrame : Prop :=
  ∀ (s t : State) (i : Instr) (a b c : F32), exec i s = .next t →
    (i = .uClamp a b c ∨ i = .uLerp a b c ∨ i = .uDb2Lin a ∨ i = .uLin2Db a ∨ i = .dPeek a) →
    t.cfg = s.cfg ∧ t.host = s.host ∧ t.filters = s.filters ∧ t.oscs = s.oscs ∧ t.mem = s.mem ∧
    t.diagClamp = s.diagClamp ∧
    (i ≠ .dPeek a → t.diagNoop = s.diagNoop ∧
      ∀ s' : State, s'.cfg = s.cfg → exec i s' = .next { s' with result := t.result })

/-- 42_filter.md R150: no command but F_CREATE and F_PROCESS of the unit writes CUR_FREQ, CUR_RES or a
coefficient of a unit that is live before and after; no command but F_CREATE writes its sample rate (10_state.md R23);
no command but F_CREATE, F_RESET and F_PROCESS writes its delay line (R28). -/
def Obligations.OnlyCreateAndProcessMoveFilter : Prop :=
  ∀ (s t : State) (i : Instr) (u : Nat) (f g : FilterUnit F32), exec i s = .next t →
    s.filter? u = some f → t.filter? u = some g → (∀ sr, i ≠ .fCreate u sr) →
    g.sampleRate = f.sampleRate ∧
    ((∀ p n, i ≠ .fProcess u p n) →
      g.curFreq = f.curFreq ∧ g.curRes = f.curRes ∧ g.b0 = f.b0 ∧ g.b1 = f.b1 ∧ g.b2 = f.b2 ∧
      g.a1 = f.a1 ∧ g.a2 = f.a2 ∧
      (i ≠ .fReset u → g.x1 = f.x1 ∧ g.x2 = f.x2 ∧ g.y1 = f.y1 ∧ g.y2 = f.y2)) ∧
    ((∀ x, i ≠ .fSetFreq u x) → g.tgtFreq = f.tgtFreq) ∧
    ((∀ x, i ≠ .fSetRes u x) → g.tgtRes = f.tgtRes) ∧
    ((∀ x, i ≠ .fSetSmooth u x) → g.smooth = f.smooth)

/-- The registers of an oscillator unit that is live before and after: only O_CREATE writes its sample rate
(10_state.md R23), only O_CREATE and O_SET_FREQ its frequency and increment (R30), only O_CREATE and the
setters its amplitude and waveform, only O_CREATE, O_RESET and O_PROCESS its phase (R33). -/
def Obligations.OscillatorRegisterFrame : Prop :=
  ∀ (s t : State) (i : Instr) (u : Nat) (o p : OscUnit F32), exec i s = .next t →
    s.osc? u = some o → t.osc? u = some p → (∀ sr, i ≠ .oCreate u sr) →
    p.sampleRate = o.sampleRate ∧
    ((∀ x, i ≠ .oSetFreq u x) → p.freq = o.freq ∧ p.inc = o.inc) ∧
    ((∀ x, i ≠ .oSetAmp u x) → p.amp = o.amp) ∧
    ((∀ x, i ≠ .oSetWave u x) → p.wave = o.wave) ∧
    (i ≠ .oReset u → (∀ q n, i ≠ .oProcess u q n) → p.phase = o.phase)

/-- 60_exceptions.md R222, R225: a command word with a cause of the table of R222 changes nothing but
`DIAG_NOOP`, which rises by one up to its greatest value; one without leaves `DIAG_NOOP`; `DIAG_CLAMP`
rises exactly by the CLAMP events of R223; no word is both events. -/
def Obligations.EventsHaveTheirCauses : Prop :=
  (∀ (w : Command) (s : State), (∀ i, decode w = .ok i → (noopCause i s).isSome = true) →
    runWord w s = .next { s with diagNoop := satInc s.diagNoop }) ∧
  (∀ (w : Command) (i : Instr) (s t : State), decode w = .ok i → runWord w s = .next t →
    ((noopCause i s).isNone = true → t.diagNoop = s.diagNoop) ∧
    t.diagClamp = (if clampCause i s then satInc s.diagClamp else s.diagClamp) ∧
    ((noopCause i s).isSome = true → clampCause i s = false)) ∧
  (∀ c : Word, (satInc c).toNat = min (c.toNat + 1) 0xFFFFFFFF)

/-- 10_state.md R35, 70_reset_and_hazards.md R240: in any step but an HRESET, each counter stays or rises by one, and a
counter at its greatest value stays there. -/
def Obligations.CountersOnlyRise : Prop :=
  ∀ (s t : State), step s = .next t → (∀ cells rest, s.host ≠ .hreset cells :: rest) →
    (t.diagNoop = s.diagNoop ∨ t.diagNoop.toNat = min (s.diagNoop.toNat + 1) 0xFFFFFFFF) ∧
    (t.diagClamp = s.diagClamp ∨ t.diagClamp.toNat = min (s.diagClamp.toNat + 1) 0xFFFFFFFF)

/-- 10_state.md R42, 60_exceptions.md R231: a filter command sees only its own unit, the globals, the build and
the sample memory: two states that agree on those give results that agree on those. -/
def Obligations.FilterUnitsAreIndependent : Prop :=
  ∀ (s s' t : State) (u : Nat) (i : Instr), exec i s = .next t →
    ((∃ x, i = .fCreate u x ∨ i = .fSetFreq u x ∨ i = .fSetRes u x ∨ i = .fSetSmooth u x ∨ i = .fPeek u x) ∨
      i = .fDestroy u ∨ i = .fReset u ∨ ∃ p n, i = .fProcess u p n) →
    s'.cfg = s.cfg → s'.filters[u]? = s.filters[u]? → s'.result = s.result →
    s'.diagClamp = s.diagClamp → s'.diagNoop = s.diagNoop → s'.mem = s.mem →
    ∃ t', exec i s' = .next t' ∧ t'.filters[u]? = t.filters[u]? ∧ t'.result = t.result ∧
      t'.diagClamp = t.diagClamp ∧ t'.diagNoop = t.diagNoop ∧ t'.mem = t.mem ∧
      (∀ v, v ≠ u → t'.filters[v]? = s'.filters[v]?) ∧ t'.oscs = s'.oscs

/-- 10_state.md R42, 60_exceptions.md R231: an oscillator command sees only its own unit, the globals and the
build: two states that agree on those give results that agree on those. The memory enters only as what O_PROCESS
leaves outside its buffer (20_memory.md R66): each word it writes is the same whatever the memory held. -/
def Obligations.OscillatorUnitsAreIndependent : Prop :=
  ∀ (s s' t : State) (u : Nat) (i : Instr), exec i s = .next t →
    ((∃ x, i = .oCreate u x ∨ i = .oSetFreq u x ∨ i = .oSetAmp u x ∨ i = .oSetWave u x ∨ i = .oPeek u x) ∨
      i = .oDestroy u ∨ i = .oReset u ∨ ∃ p n, i = .oProcess u p n) →
    s'.cfg = s.cfg → s'.oscs[u]? = s.oscs[u]? → s'.result = s.result →
    s'.diagClamp = s.diagClamp → s'.diagNoop = s.diagNoop →
    ∃ t', exec i s' = .next t' ∧ t'.oscs[u]? = t.oscs[u]? ∧ t'.result = t.result ∧
      t'.diagClamp = t.diagClamp ∧ t'.diagNoop = t.diagNoop ∧
      (s'.mem = s.mem → t'.mem = t.mem) ∧
      (s.mem.wf = true → s'.mem.wf = true → ∀ p n, i = .oProcess u p n → (s.osc? u).isSome = true → p ≠ 0#32 →
        ∀ k, k < n.toNat → memRead t'.mem (p.toNat + k) = memRead t.mem (p.toNat + k)) ∧
      (∀ v, v ≠ u → t'.oscs[v]? = s'.oscs[v]?) ∧ t'.filters = s'.filters

/-! ### Processing -/

/-- 43_oscillator.md R181 case (c): splitting a block of an oscillator leaves the same state, always. -/
def Obligations.OscillatorBlocksJoin : Prop :=
  ∀ (s t t' : State) (u : Nat) (ptr n m : Word), ptr ≠ 0#32 → n ≠ 0#32 → m ≠ 0#32 →
    ptr.toNat + n.toNat + m.toNat ≤ s.cfg.memWords → s.cfg.memWords ≤ 2 ^ 32 →
    (∃ o, s.osc? u = some o) →
    exec (.oProcess u ptr n) s = .next t → exec (.oProcess u (ptr + n) m) t = .next t' →
      exec (.oProcess u ptr (n + m)) s = .next t'

/-- 42_filter.md R152: with no change pending, splitting a block of a filter leaves the same state. -/
def Obligations.FilterBlocksJoinAtTarget : Prop :=
  ∀ (s t t' : State) (u : Nat) (ptr n m : Word) (f : FilterUnit F32), s.Inv → s.filter? u = some f →
    f.curFreq = f.tgtFreq → f.curRes = f.tgtRes → ptr ≠ 0#32 → n ≠ 0#32 → m ≠ 0#32 →
    ptr.toNat + n.toNat + m.toNat ≤ s.cfg.memWords →
    exec (.fProcess u ptr n) s = .next t → exec (.fProcess u (ptr + n) m) t = .next t' →
      exec (.fProcess u ptr (n + m)) s = .next t'

/-- 42_filter.md R149: when both current values equal their targets the block update leaves every register but,
at most, the sign of a zero current value, whatever the rate. -/
def Obligations.BlockUpdateRestsAtTarget : Prop :=
  ∀ (cfg : Config F32) (f : FilterUnit F32), ConfigValid cfg → FilterLegal cfg f →
    f.curFreq = f.tgtFreq → f.curRes = f.tgtRes →
    ∃ cf cr, blockUpdate b32 cfg f = { f with curFreq := cf, curRes := cr } ∧
      fpValue cf = fpValue f.curFreq ∧ fpValue cr = fpValue f.curRes

/-- 70_reset_and_hazards.md R253, 42_filter.md R146 (e): a NaN in any of the four delay registers makes every
later output a NaN and stays in the delay line; a NaN sample makes its own output and every later one a NaN and
leaves the delay line poisoned. -/
def Obligations.NanPoisonsDelayLine : Prop :=
  (∀ (f : FilterUnit F32) (xs : List F32),
    (fpIsNaN f.x1 = true ∨ fpIsNaN f.x2 = true ∨ fpIsNaN f.y1 = true ∨ fpIsNaN f.y2 = true) →
      (∀ y ∈ (filterStream b32 f xs).1, fpIsNaN y = true) ∧
      (xs ≠ [] ∨ fpIsNaN f.y1 = true → fpIsNaN (filterStream b32 f xs).2.y1 = true)) ∧
  ∀ (f : FilterUnit F32) (xs zs : List F32) (x : F32), fpIsNaN x = true →
    (∀ y ∈ (filterStream b32 f (xs ++ x :: zs)).1.drop xs.length, fpIsNaN y = true) ∧
    (filterStream b32 f (xs ++ x :: zs)).1.length = xs.length + zs.length + 1 ∧
    fpIsNaN (filterStream b32 f (xs ++ x :: zs)).2.y1 = true

/-- 43_oscillator.md R181 case (d): in a legal state, at a sample rate where no increment overflows, every
sample O_PROCESS writes is a number between -AMP and AMP. -/
def Obligations.OscillatorOutputWithinAmplitude : Prop :=
  ∀ (s t : State) (u : Nat) (ptr count : Word) (o : OscUnit F32), s.Inv → s.osc? u = some o →
    incBounded s.cfg o.sampleRate = true → ptr ≠ 0#32 → count ≠ 0#32 →
    exec (.oProcess u ptr count) s = .next t →
      ∀ y ∈ samplesFrom t.mem ptr.toNat count.toNat, inRange y (fpNeg o.amp) o.amp = true

/-! ### Arithmetic -/

/-- 00_scope.md R9: the sum, difference, product and quotient of finite numbers are the nearest binary32 number, ties to
even, when they are finite; they overflow exactly from halfway past the largest finite number on.
Values are in units of 2^-149. IEEE 754 itself is taken from the standard (assumption log 11). -/
def Obligations.ArithmeticRoundsToNearestEven : Prop :=
  ∀ a b : F32, fpIsFinite a = true → fpIsFinite b = true →
    (fpIsFinite (fpAdd a b) = true → ∀ c : F32, fpIsFinite c = true →
      |fpValue (fpAdd a b) - (fpValue a + fpValue b)| ≤ |fpValue c - (fpValue a + fpValue b)| ∧
      (|fpValue (fpAdd a b) - (fpValue a + fpValue b)| = |fpValue c - (fpValue a + fpValue b)| →
        fpValue c ≠ fpValue (fpAdd a b) → fpBits (fpAdd a b) % 2 = 0)) ∧
    (fpIsFinite (fpAdd a b) = false ↔ (2 ^ 25 - 1) * 2 ^ 252 ≤ |fpValue a + fpValue b|) ∧
    (fpIsFinite (fpSub a b) = true → ∀ c : F32, fpIsFinite c = true →
      |fpValue (fpSub a b) - (fpValue a - fpValue b)| ≤ |fpValue c - (fpValue a - fpValue b)| ∧
      (|fpValue (fpSub a b) - (fpValue a - fpValue b)| = |fpValue c - (fpValue a - fpValue b)| →
        fpValue c ≠ fpValue (fpSub a b) → fpBits (fpSub a b) % 2 = 0)) ∧
    (fpIsFinite (fpSub a b) = false ↔ (2 ^ 25 - 1) * 2 ^ 252 ≤ |fpValue a - fpValue b|) ∧
    (fpIsFinite (fpMul a b) = true → ∀ c : F32, fpIsFinite c = true →
      |fpValue (fpMul a b) * 2 ^ 149 - fpValue a * fpValue b| ≤
        |fpValue c * 2 ^ 149 - fpValue a * fpValue b| ∧
      (|fpValue (fpMul a b) * 2 ^ 149 - fpValue a * fpValue b| =
          |fpValue c * 2 ^ 149 - fpValue a * fpValue b| →
        fpValue c ≠ fpValue (fpMul a b) → fpBits (fpMul a b) % 2 = 0)) ∧
    (fpIsFinite (fpMul a b) = false ↔ (2 ^ 25 - 1) * 2 ^ 252 * 2 ^ 149 ≤ |fpValue a * fpValue b|) ∧
    (fpValue b ≠ 0 → fpIsFinite (fpDiv a b) = true → ∀ c : F32, fpIsFinite c = true →
      |fpValue (fpDiv a b) * fpValue b - fpValue a * 2 ^ 149| ≤
        |fpValue c * fpValue b - fpValue a * 2 ^ 149| ∧
      (|fpValue (fpDiv a b) * fpValue b - fpValue a * 2 ^ 149| =
          |fpValue c * fpValue b - fpValue a * 2 ^ 149| →
        fpValue c ≠ fpValue (fpDiv a b) → fpBits (fpDiv a b) % 2 = 0)) ∧
    (fpValue b ≠ 0 →
      (fpIsFinite (fpDiv a b) = false ↔ (2 ^ 25 - 1) * 2 ^ 252 * |fpValue b| ≤ |fpValue a| * 2 ^ 149))

/-- 00_scope.md R9, 92_eei_decisions.md D39: an arithmetic result that is a NaN is the canonical quiet NaN. -/
def Obligations.NanResultsAreCanonical : Prop :=
  ∀ a b : F32,
    (fpIsNaN (fpAdd a b) = true → fpAdd a b = 0x7FC00000#32) ∧
    (fpIsNaN (fpSub a b) = true → fpSub a b = 0x7FC00000#32) ∧
    (fpIsNaN (fpMul a b) = true → fpMul a b = 0x7FC00000#32) ∧
    (fpIsNaN (fpDiv a b) = true → fpDiv a b = 0x7FC00000#32)

/-- 00_scope.md R12: for `lo <= hi` and `v` not a NaN, `clamp` lands in the range, gives `lo` below it and
`hi` above it; it leaves a number of the range, a bound included, as it is; with `lo > hi` it gives `hi`;
a NaN comes back unchanged. -/
def Obligations.ClampLandsInRange : Prop :=
  ∀ v lo hi : F32,
    (fpIsNaN v = false → fpIsNaN lo = false → fpIsNaN hi = false → fpLt hi lo = false →
      inRange (clamp b32 v lo hi) lo hi = true ∧ (fpLt v lo = true → clamp b32 v lo hi = lo) ∧
      (fpGt v hi = true → clamp b32 v lo hi = hi)) ∧
    (inRange v lo hi = true → clamp b32 v lo hi = v) ∧
    (fpIsNaN v = false → fpLt hi lo = true → clamp b32 v lo hi = hi) ∧
    (fpIsNaN v = true → clamp b32 v lo hi = v)

/-- 40_smoother.md R116 items 1 and 2, in binary32: for non-negative finite values and a rate from 0 to 0.5
the smoother never moves away from the target and never passes it; a rate up to 1 never moves away and gives
no NaN. -/
def Obligations.SmootherNeverOvershootsInBinary32 : Prop :=
  ∀ c t r : F32, fpIsFinite c = true → fpIsFinite t = true → fpIsFinite r = true →
    fpLt c 0#32 = false → fpLt t 0#32 = false → fpLt r 0#32 = false → fpGt r 0x3F800000#32 = false →
    fpIsNaN (smoothStep b32 c t r) = false ∧
    (fpGt c t = false → fpLt (smoothStep b32 c t r) c = false) ∧
    (fpLt c t = false → fpGt (smoothStep b32 c t r) c = false) ∧
    (fpGt r 0x3F000000#32 = false →
      (fpGt c t = false → fpGt (smoothStep b32 c t r) t = false) ∧
      (fpLt c t = false → fpLt (smoothStep b32 c t r) t = false))

/-- 43_oscillator.md R175 case (a), in binary32: from a phase in [0, 1) and a finite increment that is not
negative, the phase one sample on lies in [0, 1). -/
def Obligations.PhaseStaysNormalized : Prop :=
  ∀ p inc : F32, phaseLegal p = true → fpIsFinite inc = true → fpLt inc 0#32 = false →
    phaseLegal (phaseNext b32 p inc) = true

/-- 43_oscillator.md R170, R171 to R174, in binary32: at a phase in [0, 1) every waveform lies in [-1, 1]. -/
def Obligations.WaveformsStayInUnitRange : Prop :=
  ∀ (cfg : Config F32) (k : BitVec 2) (p : F32), ConfigValid cfg → phaseLegal p = true →
    inRange (waveOf b32 cfg k p) 0xBF800000#32 0x3F800000#32 = true

/-! ### The source's properties, in exact arithmetic -/

/-- 40_smoother.md R112, with R111 and R115, in exact arithmetic (assumption log 17): one application lies between the current
value and the target; n applications leave the distance times (1 - rate)^n; a rate in (0, 1] converges. -/
def Obligations.SmootherConvergesMonotonically : Prop :=
  ∀ c t r : ℝ, 0 ≤ r → r ≤ 1 →
    (c ≤ t → c ≤ smoothStep ideal c t r ∧ smoothStep ideal c t r ≤ t) ∧
    (t ≤ c → smoothStep ideal c t r ≤ c ∧ t ≤ smoothStep ideal c t r) ∧
    (∀ lo hi, lo ≤ c → c ≤ hi → lo ≤ t → t ≤ hi →
      lo ≤ smoothStep ideal c t r ∧ smoothStep ideal c t r ≤ hi) ∧
    (∀ n : Nat, (fun x => smoothStep ideal x t r)^[n] c = t + (1 - r) ^ n * (c - t)) ∧
    (0 < r → Filter.Tendsto (fun n : Nat => (fun x => smoothStep ideal x t r)^[n] c) Filter.atTop (nhds t)) ∧
    smoothStep ideal c t 0 = c ∧ smoothStep ideal c t 1 = t ∧ smoothStep ideal t t r = t

/-- 41_coefficients.md R124, in exact arithmetic (assumption log 17) and for both mappings: for a cutoff below Nyquist and a
resonance in [0, 0.99] both poles lie strictly inside the unit circle. -/
def Obligations.PolesInsideUnitCircle : Prop :=
  ∀ (q : QMap) (g : GateOn) (f r sr : ℝ) (k : Coefs ℝ), 0 < f → f < sr / 2 → 0 ≤ r → r ≤ 99 / 100 →
    k = coef ideal (idealConfig q g) f r sr →
      |k.a2| < 1 ∧ 0 < 1 + k.a1 + k.a2 ∧ 0 < 1 - k.a1 + k.a2 ∧
      ∀ z : ℂ, z ^ 2 + (k.a1 : ℂ) * z + (k.a2 : ℂ) = 0 → ‖z‖ < 1

/-- 41_coefficients.md R125, in exact arithmetic (assumption log 17) and for both mappings: the gain at zero frequency is 1. -/
def Obligations.DcGainIsOne : Prop :=
  ∀ (q : QMap) (g : GateOn) (f r sr : ℝ) (k : Coefs ℝ), 0 < f → f < sr / 2 → 0 ≤ r → r ≤ 99 / 100 →
    k = coef ideal (idealConfig q g) f r sr →
      1 + k.a1 + k.a2 ≠ 0 ∧ (k.b0 + k.b1 + k.b2) / (1 + k.a1 + k.a2) = 1

/-- 41_coefficients.md R127, in exact arithmetic (assumption log 17): the magnitude of the response at the cutoff frequency is Q,
which is 0.5 + 10·resonance under mapping A and 1 - resonance under mapping B. -/
def Obligations.GainAtCutoffIsQ : Prop :=
  ∀ (q : QMap) (g : GateOn) (f r sr : ℝ) (k : Coefs ℝ) (z : ℂ), 0 < f → f < sr / 2 → 0 ≤ r →
    r ≤ 99 / 100 → k = coef ideal (idealConfig q g) f r sr →
    z = Complex.exp (-((2 * Real.pi * f / sr : ℝ) : ℂ) * Complex.I) →
      ‖((k.b0 : ℂ) + k.b1 * z + k.b2 * z ^ 2) / (1 + k.a1 * z + k.a2 * z ^ 2)‖ =
        match q with
        | .a => 1 / 2 + 10 * r
        | .b => 1 - r

/-- 43_oscillator.md R186, in exact arithmetic (assumption log 17): an oscillator whose frequency goes `n` times into its sample
rate repeats every `n` samples, whatever its waveform, and its phase stays in [0, 1) (R175). -/
def Obligations.OscillatorIsPeriodicExactly : Prop :=
  ∀ (cfg : Config ℝ) (o : OscUnit ℝ) (n : Nat), 0 < n → o.inc = 1 / n → 0 ≤ o.phase → o.phase < 1 →
    (oscStream ideal cfg n o).2 = o ∧
    (∀ m, 0 ≤ (oscStream ideal cfg m o).2.phase ∧ (oscStream ideal cfg m o).2.phase < 1) ∧
    ∀ m, (oscStream ideal cfg (n + m) o).1 = (oscStream ideal cfg n o).1 ++ (oscStream ideal cfg m o).1

/-- 70_reset_and_hazards.md R254, in exact arithmetic (assumption log 17): with rate 1 and the gate read after the advance the
coefficients never follow a setter, while the current values jump to their targets. -/
def Obligations.RateOneNeverRecomputes : Prop :=
  ∀ (cfg : Config ℝ) (f : FilterUnit ℝ), cfg.gateOn = .post → 0 ≤ cfg.hystF → 0 ≤ cfg.hystR →
    f.smooth = 1 → blockUpdate ideal cfg f = { f with curFreq := f.tgtFreq, curRes := f.tgtRes }
end

