-- ==== Sys2Proof/Laws/Decode.lean ====
section
/-! SUPPORT. The test of a word against its format (30_encoding.md R81), as tests of its fields. -/

namespace Sys2Proof

/-- A field of a word is zero exactly when each of its bits is. -/
theorem field_eq_zero_iff (w : Command) (s n : Nat) :
    w.extractLsb' s n = 0#n ↔ ∀ i, s ≤ i → i < s + n → w.getLsbD i = false := by
  constructor
  · intro h i h1 h2
    have hb := congrArg (fun x => x.getLsbD (i - s)) h
    simpa [BitVec.getLsbD_extractLsb', show i - s < n by omega, show s + (i - s) = i by omega] using hb
  · intro h
    apply BitVec.eq_of_getLsbD_eq
    intro i hi
    simp [hi]
    exact h _ (by omega) (by omega)

/-- Which bits a mask has (30_encoding.md R81). -/
theorem Format.mask_bit (f : Format) (i : Nat) (hi : i < 128) :
    f.mask.getLsbD i = (decide (120 ≤ i) || (decide (96 ≤ i) && decide (i < 112)) ||
      (match f with
       | .u => decide (i < 96)
       | .ua => decide (i < 64)
       | .uab => decide (i < 32)
       | .a => decide (i < 64) || decide (112 ≤ i)
       | .abc => decide (112 ≤ i))) := by
  cases f <;> (revert i; decide)

/-- The masked word equals the opcode exactly when every masked bit below the opcode is zero. -/
theorem masked_eq_opcode_iff (m w : Command) (hm : ∀ i, i < 128 → 120 ≤ i → m.getLsbD i = true) :
    w &&& m = opcodeBits (opcField w) ↔
      ∀ i, i < 120 → m.getLsbD i = true → w.getLsbD i = false := by
  have bits : ∀ i, i < 128 → (opcodeBits (opcField w)).getLsbD i = (decide (120 ≤ i) && w.getLsbD i) := by
    intro i hi
    unfold opcodeBits opcField
    by_cases h : 120 ≤ i
    · simp [BitVec.getLsbD_shiftLeft, BitVec.getLsbD_extractLsb', h, hi, show ¬ i < 120 by omega,
        show i - 120 < 8 by omega]
    · simp [BitVec.getLsbD_shiftLeft, h]
  constructor
  · intro h i hi hb
    have hw := congrArg (fun x => x.getLsbD i) h
    simp only [BitVec.getLsbD_and] at hw
    rw [bits i (by omega), hb] at hw
    simpa [show ¬ 120 ≤ i by omega] using hw
  · intro h
    apply BitVec.eq_of_getLsbD_eq
    intro i hi
    rw [BitVec.getLsbD_and, bits i hi]
    by_cases h1 : 120 ≤ i
    · simp [h1, hm i hi h1]
    · cases hb : m.getLsbD i with
      | false => simp [h1]
      | true => simp [h1, h i (by omega) hb]

/-- What the decoder's test of a word against its row's format says of the fields the format does not
use (30_encoding.md R81, R91 step 2). -/
theorem mask_test_iff_fields_zero (f : Format) (w : Command) :
    w &&& f.mask = opcodeBits (opcField w) ↔
      w.extractLsb' 96 16 = 0#16 ∧
      (match f with
       | .u => slotA w = 0#32 ∧ slotB w = 0#32 ∧ slotC w = 0#32
       | .ua => slotB w = 0#32 ∧ slotC w = 0#32
       | .uab => slotC w = 0#32
       | .a => unitField w = 0#8 ∧ slotB w = 0#32 ∧ slotC w = 0#32
       | .abc => unitField w = 0#8) := by
  rw [masked_eq_opcode_iff f.mask w (fun i hi h => by rw [f.mask_bit i hi]; simp [h])]
  unfold slotA slotB slotC unitField
  cases f <;> simp only [field_eq_zero_iff] <;> constructor
  all_goals
    intro h
    first
    | (refine ⟨?_, ?_, ?_, ?_⟩ <;> (intro i h1 h2; refine h i (by omega) ?_; rw [Format.mask_bit _ i (by omega)]; simp <;> omega))
    | (refine ⟨?_, ?_, ?_⟩ <;> (intro i h1 h2; refine h i (by omega) ?_; rw [Format.mask_bit _ i (by omega)]; simp <;> omega))
    | (refine ⟨?_, ?_⟩ <;> (intro i h1 h2; refine h i (by omega) ?_; rw [Format.mask_bit _ i (by omega)]; simp <;> omega))
    | (intro i hi hb; rw [Format.mask_bit _ i (by omega)] at hb; cases hw : w.getLsbD i <;> grind)

end Sys2Proof
end

