-- ==== Sys2Proof/Laws/Float32.lean ====
section
/-! SUPPORT. What rounding does: `fpUnits` is strictly rising, and `roundBits` is the rounding that lies
on the same side of every binary32 size as the exact quotient (monotone, exact on binary32 sizes). -/

namespace Sys2Proof.Machine

/-! ### The sizes of bit patterns -/

/-- A bit pattern written as a binade `k` and a significand `q` (2^24 carries into the next binade). -/
theorem fpUnits_binade (k q : Nat) (hq : q ≤ 2 ^ 24) (hk : k = 0 ∨ 2 ^ 23 ≤ q) :
    fpUnits (k * 2 ^ 23 + q) = q * 2 ^ k := by
  unfold fpUnits
  rcases Nat.lt_or_ge q (2 ^ 23) with h | h
  · obtain rfl : k = 0 := by omega
    have h0 : (0 * 2 ^ 23 + q) / 2 ^ 23 = 0 := by omega
    rw [if_pos h0]; simp
  · rcases Nat.eq_or_lt_of_le hq with rfl | h'
    · have h1 : (k * 2 ^ 23 + 2 ^ 24) / 2 ^ 23 = k + 2 := by omega
      have h2 : (k * 2 ^ 23 + 2 ^ 24) % 2 ^ 23 = 0 := by omega
      rw [h1, h2, if_neg (by omega), show k + 2 - 1 = k + 1 from rfl, Nat.add_zero, Nat.pow_succ 2 k]
      omega
    · have h1 : (k * 2 ^ 23 + q) / 2 ^ 23 = k + 1 := by omega
      have h2 : 2 ^ 23 + (k * 2 ^ 23 + q) % 2 ^ 23 = q := by omega
      rw [h1, h2, if_neg (by omega), Nat.add_sub_cancel]

/-- Every bit pattern is a binade and a significand below 2^24. -/
theorem exists_binade (n : Nat) :
    ∃ k q, n = k * 2 ^ 23 + q ∧ q < 2 ^ 24 ∧ (k = 0 ∨ 2 ^ 23 ≤ q) := by
  rcases Nat.lt_or_ge n (2 ^ 24) with h | h
  · exact ⟨0, n, by omega, h, .inl rfl⟩
  · exact ⟨n / 2 ^ 23 - 1, 2 ^ 23 + n % 2 ^ 23, by omega, by omega, .inr (by omega)⟩

theorem fpUnits_lt_succ (n : Nat) : fpUnits n < fpUnits (n + 1) := by
  obtain ⟨k, q, rfl, hq, hk⟩ := exists_binade n
  rw [Nat.add_assoc, fpUnits_binade k q (by omega) hk, fpUnits_binade k (q + 1) (by omega) (by omega)]
  exact Nat.mul_lt_mul_of_pos_right (Nat.lt_succ_self q) (Nat.two_pow_pos k)

theorem fpUnits_strictMono : StrictMono fpUnits := strictMono_nat_of_lt_succ fpUnits_lt_succ

theorem fpUnits_le_iff {m n : Nat} : fpUnits m ≤ fpUnits n ↔ m ≤ n := fpUnits_strictMono.le_iff_le

theorem fpUnits_lt_iff {m n : Nat} : fpUnits m < fpUnits n ↔ m < n := fpUnits_strictMono.lt_iff_lt

/-- Neighbouring sizes are within a factor of two. -/
theorem fpUnits_succ_le_double {n : Nat} (h : 0 < n) : fpUnits (n + 1) ≤ 2 * fpUnits n := by
  obtain ⟨k, q, rfl, hq, hk⟩ := exists_binade n
  rw [Nat.add_assoc, fpUnits_binade k q (by omega) hk, fpUnits_binade k (q + 1) (by omega) (by omega),
    ← Nat.mul_assoc]
  refine Nat.mul_le_mul_right _ ?_
  rcases hk with rfl | hk <;> omega

theorem fpUnits_zero : fpUnits 0 = 0 := by decide

/-! ### Rounding to a whole number -/

theorem roundHalfEven_le {num den z : Nat} (hd : 0 < den) (h : num ≤ z * den) :
    roundHalfEven num den ≤ z := by
  have hq : num / den ≤ z := Nat.div_le_of_le_mul (by rwa [Nat.mul_comm])
  unfold roundHalfEven
  rcases Nat.eq_or_lt_of_le hq with hz | hz
  · have hr : num % den = 0 := by
      have := Nat.div_add_mod num den
      rw [hz, Nat.mul_comm] at this
      omega
    simp only [hr, Nat.mul_zero, Nat.not_lt_zero, false_or]
    rw [if_neg (by omega)]
    exact hq
  · simp only
    split <;> omega

theorem le_roundHalfEven {num den z : Nat} (hd : 0 < den) (h : z * den ≤ num) :
    z ≤ roundHalfEven num den := by
  have hq : z ≤ num / den := (Nat.le_div_iff_mul_le hd).2 h
  unfold roundHalfEven
  simp only
  split <;> omega

/-! ### The binade of a quotient -/

theorem num_lt_binade (num : Nat) {den : Nat} (hd : 0 < den) :
    num < 2 ^ 24 * (den * 2 ^ binade num den) := by
  have h1 : num / den < 2 ^ (Nat.log2 (num / den) + 1) := Nat.lt_log2_self
  have h2 : (2 : Nat) ^ (Nat.log2 (num / den) + 1) ≤ 2 ^ (24 + binade num den) :=
    Nat.pow_le_pow_right (by decide) (by unfold binade; omega)
  have h3 : num < 2 ^ (24 + binade num den) * den := (Nat.div_lt_iff_lt_mul hd).1 (by omega)
  rw [Nat.pow_add] at h3
  calc num < 2 ^ 24 * 2 ^ binade num den * den := h3
    _ = 2 ^ 24 * (den * 2 ^ binade num den) := by rw [Nat.mul_assoc, Nat.mul_comm den]

theorem binade_le_num {num den : Nat} (hd : 0 < den) (hk : binade num den ≠ 0) :
    2 ^ 23 * (den * 2 ^ binade num den) ≤ num := by
  have hl : Nat.log2 (num / den) = 23 + binade num den := by unfold binade at *; omega
  have hne : num / den ≠ 0 := by
    intro h0
    rw [h0] at hl
    have : Nat.log2 0 = 0 := by decide
    omega
  have h1 : 2 ^ Nat.log2 (num / den) ≤ num / den := Nat.log2_self_le hne
  rw [hl, Nat.le_div_iff_mul_le hd, Nat.pow_add] at h1
  calc 2 ^ 23 * (den * 2 ^ binade num den) = 2 ^ 23 * 2 ^ binade num den * den := by
        rw [Nat.mul_assoc, Nat.mul_comm den]
    _ ≤ num := h1

/-- The significand of a rounded quotient: at most 2^24, and at least 2^23 above the lowest binade. -/
theorem significand_bounds (num : Nat) {den : Nat} (hd : 0 < den) :
    roundHalfEven num (den * 2 ^ binade num den) ≤ 2 ^ 24 ∧
      (binade num den = 0 ∨ 2 ^ 23 ≤ roundHalfEven num (den * 2 ^ binade num den)) := by
  have hd' : 0 < den * 2 ^ binade num den := Nat.mul_pos hd (Nat.two_pow_pos _)
  refine ⟨roundHalfEven_le hd' (num_lt_binade num hd).le, ?_⟩
  by_cases hk : binade num den = 0
  · exact .inl hk
  · exact .inr (le_roundHalfEven hd' (binade_le_num hd hk))

/-! ### Rounding to a bit pattern -/

theorem roundBits_le_inf (num den : Nat) : roundBits num den ≤ fpInfBits := Nat.min_le_right _ _

/-- A quotient at or below a binary32 size rounds to at most that size. -/
theorem roundBits_le {num den n : Nat} (hd : 0 < den) (h : num ≤ fpUnits n * den) :
    roundBits num den ≤ n := by
  refine Nat.le_trans (Nat.min_le_left _ _) ?_
  obtain ⟨j, p, rfl, hp, hj⟩ := exists_binade n
  rw [fpUnits_binade j p hp.le hj] at h
  obtain ⟨hq, hk⟩ := significand_bounds num hd
  set k := binade num den with hkdef
  have hd' : 0 < den * 2 ^ k := Nat.mul_pos hd (Nat.two_pow_pos _)
  rcases Nat.lt_trichotomy j k with hjk | rfl | hjk
  · exfalso
    have h1 := binade_le_num (num := num) hd (by omega)
    rw [← hkdef] at h1
    have h2 : p * 2 ^ j < 2 ^ 23 * 2 ^ k := by
      calc p * 2 ^ j < 2 ^ 24 * 2 ^ j := Nat.mul_lt_mul_of_pos_right hp (Nat.two_pow_pos j)
        _ = 2 ^ 23 * 2 ^ (j + 1) := by rw [Nat.pow_succ]; omega
        _ ≤ 2 ^ 23 * 2 ^ k := Nat.mul_le_mul_left _ (Nat.pow_le_pow_right (by decide) hjk)
    have h3 : p * 2 ^ j * den < 2 ^ 23 * 2 ^ k * den := Nat.mul_lt_mul_of_pos_right h2 hd
    have h4 : 2 ^ 23 * (den * 2 ^ k) = 2 ^ 23 * 2 ^ k * den := by
      rw [Nat.mul_assoc, Nat.mul_comm den]
    omega
  · have : roundHalfEven num (den * 2 ^ k) ≤ p :=
      roundHalfEven_le hd' (by rwa [Nat.mul_comm den, ← Nat.mul_assoc])
    omega
  · have : k * 2 ^ 23 + 2 ^ 24 ≤ j * 2 ^ 23 + p := by omega
    omega

/-- A quotient at or above a binary32 size rounds to at least that size. -/
theorem le_roundBits {num den n : Nat} (hd : 0 < den) (hn : n ≤ fpInfBits)
    (h : fpUnits n * den ≤ num) : n ≤ roundBits num den := by
  refine Nat.le_min.2 ⟨?_, hn⟩
  obtain ⟨j, p, rfl, hp, hj⟩ := exists_binade n
  rw [fpUnits_binade j p hp.le hj] at h
  obtain ⟨hq, hk⟩ := significand_bounds num hd
  set k := binade num den with hkdef
  have hd' : 0 < den * 2 ^ k := Nat.mul_pos hd (Nat.two_pow_pos _)
  rcases Nat.lt_trichotomy j k with hjk | rfl | hjk
  · have : j * 2 ^ 23 + p < k * 2 ^ 23 + 2 ^ 23 := by omega
    omega
  · have : p ≤ roundHalfEven num (den * 2 ^ k) :=
      le_roundHalfEven hd' (by rwa [Nat.mul_comm den, ← Nat.mul_assoc])
    omega
  · exfalso
    have h1 := num_lt_binade num hd
    rw [← hkdef] at h1
    have h2 : 2 ^ 24 * 2 ^ k ≤ p * 2 ^ j := by
      calc 2 ^ 24 * 2 ^ k = 2 ^ 23 * 2 ^ (k + 1) := by rw [Nat.pow_succ]; omega
        _ ≤ 2 ^ 23 * 2 ^ j := Nat.mul_le_mul_left _ (Nat.pow_le_pow_right (by decide) hjk)
        _ ≤ p * 2 ^ j := Nat.mul_le_mul_right _ (by omega)
    have h3 : 2 ^ 24 * 2 ^ k * den ≤ p * 2 ^ j * den := Nat.mul_le_mul_right _ h2
    have h4 : 2 ^ 24 * (den * 2 ^ k) = 2 ^ 24 * 2 ^ k * den := by
      rw [Nat.mul_assoc, Nat.mul_comm den]
    omega

/-- Rounding is exact on binary32 sizes. -/
theorem roundBits_exact {num den n : Nat} (hd : 0 < den) (hn : n ≤ fpInfBits)
    (h : num = fpUnits n * den) : roundBits num den = n :=
  Nat.le_antisymm (roundBits_le hd h.le) (le_roundBits hd hn h.ge)

/-! ### Sign, bits and class of the words the operations make -/

theorem fpPack_toNat (sign : Bool) {n : Nat} (h : n < 2 ^ 31) :
    (fpPack sign n).toNat = (if sign then 2 ^ 31 else 0) + n := by
  unfold fpPack
  rw [BitVec.toNat_ofNat]
  split <;> omega

@[simp] theorem fpBits_pack (sign : Bool) {n : Nat} (h : n < 2 ^ 31) : fpBits (fpPack sign n) = n := by
  unfold fpBits
  rw [fpPack_toNat sign h]
  split <;> omega

theorem fpSign_eq (a : F32) : fpSign a = decide (2 ^ 31 ≤ a.toNat) := by
  unfold fpSign
  rw [BitVec.msb_eq_decide]

@[simp] theorem fpSign_pack (sign : Bool) {n : Nat} (h : n < 2 ^ 31) : fpSign (fpPack sign n) = sign := by
  rw [fpSign_eq, fpPack_toNat sign h]
  cases sign
  · rw [decide_eq_false]
    simp only [Bool.false_eq_true, if_false]
    omega
  · rw [decide_eq_true]
    simp only [if_true]
    omega

theorem fpBits_lt (a : F32) : fpBits a < 2 ^ 31 := Nat.mod_lt _ (by decide)

/-- A word is its sign and its bits 30:0. -/
theorem fpPack_sign_bits (a : F32) : fpPack (fpSign a) (fpBits a) = a := by
  apply BitVec.eq_of_toNat_eq
  rw [fpPack_toNat _ (fpBits_lt a), fpSign_eq]
  have := a.isLt
  unfold fpBits
  by_cases h : 2 ^ 31 ≤ a.toNat
  · rw [decide_eq_true h, if_pos rfl]; omega
  · rw [decide_eq_false h, if_neg (by decide)]; omega

theorem roundBits_lt (num den : Nat) : roundBits num den < 2 ^ 31 :=
  Nat.lt_of_le_of_lt (roundBits_le_inf num den) (by decide)

@[simp] theorem fpBits_round (sign : Bool) (num den : Nat) :
    fpBits (fpRound sign num den) = roundBits num den := fpBits_pack sign (roundBits_lt num den)

@[simp] theorem fpSign_round (sign : Bool) (num den : Nat) : fpSign (fpRound sign num den) = sign :=
  fpSign_pack sign (roundBits_lt num den)

@[simp] theorem fpIsNaN_round (sign : Bool) (num den : Nat) : fpIsNaN (fpRound sign num den) = false := by
  unfold fpIsNaN
  rw [fpBits_round, decide_eq_false]
  exact Nat.not_lt.2 (roundBits_le_inf num den)

@[simp] theorem fpBits_neg (a : F32) : fpBits (fpNeg a) = fpBits a := fpBits_pack _ (fpBits_lt a)

@[simp] theorem fpSign_neg (a : F32) : fpSign (fpNeg a) = !fpSign a := fpSign_pack _ (fpBits_lt a)

@[simp] theorem fpIsNaN_neg (a : F32) : fpIsNaN (fpNeg a) = fpIsNaN a := by
  unfold fpIsNaN
  rw [fpBits_neg]

@[simp] theorem fpIsFinite_neg (a : F32) : fpIsFinite (fpNeg a) = fpIsFinite a := by
  unfold fpIsFinite
  rw [fpBits_neg]

@[simp] theorem fpValue_neg (a : F32) : fpValue (fpNeg a) = -fpValue a := by
  unfold fpValue fpMag
  rw [fpBits_neg, fpSign_neg]
  cases fpSign a <;> simp

@[simp] theorem fpBits_abs (a : F32) : fpBits (fpAbs a) = fpBits a := fpBits_pack _ (fpBits_lt a)

@[simp] theorem fpSign_abs (a : F32) : fpSign (fpAbs a) = false := fpSign_pack _ (fpBits_lt a)

theorem fpIsNaN_of_finite {a : F32} (h : fpIsFinite a = true) : fpIsNaN a = false := by
  unfold fpIsFinite at h
  unfold fpIsNaN
  rw [decide_eq_true_eq] at h
  rw [decide_eq_false]
  omega

theorem fpIsInf_of_finite {a : F32} (h : fpIsFinite a = true) : fpIsInf a = false := by
  unfold fpIsFinite at h
  unfold fpIsInf
  rw [decide_eq_true_eq] at h
  rw [decide_eq_false]
  omega

/-- A comparison of numbers that are not NaNs compares their values. -/
theorem fpLt_of_not_nan {a b : F32} (ha : fpIsNaN a = false) (hb : fpIsNaN b = false) :
    fpLt a b = decide (fpValue a < fpValue b) := by
  unfold fpLt
  rw [ha, hb]
  rfl

/-! ### The value of a rounded sum, product and quotient -/

/-- A whole number of units of 2^-149, rounded to a binary32 size. -/
def roundInt (s : Int) : Int :=
  if s < 0 then -(fpUnits (roundBits s.natAbs 1) : Int) else (fpUnits (roundBits s.natAbs 1) : Int)

theorem roundInt_zero : roundInt 0 = 0 := by decide

/-- Rounding does not pass a binary32 number from above. -/
theorem roundInt_le {s : Int} {c : F32} (hc : fpIsNaN c = false) (h : s ≤ fpValue c) :
    roundInt s ≤ fpValue c := by
  have hinf : fpBits c ≤ fpInfBits := by
    unfold fpIsNaN at hc
    exact Nat.not_lt.1 (of_decide_eq_false hc)
  unfold roundInt
  unfold fpValue fpMag at *
  by_cases hs : s < 0
  · rw [if_pos hs]
    by_cases hsg : fpSign c = true
    · rw [if_pos hsg] at h ⊢
      have : fpBits c ≤ roundBits s.natAbs 1 := le_roundBits Nat.one_pos hinf (by omega)
      have := fpUnits_le_iff.2 this
      omega
    · rw [if_neg hsg]
      omega
  · rw [if_neg hs]
    by_cases hsg : fpSign c = true
    · rw [if_pos hsg] at h ⊢
      have : roundBits s.natAbs 1 ≤ 0 := roundBits_le Nat.one_pos (by rw [fpUnits_zero]; omega)
      have h0 : roundBits s.natAbs 1 = 0 := by omega
      rw [h0, fpUnits_zero]
      omega
    · rw [if_neg hsg] at h ⊢
      have : roundBits s.natAbs 1 ≤ fpBits c := roundBits_le Nat.one_pos (by omega)
      have := fpUnits_le_iff.2 this
      omega

theorem roundInt_neg (s : Int) : roundInt (-s) = -roundInt s := by
  unfold roundInt
  rw [Int.natAbs_neg]
  rcases Int.lt_trichotomy s 0 with h | rfl | h
  · rw [if_neg (by omega), if_pos h, Int.neg_neg]
  · decide
  · rw [if_pos (by omega), if_neg (by omega)]

/-- Rounding does not pass a binary32 number from below. -/
theorem le_roundInt {s : Int} {c : F32} (hc : fpIsNaN c = false) (h : fpValue c ≤ s) :
    fpValue c ≤ roundInt s := by
  have h1 := roundInt_le (s := -s) (c := fpNeg c) (by rw [fpIsNaN_neg, hc]) (by rw [fpValue_neg]; omega)
  rw [fpValue_neg, roundInt_neg] at h1
  omega

theorem fpValue_round (sign : Bool) (num den : Nat) :
    fpValue (fpRound sign num den) =
      if sign then -(fpUnits (roundBits num den) : Int) else (fpUnits (roundBits num den) : Int) := by
  unfold fpValue fpMag
  rw [fpBits_round, fpSign_round]

theorem fpAdd_finite {a b : F32} (ha : fpIsFinite a = true) (hb : fpIsFinite b = true) :
    fpAdd a b = fpAddFinite a b := by
  unfold fpAdd
  rw [fpIsNaN_of_finite ha, fpIsNaN_of_finite hb, fpIsInf_of_finite ha, fpIsInf_of_finite hb]
  simp only [Bool.or_self, Bool.false_eq_true, if_false]

/-- The sum of two finite numbers: the exact sum, rounded. -/
theorem fpValue_add {a b : F32} (ha : fpIsFinite a = true) (hb : fpIsFinite b = true) :
    fpValue (fpAdd a b) = roundInt (fpValue a + fpValue b) := by
  rw [fpAdd_finite ha hb]
  unfold fpAddFinite
  simp only
  split
  · rename_i h
    rw [h, roundInt_zero]
    unfold fpZero fpValue fpMag
    rw [fpBits_pack _ (by decide), fpUnits_zero]
    split <;> rfl
  · rw [fpValue_round]
    unfold roundInt
    simp only [decide_eq_true_eq]

theorem fpIsNaN_add {a b : F32} (ha : fpIsFinite a = true) (hb : fpIsFinite b = true) :
    fpIsNaN (fpAdd a b) = false := by
  rw [fpAdd_finite ha hb]
  unfold fpAddFinite
  simp only
  split
  · unfold fpZero fpIsNaN
    rw [fpBits_pack _ (by decide)]
    decide
  · exact fpIsNaN_round _ _ _

/-- The difference of two finite numbers: the exact difference, rounded. -/
theorem fpValue_sub {a b : F32} (ha : fpIsFinite a = true) (hb : fpIsFinite b = true) :
    fpValue (fpSub a b) = roundInt (fpValue a - fpValue b) := by
  unfold fpSub
  rw [fpValue_add ha (by rw [fpIsFinite_neg, hb]), fpValue_neg]
  rfl

theorem fpIsNaN_sub {a b : F32} (ha : fpIsFinite a = true) (hb : fpIsFinite b = true) :
    fpIsNaN (fpSub a b) = false := fpIsNaN_add ha (by rw [fpIsFinite_neg, hb])

/-- The product of two finite numbers: the exact product, rounded. -/
theorem fpMul_finite {a b : F32} (ha : fpIsFinite a = true) (hb : fpIsFinite b = true) :
    fpMul a b = fpRound (fpSign a != fpSign b) (fpMag a * fpMag b) (2 ^ 149) := by
  unfold fpMul
  rw [fpIsNaN_of_finite ha, fpIsNaN_of_finite hb, fpIsInf_of_finite ha, fpIsInf_of_finite hb]
  simp only [Bool.or_self, Bool.false_eq_true, if_false]

/-- The quotient of two finite numbers, the second not zero: the exact quotient, rounded. -/
theorem fpDiv_finite {a b : F32} (ha : fpIsFinite a = true) (hb : fpIsFinite b = true)
    (h0 : fpMag b ≠ 0) :
    fpDiv a b = fpRound (fpSign a != fpSign b) (fpMag a * 2 ^ 149) (fpMag b) := by
  unfold fpDiv
  rw [fpIsNaN_of_finite ha, fpIsNaN_of_finite hb, fpIsInf_of_finite ha, fpIsInf_of_finite hb]
  simp only [Bool.or_self, Bool.false_eq_true, if_false]
  rw [if_neg h0]

/-! ### The configuration functions keep the properties of 00_scope.md R10 -/

theorem sinAllows_fallback (a : F32) : sinAllows a (sinFallback a) = true := by
  unfold sinAllows sinFallback
  cases h : fpIsFinite a
  · simp only [Bool.not_false, Bool.false_eq_true, if_false, if_true]
    decide
  · simp only [Bool.not_true, Bool.false_eq_true, if_false, if_true]
    by_cases hz : a = 0#32
    · subst hz
      decide
    · cases hn : upToPi a && !fpLt a fpMinNormal
      · simp only [Bool.false_eq_true, if_false, decide_eq_true hz, Bool.not_false, Bool.true_or]
        rw [show inUnitRange 0#32 = true from by decide, show fpLt 0#32 0#32 = false from by decide]
        simp
      · simp only [if_true, decide_eq_true hz, Bool.not_true, Bool.false_or, Bool.true_or]
        rw [show inUnitRange fpOne = true from by decide, show fpLt fpOne 0#32 = false from by decide,
          show fpGt fpOne 0#32 = true from by decide]
        simp

/-- `fsin` meets `P_SIN_ZERO`, `P_TRIG_RANGE`, `P_TRIG_NONFINITE` and `P_SIN_POS`. -/
theorem sinAllows_fpSin (a : F32) : sinAllows a (fpSin a) = true := by
  unfold fpSin
  split
  · rename_i h
    subst h
    decide
  · split
    · assumption
    · exact sinAllows_fallback a

/-- `fcos` meets `P_SIN_ZERO`, `P_TRIG_RANGE` and `P_TRIG_NONFINITE`. -/
theorem cosAllows_fpCos (a : F32) : cosAllows a (fpCos a) = true := by
  unfold fpCos
  split
  · rename_i h
    subst h
    decide
  · split
    · assumption
    · unfold cosAllows cosFallback
      cases h : fpIsFinite a
      · simp only [Bool.false_eq_true, if_false]
        decide
      · simp only [if_true, decide_true, Bool.or_true, Bool.and_true]
        decide

end Sys2Proof.Machine
end

