-- ==== Sys2Proof/Laws/Memory.lean ====
section
/-! SUPPORT. The laws of the sample memory: a read after a write, everywhere else unchanged, and the
canonical form kept by every operation. -/

namespace Sys2Proof.Machine

/-! ### Bytes -/

/-- An address below every listed one reads as unwritten. -/
theorem readByte_of_below {m : Memory} {a : Nat} (h : ∀ c ∈ m, a < c.1) : readByte m a = initialByte := by
  induction m with
  | nil => rfl
  | cons c m ih =>
    obtain ⟨k, b⟩ := c
    have hk : a < k := h (k, b) (by simp)
    rw [readByte, if_neg (by omega)]
    exact ih fun c hc => h c (List.mem_cons_of_mem _ hc)

theorem wf_cons {k : Nat} {b : Byte} {m : Memory} :
    Memory.wf ((k, b) :: m) = true ↔ b ≠ initialByte ∧ (∀ c ∈ m, k < c.1) ∧ m.wf = true := by
  simp [Memory.wf, and_assoc]

/-- A byte written reads back. -/
theorem readByte_writeByte_self {m : Memory} (hm : m.wf = true) (a : Nat) (b : Byte) :
    readByte (writeByte m a b) a = b := by
  induction m with
  | nil =>
    rw [writeByte]
    split
    · rename_i h; rw [h]; rfl
    · rw [readByte, if_pos rfl]
  | cons c m ih =>
    obtain ⟨k, v⟩ := c
    obtain ⟨-, hbelow, hwf⟩ := wf_cons.1 hm
    rw [writeByte]
    split
    · rename_i hlt
      split
      · rename_i h
        rw [h]
        refine readByte_of_below fun c hc => ?_
        rcases List.mem_cons.1 hc with rfl | hc
        · exact hlt
        · exact Nat.lt_trans hlt (hbelow c hc)
      · rw [readByte, if_pos rfl]
    · split
      · rename_i heq
        split
        · rename_i h
          rw [h, heq]
          exact readByte_of_below hbelow
        · rw [readByte, if_pos rfl]
      · rename_i hne
        rw [readByte, if_neg (by omega)]
        exact ih hwf

/-- Every other byte is as before. -/
theorem readByte_writeByte_of_ne (m : Memory) {a x : Nat} (b : Byte) (h : x ≠ a) :
    readByte (writeByte m a b) x = readByte m x := by
  induction m with
  | nil =>
    rw [writeByte]
    split
    · rfl
    · rw [readByte, readByte, if_neg (Ne.symm h)]
      rfl
  | cons c m ih =>
    obtain ⟨k, v⟩ := c
    rw [writeByte]
    split
    · split
      · rfl
      · rw [readByte, if_neg (Ne.symm h)]
    · split
      · rename_i heq
        subst heq
        split
        · rw [readByte, if_neg (Ne.symm h)]
        · rw [readByte, if_neg (Ne.symm h), readByte, if_neg (Ne.symm h)]
      · rw [readByte, readByte, ih]

/-- A byte listed after a write was listed before it or is the one written. -/
theorem mem_writeByte {m : Memory} {a : Nat} {b : Byte} {c : Host.Cell} (h : c ∈ writeByte m a b) :
    c = (a, b) ∨ c ∈ m := by
  induction m with
  | nil =>
    rw [writeByte] at h
    split at h
    · simp at h
    · simpa using h
  | cons d m ih =>
    obtain ⟨k, v⟩ := d
    rw [writeByte] at h
    split at h
    · split at h
      · exact .inr h
      · simpa using h
    · split at h
      · split at h
        · exact .inr (List.mem_cons_of_mem _ h)
        · rcases List.mem_cons.1 h with h | h
          · exact .inl h
          · exact .inr (List.mem_cons_of_mem _ h)
      · rcases List.mem_cons.1 h with h | h
        · exact .inr (by rw [h]; exact List.mem_cons_self)
        · rcases ih h with h | h
          · exact .inl h
          · exact .inr (List.mem_cons_of_mem _ h)

/-- A write keeps the canonical form. -/
theorem wf_writeByte {m : Memory} (hm : m.wf = true) (a : Nat) (b : Byte) :
    (writeByte m a b).wf = true := by
  induction m with
  | nil =>
    rw [writeByte]
    split
    · rfl
    · rename_i h
      exact wf_cons.2 ⟨h, by simp, rfl⟩
  | cons c m ih =>
    obtain ⟨k, v⟩ := c
    obtain ⟨hv, hbelow, hwf⟩ := wf_cons.1 hm
    rw [writeByte]
    split
    · rename_i hlt
      split
      · exact hm
      · rename_i hb
        refine wf_cons.2 ⟨hb, fun c hc => ?_, hm⟩
        rcases List.mem_cons.1 hc with rfl | hc
        · exact hlt
        · exact Nat.lt_trans hlt (hbelow c hc)
    · split
      · rename_i heq
        split
        · exact hwf
        · rename_i hb
          exact wf_cons.2 ⟨hb, by rw [heq]; exact hbelow, hwf⟩
      · rename_i hlt hne
        refine wf_cons.2 ⟨hv, fun c hc => ?_, ih hwf⟩
        rcases mem_writeByte hc with rfl | hc
        · omega
        · exact hbelow c hc

/-- A write below the end of the memory keeps every listed byte inside it. -/
theorem inside_writeByte {m : Memory} {words a : Nat} (hm : m.inside words = true) (b : Byte)
    (ha : a < 4 * words) : (writeByte m a b).inside words = true := by
  unfold Memory.inside at *
  rw [List.all_eq_true] at *
  intro c hc
  rcases mem_writeByte hc with rfl | hc
  · exact decide_eq_true ha
  · exact hm c hc

/-! ### Words -/

/-- A word is its four bytes, the first the least significant. -/
theorem word_of_bytes (v : Word) :
    v.extractLsb' 24 8 ++ v.extractLsb' 16 8 ++ v.extractLsb' 8 8 ++ v.extractLsb' 0 8 = v := by
  apply BitVec.eq_of_getLsbD_eq
  intro i hi
  simp only [BitVec.getLsbD_append, BitVec.getLsbD_extractLsb']
  rcases (by omega : i < 8 ∨ (8 ≤ i ∧ i < 16) ∨ (16 ≤ i ∧ i < 24) ∨ (24 ≤ i ∧ i < 32)) with h | h | h | h
  · simp [h]
  · simp [show ¬ i < 8 by omega, show i - 8 < 8 by omega, show 8 + (i - 8) = i by omega]
  · simp [show ¬ i < 8 by omega, show ¬ i - 8 < 8 by omega, show i - 8 - 8 < 8 by omega,
      show 16 + (i - 8 - 8) = i by omega]
  · simp [show ¬ i < 8 by omega, show ¬ i - 8 < 8 by omega, show ¬ i - 8 - 8 < 8 by omega,
      show i - 8 - 8 - 8 < 8 by omega, show 24 + (i - 8 - 8 - 8) = i by omega]

theorem wf_memWrite {m : Memory} (hm : m.wf = true) (a : Nat) (v : Word) :
    (memWrite m a v).wf = true := by
  unfold memWrite
  exact wf_writeByte (wf_writeByte (wf_writeByte (wf_writeByte hm _ _) _ _) _ _) _ _

theorem inside_memWrite {m : Memory} {words a : Nat} (hm : m.inside words = true) (v : Word)
    (ha : a < words) : (memWrite m a v).inside words = true := by
  unfold memWrite
  exact inside_writeByte (inside_writeByte (inside_writeByte (inside_writeByte hm _ (by omega)) _
    (by omega)) _ (by omega)) _ (by omega)

/-- A byte outside a word is unchanged by a write of the word. -/
theorem readByte_memWrite_of_outside (m : Memory) {a x : Nat} (v : Word)
    (h : x < 4 * a ∨ 4 * a + 4 ≤ x) : readByte (memWrite m a v) x = readByte m x := by
  unfold memWrite
  rw [readByte_writeByte_of_ne _ _ (by omega), readByte_writeByte_of_ne _ _ (by omega),
    readByte_writeByte_of_ne _ _ (by omega), readByte_writeByte_of_ne _ _ (by omega)]

/-- A word written reads back. -/
theorem memRead_memWrite_self {m : Memory} (hm : m.wf = true) (a : Nat) (v : Word) :
    memRead (memWrite m a v) a = v := by
  have h0 := wf_writeByte hm (4 * a) (v.extractLsb' 0 8)
  have h1 := wf_writeByte h0 (4 * a + 1) (v.extractLsb' 8 8)
  have h2 := wf_writeByte h1 (4 * a + 2) (v.extractLsb' 16 8)
  unfold memRead memWrite
  rw [readByte_writeByte_self h2,
    readByte_writeByte_of_ne _ _ (by omega), readByte_writeByte_self h1,
    readByte_writeByte_of_ne _ _ (by omega), readByte_writeByte_of_ne _ _ (by omega),
    readByte_writeByte_self h0,
    readByte_writeByte_of_ne _ _ (by omega), readByte_writeByte_of_ne _ _ (by omega),
    readByte_writeByte_of_ne _ _ (by omega), readByte_writeByte_self hm]
  exact word_of_bytes v

/-- Every other word is as before. -/
theorem memRead_memWrite_of_ne (m : Memory) {a x : Nat} (v : Word) (h : x ≠ a) :
    memRead (memWrite m a v) x = memRead m x := by
  unfold memRead
  rw [readByte_memWrite_of_outside _ _ (by omega), readByte_memWrite_of_outside _ _ (by omega),
    readByte_memWrite_of_outside _ _ (by omega), readByte_memWrite_of_outside _ _ (by omega)]

/-! ### The contents HRESET leaves -/

theorem wf_foldl_cells (words : Nat) (cells : List Host.Cell) (m : Memory) (hm : m.wf = true) :
    (cells.foldl (fun m c => if c.1 < 4 * words then writeByte m c.1 c.2 else m) m).wf = true := by
  induction cells generalizing m with
  | nil => exact hm
  | cons c cells ih =>
    rw [List.foldl_cons]
    refine ih _ ?_
    split
    · exact wf_writeByte hm _ _
    · exact hm

theorem wf_memOfCells (words : Nat) (cells : List Host.Cell) : (memOfCells words cells).wf = true :=
  wf_foldl_cells words cells [] rfl

theorem inside_foldl_cells (words : Nat) (cells : List Host.Cell) (m : Memory)
    (hm : m.inside words = true) :
    (cells.foldl (fun m c => if c.1 < 4 * words then writeByte m c.1 c.2 else m) m).inside words = true := by
  induction cells generalizing m with
  | nil => exact hm
  | cons c cells ih =>
    rw [List.foldl_cons]
    refine ih _ ?_
    split
    · exact inside_writeByte hm _ (by assumption)
    · exact hm

theorem inside_memOfCells (words : Nat) (cells : List Host.Cell) :
    (memOfCells words cells).inside words = true :=
  inside_foldl_cells words cells [] rfl

end Sys2Proof.Machine
end

