-- ==== Sys2Proof/Laws/State.lean ====
section
/-! SUPPORT. One lemma per field per update of the state, and what the unit banks hold after an update. -/

namespace Sys2Proof.Machine

/-! ### `setFilter` -/

@[simp] theorem setFilter_cfg (s : State) (u : Nat) (f : Option (FilterUnit F32)) : (s.setFilter u f).cfg = s.cfg := rfl
@[simp] theorem setFilter_filters (s : State) (u : Nat) (f : Option (FilterUnit F32)) : (s.setFilter u f).filters = s.filters.set u f := rfl
@[simp] theorem setFilter_oscs (s : State) (u : Nat) (f : Option (FilterUnit F32)) : (s.setFilter u f).oscs = s.oscs := rfl
@[simp] theorem setFilter_result (s : State) (u : Nat) (f : Option (FilterUnit F32)) : (s.setFilter u f).result = s.result := rfl
@[simp] theorem setFilter_diagClamp (s : State) (u : Nat) (f : Option (FilterUnit F32)) : (s.setFilter u f).diagClamp = s.diagClamp := rfl
@[simp] theorem setFilter_diagNoop (s : State) (u : Nat) (f : Option (FilterUnit F32)) : (s.setFilter u f).diagNoop = s.diagNoop := rfl
@[simp] theorem setFilter_mem (s : State) (u : Nat) (f : Option (FilterUnit F32)) : (s.setFilter u f).mem = s.mem := rfl
@[simp] theorem setFilter_host (s : State) (u : Nat) (f : Option (FilterUnit F32)) : (s.setFilter u f).host = s.host := rfl

/-! ### `setOsc` -/

@[simp] theorem setOsc_cfg (s : State) (u : Nat) (o : Option (OscUnit F32)) : (s.setOsc u o).cfg = s.cfg := rfl
@[simp] theorem setOsc_filters (s : State) (u : Nat) (o : Option (OscUnit F32)) : (s.setOsc u o).filters = s.filters := rfl
@[simp] theorem setOsc_oscs (s : State) (u : Nat) (o : Option (OscUnit F32)) : (s.setOsc u o).oscs = s.oscs.set u o := rfl
@[simp] theorem setOsc_result (s : State) (u : Nat) (o : Option (OscUnit F32)) : (s.setOsc u o).result = s.result := rfl
@[simp] theorem setOsc_diagClamp (s : State) (u : Nat) (o : Option (OscUnit F32)) : (s.setOsc u o).diagClamp = s.diagClamp := rfl
@[simp] theorem setOsc_diagNoop (s : State) (u : Nat) (o : Option (OscUnit F32)) : (s.setOsc u o).diagNoop = s.diagNoop := rfl
@[simp] theorem setOsc_mem (s : State) (u : Nat) (o : Option (OscUnit F32)) : (s.setOsc u o).mem = s.mem := rfl
@[simp] theorem setOsc_host (s : State) (u : Nat) (o : Option (OscUnit F32)) : (s.setOsc u o).host = s.host := rfl

/-! ### `setResult` -/

@[simp] theorem setResult_cfg (s : State) (v : Word) : (s.setResult v).cfg = s.cfg := rfl
@[simp] theorem setResult_filters (s : State) (v : Word) : (s.setResult v).filters = s.filters := rfl
@[simp] theorem setResult_oscs (s : State) (v : Word) : (s.setResult v).oscs = s.oscs := rfl
@[simp] theorem setResult_result (s : State) (v : Word) : (s.setResult v).result = v := rfl
@[simp] theorem setResult_diagClamp (s : State) (v : Word) : (s.setResult v).diagClamp = s.diagClamp := rfl
@[simp] theorem setResult_diagNoop (s : State) (v : Word) : (s.setResult v).diagNoop = s.diagNoop := rfl
@[simp] theorem setResult_mem (s : State) (v : Word) : (s.setResult v).mem = s.mem := rfl
@[simp] theorem setResult_host (s : State) (v : Word) : (s.setResult v).host = s.host := rfl

/-! ### `clampEvent` -/

@[simp] theorem clampEvent_cfg (s : State) : (clampEvent s).cfg = s.cfg := rfl
@[simp] theorem clampEvent_filters (s : State) : (clampEvent s).filters = s.filters := rfl
@[simp] theorem clampEvent_oscs (s : State) : (clampEvent s).oscs = s.oscs := rfl
@[simp] theorem clampEvent_result (s : State) : (clampEvent s).result = s.result := rfl
@[simp] theorem clampEvent_diagClamp (s : State) : (clampEvent s).diagClamp = satInc s.diagClamp := rfl
@[simp] theorem clampEvent_diagNoop (s : State) : (clampEvent s).diagNoop = s.diagNoop := rfl
@[simp] theorem clampEvent_mem (s : State) : (clampEvent s).mem = s.mem := rfl
@[simp] theorem clampEvent_host (s : State) : (clampEvent s).host = s.host := rfl

/-! ### `noopEvent` -/

@[simp] theorem noopEvent_cfg (s : State) : (noopEvent s).cfg = s.cfg := rfl
@[simp] theorem noopEvent_filters (s : State) : (noopEvent s).filters = s.filters := rfl
@[simp] theorem noopEvent_oscs (s : State) : (noopEvent s).oscs = s.oscs := rfl
@[simp] theorem noopEvent_result (s : State) : (noopEvent s).result = s.result := rfl
@[simp] theorem noopEvent_diagClamp (s : State) : (noopEvent s).diagClamp = s.diagClamp := rfl
@[simp] theorem noopEvent_diagNoop (s : State) : (noopEvent s).diagNoop = satInc s.diagNoop := rfl
@[simp] theorem noopEvent_mem (s : State) : (noopEvent s).mem = s.mem := rfl
@[simp] theorem noopEvent_host (s : State) : (noopEvent s).host = s.host := rfl

/-! ### The unit banks -/

/-- A live unit's index is below the number of units. -/
theorem filter_lt_of_live {s : State} {u : Nat} {f : FilterUnit F32} (h : s.filter? u = some f) :
    u < s.filters.length := by
  unfold State.filter? at h
  by_contra hle
  rw [List.getElem?_eq_none (Nat.not_lt.1 hle)] at h
  exact absurd h (by simp)

/-- The unit written is what the write says. -/
theorem filter?_setFilter_self {s : State} {u : Nat} (f : Option (FilterUnit F32))
    (h : u < s.filters.length) : (s.setFilter u f).filter? u = f := by
  unfold State.filter?
  rw [setFilter_filters, List.getElem?_set_self h]
  rfl

/-- Every other unit of the bank is as before. -/
theorem filter?_setFilter_of_ne {s : State} {u v : Nat} (f : Option (FilterUnit F32)) (h : v ≠ u) :
    (s.setFilter u f).filter? v = s.filter? v := by
  unfold State.filter?
  rw [setFilter_filters, List.getElem?_set_ne (Ne.symm h)]

/-- A live unit's index is below the number of units. -/
theorem osc_lt_of_live {s : State} {u : Nat} {f : OscUnit F32} (h : s.osc? u = some f) :
    u < s.oscs.length := by
  unfold State.osc? at h
  by_contra hle
  rw [List.getElem?_eq_none (Nat.not_lt.1 hle)] at h
  exact absurd h (by simp)

/-- The unit written is what the write says. -/
theorem osc?_setOsc_self {s : State} {u : Nat} (f : Option (OscUnit F32))
    (h : u < s.oscs.length) : (s.setOsc u f).osc? u = f := by
  unfold State.osc?
  rw [setOsc_oscs, List.getElem?_set_self h]
  rfl

/-- Every other unit of the bank is as before. -/
theorem osc?_setOsc_of_ne {s : State} {u v : Nat} (f : Option (OscUnit F32)) (h : v ≠ u) :
    (s.setOsc u f).osc? v = s.osc? v := by
  unfold State.osc?
  rw [setOsc_oscs, List.getElem?_set_ne (Ne.symm h)]

@[simp] theorem osc?_setFilter (s : State) (u v : Nat) (f : Option (FilterUnit F32)) :
    (s.setFilter u f).osc? v = s.osc? v := rfl

@[simp] theorem filter?_setOsc (s : State) (u v : Nat) (o : Option (OscUnit F32)) :
    (s.setOsc u o).filter? v = s.filter? v := rfl

@[simp] theorem filter?_setResult (s : State) (v : Word) (u : Nat) :
    (s.setResult v).filter? u = s.filter? u := rfl

@[simp] theorem osc?_setResult (s : State) (v : Word) (u : Nat) : (s.setResult v).osc? u = s.osc? u := rfl

@[simp] theorem filter?_clampEvent (s : State) (u : Nat) : (clampEvent s).filter? u = s.filter? u := rfl

@[simp] theorem osc?_clampEvent (s : State) (u : Nat) : (clampEvent s).osc? u = s.osc? u := rfl

@[simp] theorem filter?_noopEvent (s : State) (u : Nat) : (noopEvent s).filter? u = s.filter? u := rfl

@[simp] theorem osc?_noopEvent (s : State) (u : Nat) : (noopEvent s).osc? u = s.osc? u := rfl

end Sys2Proof.Machine
end

