-- ==== Sys2Proof/Laws/Ops.lean ====
section
/-! SUPPORT. For each shared operation, once, everything it can do; and the inversion of a command that
answers a next state. -/

namespace Sys2Proof.Machine

/-! ### The shared operations -/

@[simp] theorem noop_eq (c : NoopCause) (s : State) : noop c s = .next (noopEvent s) := rfl

/-- The counter rises by one and stays at its greatest value (10_state.md R35). -/
theorem satInc_toNat (c : Word) : (satInc c).toNat = min (c.toNat + 1) (2 ^ 32 - 1) := by
  unfold satInc
  split
  · rename_i h; rw [h]; decide
  · rename_i h
    have h1 : c.toNat ≠ 2 ^ 32 - 1 := fun h2 => h (BitVec.eq_of_toNat_eq (by rw [h2]; rfl))
    have h2 := c.isLt
    rw [BitVec.toNat_add, show (1#32).toNat = 1 from rfl, Nat.mod_eq_of_lt (by omega)]
    omega

theorem onFilter_of_live {u : Nat} {s : State} {f : FilterUnit F32} (k : FilterUnit F32 → Answer)
    (h : s.filter? u = some f) : onFilter u s k = k f := by
  unfold onFilter; rw [h]

theorem onFilter_of_dead {u : Nat} {s : State} (k : FilterUnit F32 → Answer) (h : s.filter? u = none) :
    onFilter u s k = .next (noopEvent s) := by
  unfold onFilter; rw [h]; rfl

theorem onOsc_of_live {u : Nat} {s : State} {o : OscUnit F32} (k : OscUnit F32 → Answer)
    (h : s.osc? u = some o) : onOsc u s k = k o := by
  unfold onOsc; rw [h]

theorem onOsc_of_dead {u : Nat} {s : State} (k : OscUnit F32 → Answer) (h : s.osc? u = none) :
    onOsc u s k = .next (noopEvent s) := by
  unfold onOsc; rw [h]; rfl

/-- A setter's three outcomes: a NaN is a NOOP event; a number in range is stored; a number outside is
clamped, with a CLAMP event. -/
theorem setClamped_cases (v lo hi : F32) (s : State) (store : F32 → State → State) :
    (fpIsNaN v = true ∧ setClamped v lo hi s store = .next (noopEvent s)) ∨
    (fpIsNaN v = false ∧ outOfRange b32 v lo hi = false ∧
      setClamped v lo hi s store = .next (store (clamp b32 v lo hi) s)) ∨
    (fpIsNaN v = false ∧ outOfRange b32 v lo hi = true ∧
      setClamped v lo hi s store = .next (store (clamp b32 v lo hi) (clampEvent s))) := by
  unfold setClamped
  cases hn : fpIsNaN v
  · cases ho : outOfRange b32 v lo hi
    · exact .inr (.inl ⟨rfl, rfl, by simp⟩)
    · exact .inr (.inr ⟨rfl, rfl, by simp⟩)
  · exact .inl ⟨rfl, by simp⟩

/-- The buffer tests' three outcomes. -/
theorem onBuffer_cases (ptr count : Word) (s : State) (k : Answer) :
    (emptyBuffer ptr count = true ∧ onBuffer ptr count s k = .next (noopEvent s)) ∨
    (emptyBuffer ptr count = false ∧ bufferInside s.cfg ptr count = true ∧
      onBuffer ptr count s k = k) ∨
    (emptyBuffer ptr count = false ∧ bufferInside s.cfg ptr count = false ∧
      onBuffer ptr count s k = .refused .bufferOutsideMemory) := by
  unfold onBuffer
  cases emptyBuffer ptr count
  · cases bufferInside s.cfg ptr count
    · exact .inr (.inr ⟨rfl, rfl, by simp⟩)
    · exact .inr (.inl ⟨rfl, rfl, by simp⟩)
  · exact .inl ⟨rfl, by simp⟩

theorem peekResult_some (s : State) (v : Word) : peekResult s (some v) = .next (s.setResult v) := rfl

theorem peekResult_none (s : State) : peekResult s none = .next (noopEvent s) := rfl

/-! ### The sample loops -/

/-- The filter's loop writes its buffer and no other byte. -/
theorem filterLoop_outside (n a : Nat) (f : FilterUnit F32) (m : Memory) {x : Nat}
    (h : x < 4 * a ∨ 4 * (a + n) ≤ x) : readByte (filterLoop n a f m).2 x = readByte m x := by
  induction n generalizing a f m with
  | zero => rfl
  | succ n ih =>
    rw [filterLoop, ih _ _ _ (by omega), readByte_memWrite_of_outside _ _ (by omega)]

theorem filterLoop_wf (n a : Nat) (f : FilterUnit F32) {m : Memory} (hm : m.wf = true) :
    (filterLoop n a f m).2.wf = true := by
  induction n generalizing a f m with
  | zero => exact hm
  | succ n ih => rw [filterLoop]; exact ih _ _ (wf_memWrite hm _ _)

theorem filterLoop_inside (n a : Nat) (f : FilterUnit F32) {m : Memory} {words : Nat}
    (hm : m.inside words = true) (h : a + n ≤ words) :
    (filterLoop n a f m).2.inside words = true := by
  induction n generalizing a f m with
  | zero => exact hm
  | succ n ih => rw [filterLoop]; exact ih _ _ (inside_memWrite hm _ (by omega)) (by omega)

/-- The filter's loop writes the delay line and no other register. -/
theorem filterLoop_unit (n a : Nat) (f : FilterUnit F32) (m : Memory) :
    ∃ x1 x2 y1 y2, (filterLoop n a f m).1 = { f with x1 := x1, x2 := x2, y1 := y1, y2 := y2 } := by
  induction n generalizing a f m with
  | zero => exact ⟨f.x1, f.x2, f.y1, f.y2, rfl⟩
  | succ n ih =>
    obtain ⟨x1, x2, y1, y2, h⟩ :=
      ih (a + 1) (biquadStep b32 f (memRead m a)).2 (memWrite m a (biquadStep b32 f (memRead m a)).1)
    exact ⟨x1, x2, y1, y2, by rw [filterLoop, h]; rfl⟩

/-- The oscillator's loop writes its buffer and no other byte. -/
theorem oscLoop_outside (cfg : Config F32) (n a : Nat) (o : OscUnit F32) (m : Memory) {x : Nat}
    (h : x < 4 * a ∨ 4 * (a + n) ≤ x) : readByte (oscLoop cfg n a o m).2 x = readByte m x := by
  induction n generalizing a o m with
  | zero => rfl
  | succ n ih =>
    rw [oscLoop, ih _ _ _ (by omega), readByte_memWrite_of_outside _ _ (by omega)]

theorem oscLoop_wf (cfg : Config F32) (n a : Nat) (o : OscUnit F32) {m : Memory} (hm : m.wf = true) :
    (oscLoop cfg n a o m).2.wf = true := by
  induction n generalizing a o m with
  | zero => exact hm
  | succ n ih => rw [oscLoop]; exact ih _ _ (wf_memWrite hm _ _)

theorem oscLoop_inside (cfg : Config F32) (n a : Nat) (o : OscUnit F32) {m : Memory} {words : Nat}
    (hm : m.inside words = true) (h : a + n ≤ words) :
    (oscLoop cfg n a o m).2.inside words = true := by
  induction n generalizing a o m with
  | zero => exact hm
  | succ n ih => rw [oscLoop]; exact ih _ _ (inside_memWrite hm _ (by omega)) (by omega)

/-- The oscillator's loop writes the phase and no other register: as many advances as samples. -/
theorem oscLoop_unit (cfg : Config F32) (n a : Nat) (o : OscUnit F32) (m : Memory) :
    (oscLoop cfg n a o m).1 = { o with phase := (fun p => phaseNext b32 p o.inc)^[n] o.phase } := by
  induction n generalizing a o m with
  | zero => rfl
  | succ n ih => rw [oscLoop, ih]; rfl

/-! ### One step -/

/-- The step of a host that presents a command word. -/
theorem step_command {s : State} {w : Command} {rest : List HostAction}
    (h : s.host = .command w :: rest) : step s = runWord w { s with host := rest } := by
  unfold step takeAction
  rw [h]
  rfl

/-- The step of a host that writes the sample memory. -/
theorem step_write {s : State} {a v : Word} {rest : List HostAction}
    (h : s.host = .write a v :: rest) : step s = hostWrite a v { s with host := rest } := by
  unfold step takeAction
  rw [h]
  rfl

/-- The step of a host that applies HRESET. -/
theorem step_hreset {s : State} {cells : List Host.Cell} {rest : List HostAction}
    (h : s.host = .hreset cells :: rest) : step s = .next (hreset cells { s with host := rest }) := by
  unfold step takeAction
  rw [h]
  rfl

/-- The step of a silent host. -/
theorem step_idle {s : State} (h : s.host = []) : step s = .next s := by
  unfold step takeAction
  rw [h]

/-! ### What a command that answers a next state has done -/

/-- The shapes of a command's effect: a NOOP event; an answer in `RESULT`; one filter unit written,
perhaps with a CLAMP event; one filter unit and memory; and the same for an oscillator unit. -/
theorem exec_next_cases {i : Instr} {s t : State} (h : exec i s = .next t) :
    t = noopEvent s ∨ (∃ v, t = s.setResult v) ∨
    (∃ u f, t = s.setFilter u f ∨ t = (clampEvent s).setFilter u f) ∨
    (∃ u o, t = s.setOsc u o ∨ t = (clampEvent s).setOsc u o) ∨
    (∃ u f m, t = { s.setFilter u f with mem := m }) ∨
    (∃ u o m, t = { s.setOsc u o with mem := m }) := by
  have hnoop : ∀ {t : State}, Host.Outcome.next (φ := Fault) (ρ := Refusal) (noopEvent s) = .next t →
      t = noopEvent s := fun h => (Host.Outcome.next.inj h).symm
  have hfilter : ∀ (u : Nat) (k : FilterUnit F32 → Answer), onFilter u s k = .next t →
      t = noopEvent s ∨ ∃ f, s.filter? u = some f ∧ k f = .next t := by
    intro u k hk
    cases hf : s.filter? u with
    | none => rw [onFilter_of_dead k hf] at hk; exact .inl (hnoop hk)
    | some f => rw [onFilter_of_live k hf] at hk; exact .inr ⟨f, rfl, hk⟩
  have hosc : ∀ (u : Nat) (k : OscUnit F32 → Answer), onOsc u s k = .next t →
      t = noopEvent s ∨ ∃ o, s.osc? u = some o ∧ k o = .next t := by
    intro u k hk
    cases hf : s.osc? u with
    | none => rw [onOsc_of_dead k hf] at hk; exact .inl (hnoop hk)
    | some f => rw [onOsc_of_live k hf] at hk; exact .inr ⟨f, rfl, hk⟩
  have hset : ∀ (v lo hi : F32) (store : F32 → State → State), setClamped v lo hi s store = .next t →
      t = noopEvent s ∨ t = store (clamp b32 v lo hi) s ∨ t = store (clamp b32 v lo hi) (clampEvent s) := by
    intro v lo hi store hk
    rcases setClamped_cases v lo hi s store with ⟨-, h'⟩ | ⟨-, -, h'⟩ | ⟨-, -, h'⟩ <;> rw [h'] at hk
    · exact .inl (hnoop hk)
    · exact .inr (.inl (Host.Outcome.next.inj hk).symm)
    · exact .inr (.inr (Host.Outcome.next.inj hk).symm)
  have hbuf : ∀ (p c : Word) (k : Answer), onBuffer p c s k = .next t → t = noopEvent s ∨ k = .next t := by
    intro p c k hk
    rcases onBuffer_cases p c s k with ⟨-, h'⟩ | ⟨-, -, h'⟩ | ⟨-, -, h'⟩ <;> rw [h'] at hk
    · exact .inl (hnoop hk)
    · exact .inr hk
    · exact nomatch hk
  have hpeek : ∀ o : Option Word, peekResult s o = .next t → t = noopEvent s ∨ ∃ v, t = s.setResult v := by
    intro o hk
    cases o with
    | none => exact .inl (hnoop hk)
    | some v => exact .inr ⟨v, (Host.Outcome.next.inj hk).symm⟩
  have hres : ∀ v : Word, Host.Outcome.next (φ := Fault) (ρ := Refusal) (s.setResult v) = .next t →
      ∃ v, t = s.setResult v := fun v h => ⟨v, (Host.Outcome.next.inj h).symm⟩
  have hF : ∀ u f, Host.Outcome.next (φ := Fault) (ρ := Refusal) (s.setFilter u f) = .next t →
      ∃ u f, t = s.setFilter u f ∨ t = (clampEvent s).setFilter u f :=
    fun u f h => ⟨u, f, .inl (Host.Outcome.next.inj h).symm⟩
  have hO : ∀ u o, Host.Outcome.next (φ := Fault) (ρ := Refusal) (s.setOsc u o) = .next t →
      ∃ u o, t = s.setOsc u o ∨ t = (clampEvent s).setOsc u o :=
    fun u o h => ⟨u, o, .inl (Host.Outcome.next.inj h).symm⟩
  cases i with
  | fCreate u sr =>
    simp only [exec, execFCreate] at h
    split at h
    · exact .inl (hnoop h)
    · split at h
      · exact .inr (.inr (.inl (hF _ _ h)))
      · exact .inl (hnoop h)
  | fDestroy u =>
    rcases hfilter _ _ h with h | ⟨f, -, h⟩
    · exact .inl h
    · exact .inr (.inr (.inl (hF _ _ h)))
  | fSetFreq u hz =>
    rcases hfilter _ _ h with h | ⟨f, -, h⟩
    · exact .inl h
    · rcases hset _ _ _ _ h with h | h | h
      · exact .inl h
      · exact .inr (.inr (.inl ⟨_, _, .inl h⟩))
      · exact .inr (.inr (.inl ⟨_, _, .inr h⟩))
  | fSetRes u r =>
    rcases hfilter _ _ h with h | ⟨f, -, h⟩
    · exact .inl h
    · rcases hset _ _ _ _ h with h | h | h
      · exact .inl h
      · exact .inr (.inr (.inl ⟨_, _, .inl h⟩))
      · exact .inr (.inr (.inl ⟨_, _, .inr h⟩))
  | fSetSmooth u rate =>
    rcases hfilter _ _ h with h | ⟨f, -, h⟩
    · exact .inl h
    · rcases hset _ _ _ _ h with h | h | h
      · exact .inl h
      · exact .inr (.inr (.inl ⟨_, _, .inl h⟩))
      · exact .inr (.inr (.inl ⟨_, _, .inr h⟩))
  | fProcess u ptr count =>
    rcases hfilter _ _ h with h | ⟨f, -, h⟩
    · exact .inl h
    · rcases hbuf _ _ _ h with h | h
      · exact .inl h
      · exact .inr (.inr (.inr (.inr (.inl ⟨_, _, _, (Host.Outcome.next.inj h).symm⟩))))
  | fReset u =>
    rcases hfilter _ _ h with h | ⟨f, -, h⟩
    · exact .inl h
    · exact .inr (.inr (.inl (hF _ _ h)))
  | fPeek u sel =>
    simp only [exec, execFPeek] at h
    split at h
    · exact .inr (.inl (hres _ h))
    · rcases hfilter _ _ h with h | ⟨f, -, h⟩
      · exact .inl h
      · rcases hpeek _ h with h | h
        · exact .inl h
        · exact .inr (.inl h)
  | oCreate u sr =>
    simp only [exec, execOCreate] at h
    split at h
    · exact .inl (hnoop h)
    · split at h
      · exact .inr (.inr (.inr (.inl (hO _ _ h))))
      · exact .inl (hnoop h)
  | oDestroy u =>
    rcases hosc _ _ h with h | ⟨f, -, h⟩
    · exact .inl h
    · exact .inr (.inr (.inr (.inl (hO _ _ h))))
  | oSetFreq u hz =>
    rcases hosc _ _ h with h | ⟨f, -, h⟩
    · exact .inl h
    · rcases hset _ _ _ _ h with h | h | h
      · exact .inl h
      · exact .inr (.inr (.inr (.inl ⟨_, _, .inl h⟩)))
      · exact .inr (.inr (.inr (.inl ⟨_, _, .inr h⟩)))
  | oSetAmp u amp =>
    rcases hosc _ _ h with h | ⟨f, -, h⟩
    · exact .inl h
    · rcases hset _ _ _ _ h with h | h | h
      · exact .inl h
      · exact .inr (.inr (.inr (.inl ⟨_, _, .inl h⟩)))
      · exact .inr (.inr (.inr (.inl ⟨_, _, .inr h⟩)))
  | oSetWave u code =>
    rcases hosc _ _ h with h | ⟨f, -, h⟩
    · exact .inl h
    · revert h
      cases waveOfCode code with
      | none => exact fun h => .inr (.inr (.inr (.inl ⟨_, _, .inr (Host.Outcome.next.inj h).symm⟩)))
      | some k => exact fun h => .inr (.inr (.inr (.inl (hO _ _ h))))
  | oProcess u ptr count =>
    rcases hosc _ _ h with h | ⟨f, -, h⟩
    · exact .inl h
    · rcases hbuf _ _ _ h with h | h
      · exact .inl h
      · exact .inr (.inr (.inr (.inr (.inr ⟨_, _, _, (Host.Outcome.next.inj h).symm⟩))))
  | oReset u =>
    rcases hosc _ _ h with h | ⟨f, -, h⟩
    · exact .inl h
    · exact .inr (.inr (.inr (.inl (hO _ _ h))))
  | oPeek u sel =>
    simp only [exec, execOPeek] at h
    split at h
    · exact .inr (.inl (hres _ h))
    · rcases hosc _ _ h with h | ⟨f, -, h⟩
      · exact .inl h
      · rcases hpeek _ h with h | h
        · exact .inl h
        · exact .inr (.inl h)
  | uClamp v lo hi => exact .inr (.inl (hres _ h))
  | uLerp a b t => exact .inr (.inl (hres _ h))
  | uDb2Lin db => exact .inr (.inl (hres _ h))
  | uLin2Db lin => exact .inr (.inl (hres _ h))
  | dPeek sel =>
    rcases hpeek _ h with h | h
    · exact .inl h
    · exact .inr (.inl h)

end Sys2Proof.Machine
end

