-- ==== Sys2Proof/Laws/PerInstr.lean ====
section
/-! SUPPORT. Said of every command as syntax: the word it encodes to is in its own row of the opcode map. -/

namespace Sys2Proof.Laws

/-- The fields of a packed word. -/
theorem packWord_fields (o : BitVec 8) (u : Nat) (a b c : Word) :
    opcField (packWord o u a b c) = o ∧ unitField (packWord o u a b c) = BitVec.ofNat 8 u ∧
      (packWord o u a b c).extractLsb' 96 16 = 0#16 ∧ slotA (packWord o u a b c) = a ∧
      slotB (packWord o u a b c) = b ∧ slotC (packWord o u a b c) = c := by
  unfold packWord opcField unitField slotA slotB slotC
  refine ⟨?_, ?_, ?_, ?_, ?_, ?_⟩ <;>
  · apply BitVec.eq_of_getLsbD_eq
    intro i hi
    simp only [BitVec.getLsbD_extractLsb', BitVec.getLsbD_append, hi, decide_true, Bool.true_and]
    grind

/-- The opcode field of a command's word has a row, and the row has the command's format. -/
def MatchesRow.Statement (i : Instr) : Prop :=
  ∃ r, findRow (opcField (encode i)) = some r ∧ r.format = formatOf i

/-- A packed word is found in the row of its opcode. -/
theorem findRow_packWord {o : BitVec 8} {r : OpcodeRow} (u : Nat) (a b c : Word)
    (h : findRow o = some r) : findRow (opcField (packWord o u a b c)) = some r := by
  rw [(packWord_fields o u a b c).1, h]

theorem MatchesRow.fCreate (u : Nat) (x : Word) : MatchesRow.Statement (.fCreate u x) :=
  ⟨_, findRow_packWord _ _ _ _ rfl, rfl⟩

theorem MatchesRow.fDestroy (u : Nat) : MatchesRow.Statement (.fDestroy u) :=
  ⟨_, findRow_packWord _ _ _ _ rfl, rfl⟩

theorem MatchesRow.fSetFreq (u : Nat) (x : Word) : MatchesRow.Statement (.fSetFreq u x) :=
  ⟨_, findRow_packWord _ _ _ _ rfl, rfl⟩

theorem MatchesRow.fSetRes (u : Nat) (x : Word) : MatchesRow.Statement (.fSetRes u x) :=
  ⟨_, findRow_packWord _ _ _ _ rfl, rfl⟩

theorem MatchesRow.fSetSmooth (u : Nat) (x : Word) : MatchesRow.Statement (.fSetSmooth u x) :=
  ⟨_, findRow_packWord _ _ _ _ rfl, rfl⟩

theorem MatchesRow.fProcess (u : Nat) (p : Word) (n : Word) : MatchesRow.Statement (.fProcess u p n) :=
  ⟨_, findRow_packWord _ _ _ _ rfl, rfl⟩

theorem MatchesRow.fReset (u : Nat) : MatchesRow.Statement (.fReset u) :=
  ⟨_, findRow_packWord _ _ _ _ rfl, rfl⟩

theorem MatchesRow.fPeek (u : Nat) (x : Word) : MatchesRow.Statement (.fPeek u x) :=
  ⟨_, findRow_packWord _ _ _ _ rfl, rfl⟩

theorem MatchesRow.oCreate (u : Nat) (x : Word) : MatchesRow.Statement (.oCreate u x) :=
  ⟨_, findRow_packWord _ _ _ _ rfl, rfl⟩

theorem MatchesRow.oDestroy (u : Nat) : MatchesRow.Statement (.oDestroy u) :=
  ⟨_, findRow_packWord _ _ _ _ rfl, rfl⟩

theorem MatchesRow.oSetFreq (u : Nat) (x : Word) : MatchesRow.Statement (.oSetFreq u x) :=
  ⟨_, findRow_packWord _ _ _ _ rfl, rfl⟩

theorem MatchesRow.oSetAmp (u : Nat) (x : Word) : MatchesRow.Statement (.oSetAmp u x) :=
  ⟨_, findRow_packWord _ _ _ _ rfl, rfl⟩

theorem MatchesRow.oSetWave (u : Nat) (x : Word) : MatchesRow.Statement (.oSetWave u x) :=
  ⟨_, findRow_packWord _ _ _ _ rfl, rfl⟩

theorem MatchesRow.oProcess (u : Nat) (p : Word) (n : Word) : MatchesRow.Statement (.oProcess u p n) :=
  ⟨_, findRow_packWord _ _ _ _ rfl, rfl⟩

theorem MatchesRow.oReset (u : Nat) : MatchesRow.Statement (.oReset u) :=
  ⟨_, findRow_packWord _ _ _ _ rfl, rfl⟩

theorem MatchesRow.oPeek (u : Nat) (x : Word) : MatchesRow.Statement (.oPeek u x) :=
  ⟨_, findRow_packWord _ _ _ _ rfl, rfl⟩

theorem MatchesRow.uClamp (a : Word) (b : Word) (c : Word) : MatchesRow.Statement (.uClamp a b c) :=
  ⟨_, findRow_packWord _ _ _ _ rfl, rfl⟩

theorem MatchesRow.uLerp (a : Word) (b : Word) (c : Word) : MatchesRow.Statement (.uLerp a b c) :=
  ⟨_, findRow_packWord _ _ _ _ rfl, rfl⟩

theorem MatchesRow.uDb2Lin (a : Word) : MatchesRow.Statement (.uDb2Lin a) :=
  ⟨_, findRow_packWord _ _ _ _ rfl, rfl⟩

theorem MatchesRow.uLin2Db (a : Word) : MatchesRow.Statement (.uLin2Db a) :=
  ⟨_, findRow_packWord _ _ _ _ rfl, rfl⟩

theorem MatchesRow.dPeek (a : Word) : MatchesRow.Statement (.dPeek a) :=
  ⟨_, findRow_packWord _ _ _ _ rfl, rfl⟩

end Sys2Proof.Laws
end

