-- ==== Sys2Proof/Laws/Signal.lean ====
section
/-! SUPPORT. The small lemmas of the internal functions: the operations of `b32` by name, what a filter
step, a block update and a sample stream leave in each register, and streams cut in two. -/

namespace Sys2Proof.Machine

/-! ### The operations of the hardware's record -/

@[simp] theorem b32_fadd (a b : F32) : b32.fadd a b = fpAdd a b := rfl
@[simp] theorem b32_fsub (a b : F32) : b32.fsub a b = fpSub a b := rfl
@[simp] theorem b32_fmul (a b : F32) : b32.fmul a b = fpMul a b := rfl
@[simp] theorem b32_fdiv (a b : F32) : b32.fdiv a b = fpDiv a b := rfl
@[simp] theorem b32_fabs (a : F32) : b32.fabs a = fpAbs a := rfl
@[simp] theorem b32_ffloor (a : F32) : b32.ffloor a = fpFloor a := rfl
@[simp] theorem b32_flt (a b : F32) : b32.flt a b = fpLt a b := rfl
@[simp] theorem b32_fgt (a b : F32) : b32.fgt a b = fpGt a b := rfl
@[simp] theorem b32_fisnan (a : F32) : b32.fisnan a = fpIsNaN a := rfl
@[simp] theorem b32_fisfinite (a : F32) : b32.fisfinite a = fpIsFinite a := rfl
@[simp] theorem b32_fsin (a : F32) : b32.fsin a = fpSin a := rfl
@[simp] theorem b32_fcos (a : F32) : b32.fcos a = fpCos a := rfl
@[simp] theorem b32_fpow10 (a : F32) : b32.fpow10 a = fpPow10 a := rfl
@[simp] theorem b32_flog10 (a : F32) : b32.flog10 a = fpLog10 a := rfl

/-! ### One filter step, one oscillator step -/

section
variable {F : Type} (N : Num F)

@[simp] theorem biquadStep_out (f : FilterUnit F) (x : F) : (biquadStep N f x).1 = biquadOut N f x := rfl

/-- The only registers a filter step writes are the four of the delay line (42_filter.md R140). -/
theorem biquadStep_unit (f : FilterUnit F) (x : F) :
    (biquadStep N f x).2 = { f with x1 := x, x2 := f.x1, y1 := biquadOut N f x, y2 := f.y1 } := rfl

@[simp] theorem oscStep_out (cfg : Config F) (o : OscUnit F) :
    (oscStep N cfg o).1 = N.fmul o.amp (waveOf N cfg o.wave o.phase) := rfl

/-- The only register an oscillator step writes is the phase (43_oscillator.md R175). -/
theorem oscStep_unit (cfg : Config F) (o : OscUnit F) :
    (oscStep N cfg o).2 = { o with phase := phaseNext N o.phase o.inc } := rfl

/-! ### The block update -/

/-- Everything the block update can do (42_filter.md R149): the current values advance, and the coefficients are
those of the advanced values or the old ones. -/
theorem blockUpdate_cases (cfg : Config F) (f : FilterUnit F) :
    ∃ f' : FilterUnit F, f' = { f with
        curFreq := smoothStep N f.curFreq f.tgtFreq f.smooth
        curRes := smoothStep N f.curRes f.tgtRes f.smooth } ∧
      (blockUpdate N cfg f = f' ∨
        blockUpdate N cfg f = f'.withCoefs (coef N cfg f'.curFreq f'.curRes f.sampleRate)) := by
  exact ⟨_, rfl, (ite_eq_or_eq _ _ _).symm⟩

/-- The block update does not touch the delay line (42_filter.md R149). -/
theorem blockUpdate_delay (cfg : Config F) (f : FilterUnit F) :
    (blockUpdate N cfg f).x1 = f.x1 ∧ (blockUpdate N cfg f).x2 = f.x2 ∧
      (blockUpdate N cfg f).y1 = f.y1 ∧ (blockUpdate N cfg f).y2 = f.y2 := by
  obtain ⟨_, rfl, h | h⟩ := blockUpdate_cases N cfg f <;> rw [h] <;> exact ⟨rfl, rfl, rfl, rfl⟩

/-! ### Streams -/

@[simp] theorem filterStream_nil (f : FilterUnit F) : filterStream N f [] = ([], f) := rfl

@[simp] theorem filterStream_cons (f : FilterUnit F) (x : F) (xs : List F) :
    filterStream N f (x :: xs) =
      (biquadOut N f x :: (filterStream N (biquadStep N f x).2 xs).1,
        (filterStream N (biquadStep N f x).2 xs).2) := rfl

@[simp] theorem filterStream_length (f : FilterUnit F) (xs : List F) :
    (filterStream N f xs).1.length = xs.length := by
  induction xs generalizing f with
  | nil => rfl
  | cons x xs ih => simp [ih]

/-- A stream in two parts: the second starts from the unit the first leaves. -/
theorem filterStream_append (f : FilterUnit F) (xs ys : List F) :
    filterStream N f (xs ++ ys) =
      ((filterStream N f xs).1 ++ (filterStream N (filterStream N f xs).2 ys).1,
        (filterStream N (filterStream N f xs).2 ys).2) := by
  induction xs generalizing f with
  | nil => rfl
  | cons x xs ih => simp [ih]

@[simp] theorem oscStream_length (cfg : Config F) (n : Nat) (o : OscUnit F) :
    (oscStream N cfg n o).1.length = n := by
  induction n generalizing o with
  | zero => rfl
  | succ n ih => simp [oscStream, ih]

end

/-! ### The sample loops, word by word -/

/-- The words from `a` on are those the memory had, if the one written lies below them. -/
theorem samplesFrom_memWrite_below (n : Nat) {a x : Nat} (v : Word) (m : Memory) (h : x < a) :
    samplesFrom (memWrite m x v) a n = samplesFrom m a n := by
  induction n generalizing a with
  | zero => rfl
  | succ n ih => rw [samplesFrom, samplesFrom, memRead_memWrite_of_ne _ _ (by omega), ih (by omega)]

/-- The filter's loop does not touch a word below its buffer. -/
theorem filterLoop_below (n : Nat) {a x : Nat} (f : FilterUnit F32) (m : Memory) (h : x < a) :
    memRead (filterLoop n a f m).2 x = memRead m x := by
  unfold memRead
  simp only [filterLoop_outside n a f m (x := 4 * x) (by omega),
    filterLoop_outside n a f m (x := 4 * x + 1) (by omega),
    filterLoop_outside n a f m (x := 4 * x + 2) (by omega),
    filterLoop_outside n a f m (x := 4 * x + 3) (by omega)]

/-- The oscillator's loop does not touch a word below its buffer. -/
theorem oscLoop_below (cfg : Config F32) (n : Nat) {a x : Nat} (o : OscUnit F32) (m : Memory) (h : x < a) :
    memRead (oscLoop cfg n a o m).2 x = memRead m x := by
  unfold memRead
  simp only [oscLoop_outside cfg n a o m (x := 4 * x) (by omega),
    oscLoop_outside cfg n a o m (x := 4 * x + 1) (by omega),
    oscLoop_outside cfg n a o m (x := 4 * x + 2) (by omega),
    oscLoop_outside cfg n a o m (x := 4 * x + 3) (by omega)]

end Sys2Proof.Machine
end

