-- ==== Sys2Proof/Tests/Slice0.lean ====
section
/-! SUPPORT. Tests: expected values are the vectors of 95_test_vectors.md (named V-… there) and the
examples of the rules; then a witness for every statement that has hypotheses. -/

namespace Sys2Proof.Tests

open Sys2Proof.Machine

-- One test at a time: elaborated side by side, so many kernel evaluations exhaust the threads.
set_option Elab.async false

/-- The filter unit of V-F-1. -/
def fUnit : FilterUnit F32 where
  sampleRate := 0x472C4400#32
  curFreq := 0x447A0000#32
  tgtFreq := 0x447A0000#32
  curRes := 0x3F333333#32
  tgtRes := 0x3F333333#32
  smooth := 0x3C23D70A#32
  b0 := 0x3BA47477#32
  b1 := 0x3C247477#32
  b2 := 0x3BA47477#32
  a1 := 0xBFFB079D#32
  a2 := 0x3F7B32DF#32
  x1 := 0#32
  x2 := 0#32
  y1 := 0#32
  y2 := 0#32

/-- The oscillator unit of V-O-1. -/
def oUnit : OscUnit F32 where
  sampleRate := 0x472C4400#32
  freq := 0x43DC8000#32
  amp := 0x3F800000#32
  wave := 0#2
  phase := 0#32
  inc := 0x3C23D70A#32

/-- The oscillator unit of program P1 before its step 5. -/
def sawUnit : OscUnit F32 :=
  { oUnit with sampleRate := 0x45FA0000#32, freq := 0x447A0000#32, amp := 0x3F000000#32, wave := 1#2,
               inc := 0x3E000000#32 }

/-- A state with both units live. -/
def live : State := { State.reset with filters := [some fUnit], oscs := [some oUnit] }

/-- The next state of an answer. -/
def nextOf : Answer → Option State
  | .next t => some t
  | .fault _ => none
  | .refused _ => none

/-- The refusal of an answer. -/
def refusalOf : Answer → Option Refusal
  | .next _ => none
  | .fault _ => none
  | .refused r => some r

/-- The state one step after a word is presented. -/
def after (s : State) (w : Nat) : Option State := nextOf (step (s.withFetchWord 128 w))

/-- A register of filter unit 0 after a word. -/
def filterAfter {α : Type} (s : State) (w : Nat) (g : FilterUnit F32 → α) : Option α :=
  (after s w).bind fun t => (t.filter? 0).map g

/-- A register of oscillator unit 0 after a word. -/
def oscAfter {α : Type} (s : State) (w : Nat) (g : OscUnit F32 → α) : Option α :=
  (after s w).bind fun t => (t.osc? 0).map g

/-- RESULT and the two counters after a word. -/
def globalsAfter (s : State) (w : Nat) : Option (Word × Word × Word) :=
  (after s w).map fun t => (t.result, t.diagClamp, t.diagNoop)

/-! ### Well-formedness: a unit index that does not fit its field is refused -/

theorem test_unit_too_large_filter :
    (Instr.fCreate 256 0#32).wellFormed = false ∧ (Instr.fDestroy 256).wellFormed = false ∧
      (Instr.fSetFreq 256 0#32).wellFormed = false ∧ (Instr.fSetRes 256 0#32).wellFormed = false ∧
      (Instr.fSetSmooth 256 0#32).wellFormed = false ∧
      (Instr.fProcess 256 0#32 0#32).wellFormed = false ∧ (Instr.fReset 256).wellFormed = false ∧
      (Instr.fPeek 256 0#32).wellFormed = false := by decide

theorem test_unit_too_large_osc :
    (Instr.oCreate 256 0#32).wellFormed = false ∧ (Instr.oDestroy 256).wellFormed = false ∧
      (Instr.oSetFreq 256 0#32).wellFormed = false ∧ (Instr.oSetAmp 256 0#32).wellFormed = false ∧
      (Instr.oSetWave 256 0#32).wellFormed = false ∧
      (Instr.oProcess 256 0#32 0#32).wellFormed = false ∧ (Instr.oReset 256).wellFormed = false ∧
      (Instr.oPeek 256 0#32).wellFormed = false := by decide

theorem test_null_handle_well_formed : (Instr.fPeek 255 15#32).wellFormed = true := by decide

/-! ### Decoding: a word of the spec for every command -/

/-- V-F-1. -/
theorem test_decode_fCreate :
    decodeTableWord 128 0x10000000472C44000000000000000000 = some (.fCreate 0 0x472C4400#32) := by decide

/-- V-F-23. -/
theorem test_decode_fDestroy :
    decodeTableWord 128 0x11FF0000000000000000000000000000 = some (.fDestroy 255) := by decide

/-- V-F-7. -/
theorem test_decode_fSetFreq :
    decodeTableWord 128 0x1200000044FA00000000000000000000 = some (.fSetFreq 0 0x44FA0000#32) := by decide

/-- V-F-11. -/
theorem test_decode_fSetRes :
    decodeTableWord 128 0x130000003F7D70A40000000000000000 = some (.fSetRes 0 0x3F7D70A4#32) := by decide

/-- V-F-14. -/
theorem test_decode_fSetSmooth :
    decodeTableWord 128 0x140000003F0000000000000000000000 = some (.fSetSmooth 0 0x3F000000#32) := by decide

/-- V-F-18. -/
theorem test_decode_fProcess :
    decodeTableWord 128 0x15030000000000200000000400000000 = some (.fProcess 3 32#32 4#32) := by decide

/-- 42_filter.md R147. -/
theorem test_decode_fReset :
    decodeTableWord 128 0x16000000000000000000000000000000 = some (.fReset 0) := by decide

/-- V-F-19. -/
theorem test_decode_fPeek :
    decodeTableWord 128 0x17FF00000000000F0000000000000000 = some (.fPeek 255 15#32) := by decide

/-- V-O-1. -/
theorem test_decode_oCreate :
    decodeTableWord 128 0x20000000472C44000000000000000000 = some (.oCreate 0 0x472C4400#32) := by decide

/-- `O_DESTROY 0`: opcode 0x21, every other field zero (43_oscillator.md R177). -/
theorem test_decode_oDestroy :
    decodeTableWord 128 0x21000000000000000000000000000000 = some (.oDestroy 0) := by decide

/-- V-O-3. -/
theorem test_decode_oSetFreq :
    decodeTableWord 128 0x2200000046EA60000000000000000000 = some (.oSetFreq 0 0x46EA6000#32) := by decide

/-- V-O-6. -/
theorem test_decode_oSetAmp :
    decodeTableWord 128 0x23000000BF0000000000000000000000 = some (.oSetAmp 0 0xBF000000#32) := by decide

/-- V-O-7. -/
theorem test_decode_oSetWave :
    decodeTableWord 128 0x24000000000000070000000000000000 = some (.oSetWave 0 7#32) := by decide

/-- 30_encoding.md R88. -/
theorem test_decode_oProcess :
    decodeTableWord 128 0x25010000000000100000000800000000 = some (.oProcess 1 16#32 8#32) := by decide

/-- 43_oscillator.md R182. -/
theorem test_decode_oReset :
    decodeTableWord 128 0x26000000000000000000000000000000 = some (.oReset 0) := by decide

/-- V-O-11. -/
theorem test_decode_oPeek :
    decodeTableWord 128 0x27000000000000050000000000000000 = some (.oPeek 0 5#32) := by decide

/-- V-UT-3. -/
theorem test_decode_uClamp :
    decodeTableWord 128 0x300000003FC00000000000003F7D70A4 =
      some (.uClamp 0x3FC00000#32 0#32 0x3F7D70A4#32) := by decide

/-- V-UT-8. -/
theorem test_decode_uLerp :
    decodeTableWord 128 0x31000000447A000044FA00003DCCCCCD =
      some (.uLerp 0x447A0000#32 0x44FA0000#32 0x3DCCCCCD#32) := by decide

/-- V-UT-14. -/
theorem test_decode_uDb2Lin :
    decodeTableWord 128 0x32000000C0C000000000000000000000 = some (.uDb2Lin 0xC0C00000#32) := by decide

/-- V-UT-22. -/
theorem test_decode_uLin2Db :
    decodeTableWord 128 0x330000003A83126F0000000000000000 = some (.uLin2Db 0x3A83126F#32) := by decide

/-- V-UT-26. -/
theorem test_decode_dPeek :
    decodeTableWord 128 0x34000000000000020000000000000000 = some (.dPeek 2#32) := by decide

/-- V-E-1 to V-E-7. -/
theorem test_illegal_words :
    decodeTableWord 128 0 = none ∧ decodeTableWord 128 (2 ^ 128 - 1) = none ∧
      decodeTableWord 128 0x18000000000000000000000000000000 = none ∧
      decodeTableWord 128 0x16000000000000000000000000000001 = none ∧
      decodeTableWord 128 0x16000001000000000000000000000000 = none ∧
      decodeTableWord 128 0x32010000000000000000000000000000 = none ∧
      decodeTableWord 128 0x120000007FC000000000000000000001 = none := by decide

/-- Opcode-table rows as assembler lines: V-F-1, V-F-6, V-UT-11, V-F-9, and selector and waveform names. -/
theorem test_assembler :
    assembleLine "F_CREATE 0, 44100.0".toList = some 0x10000000472C44000000000000000000#128 ∧
      assembleLine "F_CREATE 200, 44100.0".toList = some 0x10C80000472C44000000000000000000#128 ∧
      assembleLine "U_LERP 1e8, 1.0, 1.0".toList = some 0x310000004CBEBC203F8000003F800000#128 ∧
      assembleLine "F_SET_FREQ 0, -inf".toList = some 0x12000000FF8000000000000000000000#128 ∧
      assembleLine "O_PEEK 0, PHASE".toList = some 0x27000000000000040000000000000000#128 := by
  decide +kernel

/-! ### The arithmetic and the internal functions -/

/-- V-SM-1, V-SM-4, V-SM-8, V-SM-11. -/
theorem test_smoother :
    smoothStep b32 0x447A0000#32 0x44FA0000#32 0x3DCCCCCD#32 = 0x44898000#32 ∧
      smoothStep b32 0x44FA0000#32 0x447A0000#32 0x3DCCCCCD#32 = 0x44ED8000#32 ∧
      smoothStep b32 0x3F333333#32 0x3E4CCCCD#32 0x3C23D70A#32 = 0x3F31EB85#32 ∧
      smoothStep b32 0x41A00000#32 0x469B0A00#32 0x3F800000#32 = 0x469B0A00#32 := by decide +kernel

/-- V-W-4, V-W-5, V-W-7, the exact columns. -/
theorem test_waveforms :
    waveSaw b32 0x3EFFFFFF#32 = 0xB3800000#32 ∧ waveSquare b32 0x3EFFFFFF#32 = 0x3F800000#32 ∧
      waveTri b32 0x3EFFFFFF#32 = 0x3F7FFFFE#32 ∧ waveTri b32 0x3F000000#32 = 0x3F800000#32 ∧
      waveSquare b32 0x3F000000#32 = 0xBF800000#32 ∧ waveTri b32 0x3F7FFFFF#32 = 0xBF7FFFFC#32 := by
  decide +kernel

/-- V-PH-1 to V-PH-4. -/
theorem test_phase :
    phaseNext b32 0x3F600000#32 0x3E000000#32 = 0#32 ∧
      phaseNext b32 0x3F400000#32 0x3F000000#32 = 0x3E800000#32 ∧
      phaseNext b32 0x3F000000#32 0x40300000#32 = 0x3E800000#32 ∧
      phaseNext b32 0x3F7FFFFF#32 0x33800000#32 = 0#32 := by decide +kernel

/-- V-COEF-1, under a mapping that leaves no function open: `coef` from the sine and cosine it gives. -/
theorem test_coefficients :
    coefFrom b32 (alphaOf b32 .a 0x3F800000#32 0x3F333333#32) 0xB33BBD2E#32 =
      { b0 := 0x3EEFFFFF#32, b1 := 0x3F6FFFFF#32, b2 := 0x3EEFFFFF#32, a1 := 0x33B0015B#32,
        a2 := 0x3F5FFFFF#32 } ∧
    coefFrom b32 (alphaOf b32 .b 0x3F800000#32 0x3F333333#32) 0xB33BBD2E#32 =
      { b0 := 0x3E400001#32, b1 := 0x3EC00001#32, b2 := 0x3E400001#32, a1 := 0x330CCDE3#32,
        a2 := 0xBE800000#32 } := by decide +kernel

/-! ### One step of each command -/

/-- V-F-2: the default frequency clamped to the ceiling of a low rate, no event. -/
theorem test_fCreate_low_rate :
    filterAfter State.reset 0x1000000044FA00000000000000000000 (fun f => (f.curFreq, f.tgtFreq)) =
      some (0x44610000#32, 0x44610000#32) := by decide +kernel

/-- V-F-5, V-F-6: no-op for an infinite rate and for an index out of range. -/
theorem test_fCreate_refuses_rate_and_index :
    globalsAfter State.reset 0x100000007F8000000000000000000000 = some (0#32, 0#32, 1#32) ∧
      globalsAfter State.reset 0x10C80000472C44000000000000000000 = some (0#32, 0#32, 1#32) := by
  decide +kernel

/-- V-F-24. -/
theorem test_fDestroy :
    (after live 0x11000000000000000000000000000000).map (fun t => (t.filter? 0, t.diagNoop)) =
      some (none, 0#32) ∧
      globalsAfter State.reset 0x11000000000000000000000000000000 = some (0#32, 0#32, 1#32) := by
  decide +kernel

/-- S8: a target above the ceiling, with its CLAMP event; V-F-7: the current value does not move. -/
theorem test_fSetFreq :
    filterAfter live 0x1200000046EA60000000000000000000 (fun f => f.tgtFreq) = some 0x469B0A00#32 ∧
      globalsAfter live 0x1200000046EA60000000000000000000 = some (0#32, 1#32, 0#32) ∧
      filterAfter live 0x1200000044FA00000000000000000000 (fun f => f.curFreq) = some 0x447A0000#32 := by
  decide +kernel

/-- V-F-10: a NaN is a NOOP event and no CLAMP event. -/
theorem test_fSetFreq_nan :
    (after live 0x120000007FC000000000000000000000).map (fun t => (t.filter? 0, t.diagClamp, t.diagNoop)) =
      some (some fUnit, 0#32, 1#32) := by decide +kernel

/-- V-F-12 and V-F-13. -/
theorem test_fSetRes :
    filterAfter live 0x130000003F8000000000000000000000 (fun f => f.tgtRes) = some 0x3F7D70A4#32 ∧
      globalsAfter live 0x130000003F8000000000000000000000 = some (0#32, 1#32, 0#32) ∧
      filterAfter live 0x13000000800000000000000000000000 (fun f => f.tgtRes) = some 0x80000000#32 ∧
      globalsAfter live 0x13000000800000000000000000000000 = some (0#32, 0#32, 0#32) := by decide +kernel

/-- V-F-14 and V-F-15. -/
theorem test_fSetSmooth :
    filterAfter live 0x140000003F0000000000000000000000 (fun f => f.smooth) = some 0x3DCCCCCD#32 ∧
      filterAfter live 0x14000000BF8000000000000000000000 (fun f => f.smooth) = some 0#32 := by decide +kernel

/-- The three-tap average of 95_test_vectors.md: coefficients 0.25, 0.5, 0.25, 0, 0, input 1, 0, 0, 0. -/
def tapState : State :=
  { live with
    filters := [some { fUnit with b0 := 0x3E800000#32, b1 := 0x3F000000#32, b2 := 0x3E800000#32, a1 := 0#32,
                                  a2 := 0#32 }]
    mem := memWrite [] 16 0x3F800000#32 }

/-- The biquad step vector, through `F_PROCESS 0, 16, 4`. -/
theorem test_fProcess :
    (after tapState 0x15000000000000100000000400000000).map (fun t => samplesFrom t.mem 16 4) =
      some [0x3E800000#32, 0x3F000000#32, 0x3E800000#32, 0#32] := by decide +kernel

/-- V-BU-1: one smoothing step a command, whatever the sample count. -/
theorem test_fProcess_smooths_once :
    filterAfter { live with filters := [some { fUnit with tgtFreq := 0x44FA0000#32, smooth := 0x3DCCCCCD#32 }] }
      0x15000000000000200000000400000000 (fun f => f.curFreq) = some 0x44898000#32 := by decide +kernel

/-- P2 steps 4 to 6: the delay line cleared, the target kept. -/
theorem test_fReset :
    filterAfter { live with filters := [some { fUnit with y1 := 0x3F37BFFD#32, x1 := 0x7FC00000#32 }] }
      0x16000000000000000000000000000000 (fun f => f) = some fUnit := by decide +kernel

/-- V-F-19, V-F-20, V-F-22. -/
theorem test_fPeek :
    globalsAfter live 0x17FF00000000000F0000000000000000 = some (0#32, 0#32, 0#32) ∧
      globalsAfter live 0x170000000000000F0000000000000000 = some (1#32, 0#32, 0#32) ∧
      globalsAfter live 0x17000000000000000000000000000000 = some (0x472C4400#32, 0#32, 0#32) := by
  decide +kernel

/-- V-F-21. -/
theorem test_fPeek_undefined_selector :
    globalsAfter { live with result := 7#32 } 0x17000000000000100000000000000000 = some (7#32, 0#32, 1#32) := by
  decide +kernel

/-- V-O-1. -/
theorem test_oCreate :
    oscAfter State.reset 0x20000000472C44000000000000000000 (fun o => o) = some oUnit := by decide +kernel

/-- `O_DESTROY 0`, then unit 0 is not live; the filter unit stays. -/
theorem test_oDestroy :
    (after live 0x21000000000000000000000000000000).map (fun t => (t.osc? 0, (t.filter? 0).isSome)) =
      some (none, true) := by decide +kernel

/-- V-O-2 and V-O-3. -/
theorem test_oSetFreq :
    oscAfter live 0x2200000040A000000000000000000000 (fun o => (o.freq, o.inc)) =
      some (0x41A00000#32, 0x39EDC5B8#32) ∧
      oscAfter live 0x2200000046EA60000000000000000000 (fun o => (o.freq, o.inc)) =
        some (0x469C4000#32, 0x3EE83315#32) := by decide +kernel

/-- V-O-6 and V-O-13. -/
theorem test_oSetAmp :
    oscAfter live 0x23000000BF0000000000000000000000 (fun o => o.amp) = some 0#32 ∧
      globalsAfter State.reset 0x230000003F0000000000000000000000 = some (0#32, 0#32, 1#32) := by decide +kernel

/-- V-O-7 and V-O-8. -/
theorem test_oSetWave :
    oscAfter { live with oscs := [some sawUnit] } 0x24000000000000070000000000000000 (fun o => o.wave) =
      some 0#2 ∧
      globalsAfter live 0x24000000000000070000000000000000 = some (0#32, 1#32, 0#32) ∧
      oscAfter live 0x24000000000000030000000000000000 (fun o => o.wave) = some 3#2 := by decide +kernel

/-- P1 step 5. -/
theorem test_oProcess :
    (after { live with oscs := [some sawUnit] } 0x25000000000000100000000800000000).map
      (fun t => (samplesFrom t.mem 16 8, (t.osc? 0).map fun o => o.phase)) =
      some ([0xBF000000#32, 0xBEC00000#32, 0xBE800000#32, 0xBE000000#32, 0#32, 0x3E000000#32,
        0x3E800000#32, 0x3EC00000#32], some 0#32) := by decide +kernel

/-- V-O-9. -/
theorem test_oProcess_null :
    (after live 0x25000000000000000000000800000000).map (fun t => (t.osc? 0, t.diagNoop)) =
      some (some oUnit, 1#32) := by decide +kernel

/-- P1 step 13. -/
theorem test_oReset :
    oscAfter { live with oscs := [some { oUnit with phase := 0x3F000000#32 }] }
      0x26000000000000000000000000000000 (fun o => o) = some oUnit := by decide +kernel

/-- V-O-10 to V-O-12. -/
theorem test_oPeek :
    globalsAfter live 0x27000000000000050000000000000000 = some (0x3C23D70A#32, 0#32, 0#32) ∧
      globalsAfter live 0x27000000000000060000000000000000 = some (0#32, 0#32, 1#32) ∧
      globalsAfter { live with filters := [none] } 0x170000000000000F0000000000000000 =
        some (0#32, 0#32, 0#32) := by decide +kernel

/-- V-UT-2 to V-UT-5. -/
theorem test_uClamp :
    globalsAfter State.reset 0x30000000C0400000000000003F800000 = some (0#32, 0#32, 0#32) ∧
      globalsAfter State.reset 0x300000003FC00000000000003F7D70A4 = some (0x3F7D70A4#32, 0#32, 0#32) ∧
      globalsAfter State.reset 0x300000007FC00000000000003F800000 = some (0x7FC00000#32, 0#32, 0#32) ∧
      globalsAfter State.reset 0x300000003F0000003F80000000000000 = some (0#32, 0#32, 0#32) := by
  decide +kernel

/-- V-UT-6 to V-UT-11. -/
theorem test_uLerp :
    lerp b32 0#32 0x41200000#32 0x3E800000#32 = 0x40200000#32 ∧
      lerp b32 0x447A0000#32 0x44FA0000#32 0x3DCCCCCD#32 = 0x44898000#32 ∧
      lerp b32 0x3F800000#32 0x40400000#32 0xBF800000#32 = 0xBF800000#32 ∧
      lerp b32 0x4CBEBC20#32 0x3F800000#32 0x3F800000#32 = 0#32 := by decide +kernel

/-- V-UT-12, and the quotient of V-UT-14. -/
theorem test_uDb2Lin :
    globalsAfter State.reset 0x32000000000000000000000000000000 = some (0x3F800000#32, 0#32, 0#32) ∧
      fpDiv 0xC0C00000#32 0x41A00000#32 = 0xBE99999A#32 := by decide +kernel

/-- V-UT-18, and the floor of V-UT-23, V-UT-24 and a NaN. -/
theorem test_uLin2Db :
    globalsAfter State.reset 0x330000003F8000000000000000000000 = some (0#32, 0#32, 0#32) ∧
      floorEps b32 standardConfig 0#32 = 0x2B8CBCCC#32 ∧
      floorEps b32 standardConfig 0xBF800000#32 = 0x2B8CBCCC#32 ∧
      floorEps b32 standardConfig 0x7FC00000#32 = 0x2B8CBCCC#32 := by decide +kernel

/-- P3 steps 12 and 13, V-UT-26. -/
theorem test_dPeek :
    globalsAfter { live with diagClamp := 1#32, diagNoop := 3#32 } 0x34000000000000000000000000000000 =
      some (1#32, 1#32, 3#32) ∧
      globalsAfter { live with diagClamp := 1#32, diagNoop := 3#32 } 0x34000000000000010000000000000000 =
        some (3#32, 1#32, 3#32) ∧
      globalsAfter State.reset 0x34000000000000020000000000000000 = some (0#32, 0#32, 1#32) := by decide +kernel

/-- P4 step 7: an illegal word changes nothing but the counter; the counter saturates (10_state.md R35). -/
theorem test_illegal_word_is_counted :
    globalsAfter { live with result := 0xC0C0A8C2#32 } 0x32010000000000000000000000000000 =
      some (0xC0C0A8C2#32, 0#32, 1#32) ∧
      globalsAfter { live with diagNoop := 0xFFFFFFFF#32 } 0 = some (0#32, 0#32, 0xFFFFFFFF#32) := by
  decide +kernel

/-- A PROCESS whose buffer leaves the memory is refused (20_memory.md R67). -/
theorem test_outside_buffer :
    refusalOf (step (live.withFetchWord 128 0x1500000080000000FFFFFFFF00000000)) = some .bufferOutsideMemory := by
  decide +kernel

/-! ### The host -/

/-- The little-endian byte view of a host write (20_memory.md R62). -/
theorem test_host_write_little_endian :
    (nextOf (step { State.reset with host := [.write 16#32 0x11223344#32] })).map (fun t => t.mem) =
      some [(64, 0x44#8), (65, 0x33#8), (66, 0x22#8), (67, 0x11#8)] := by decide +kernel

/-- The host reads the last word of the memory and none beyond it (20_memory.md R74, assumption log 6). -/
theorem test_host_reads_inside_only :
    State.reset.sample (2 ^ 32 - 1) = some 0#32 ∧ State.reset.sample (2 ^ 32) = none := by decide +kernel

/-! ### Witnesses: a concrete state and operands that meet the hypotheses of each statement -/

theorem live_inv : live.Inv where
  cfg := by constructor <;> decide +kernel
  nf := by decide
  no := by decide
  filters := by
    intro u f h
    have hf : f = fUnit := by
      cases u with
      | zero => exact (Option.some.inj h).symm
      | succ u => cases u <;> exact nomatch h
    subst hf
    constructor <;> decide +kernel
  oscs := by
    intro u o h
    have ho : o = oUnit := by
      cases u with
      | zero => exact (Option.some.inj h).symm
      | succ u => cases u <;> exact nomatch h
    subst ho
    constructor <;> decide +kernel
  wf := by decide
  inside := by decide

theorem witness_DecodeEncodeRoundTrip : (Instr.fPeek 255 15#32).wellFormed = true := by decide

theorem witness_EncodeDecodeRoundTrip :
    (decode 0x17FF00000000000F0000000000000000#128).toOption = some (.fPeek 255 15#32) := by decide

theorem witness_IllegalWordsAreNoops :
    ({ live with host := [.command 0x35000000000000000000000000000000#128] } : State).host =
      .command 0x35000000000000000000000000000000#128 :: [] ∧
      (decode 0x35000000000000000000000000000000#128).toOption = none := by decide

theorem witness_StepRunsPresentedCommand :
    (decode 0x34000000000000000000000000000000#128).toOption = some (.dPeek 0#32) ∧
      (0xFFFFFFFF#32).toNat < live.cfg.memWords ∧
      ({ live with cfg := { standardConfig with memWords := 2 } } : State).cfg.memWords ≤ (2#32).toNat ∧
      live.host = [] := by decide +kernel

theorem witness_StepKeepsInvariant :
    ({ live with host := [.command 0x16000000000000000000000000000000#128] } : State).Inv ∧
      ∃ t, step { live with host := [.command 0x16000000000000000000000000000000#128] } = .next t :=
  ⟨⟨live_inv.cfg, live_inv.nf, live_inv.no, live_inv.filters, live_inv.oscs, live_inv.wf, live_inv.inside⟩,
    _, rfl⟩

/-- For FCreateInitialisesUnit and OCreateInitialisesUnit, each clause. -/
theorem witness_CreateInitialisesUnit :
    0 < live.filters.length ∧ 0 < live.oscs.length ∧ fpIsFinite 0x00000001#32 = true ∧
      fpGt 0x00000001#32 0#32 = true ∧ fpIsFinite 0x7F800000#32 = false ∧ fpGt 0x80000000#32 0#32 = false ∧
      live.filters.length ≤ 1 ∧ live.oscs.length ≤ 1 := by decide +kernel

/-- For FDestroyEndsUnit, FPeekReadsRegister and the filter setters. -/
theorem witness_filter_commands : live.filter? 0 = some fUnit ∧ live.filter? 1 = none := by decide

/-- For ODestroyEndsUnit, OPeekReadsRegister and the oscillator setters. -/
theorem witness_osc_commands : live.osc? 0 = some oUnit ∧ live.osc? 1 = none := by decide

/-- For the number and NaN clauses of FSetFreqWritesTarget, FSetResWritesTarget, FSetSmoothWritesRate,
OSetFreqWritesIncrement and OSetAmpWritesAmplitude. -/
theorem witness_setters :
    live.filter? 0 = some fUnit ∧ live.osc? 0 = some oUnit ∧ fpIsNaN 0x7F800000#32 = false ∧
      fpIsNaN 0x7F800001#32 = true ∧ live.filter? 1 = none ∧ live.osc? 1 = none := by decide

/-- For FProcessFiltersBufferInPlace and OProcessFillsBuffer. -/
theorem witness_Process :
    live.mem.wf = true ∧ live.filter? 0 = some fUnit ∧ live.osc? 0 = some oUnit ∧ 0xFFFFFFFF#32 ≠ 0#32 ∧
      1#32 ≠ 0#32 ∧ (0xFFFFFFFF#32).toNat + (1#32).toNat ≤ live.cfg.memWords := by decide +kernel

/-- For the waveform clauses of OProcessFillsBuffer. -/
theorem witness_waveforms :
    ∀ k : BitVec 2, ({ live with oscs := [some { oUnit with wave := k }] } : State).osc? 0 =
      some { oUnit with wave := k } := fun _ => rfl

theorem witness_EmptyProcessIsNoop :
    live.filter? 1 = none ∧ live.osc? 1 = none ∧ (0#32 = 0#32) := by decide

theorem witness_OutsideBufferIsRefused :
    0xFFFFFFFF#32 ≠ 0#32 ∧ 2#32 ≠ 0#32 ∧ live.cfg.memWords < (0xFFFFFFFF#32).toNat + (2#32).toNat ∧
      live.filter? 0 = some fUnit ∧ live.osc? 0 = some oUnit := by decide +kernel

theorem witness_FResetClearsDelayLine :
    live.filter? 0 = some fUnit ∧ fUnit.x1 = 0#32 ∧ fUnit.x2 = 0#32 ∧ fUnit.y1 = 0#32 ∧ fUnit.y2 = 0#32 := by
  decide

/-- For the selector clauses of FPeekReadsRegister and OPeekReadsRegister. -/
theorem witness_Peek :
    live.filter? 0 = some fUnit ∧ live.osc? 0 = some oUnit ∧ 14 < 15 ∧ 5 < 6 ∧ 16 ≤ (16#32).toNat ∧
      6 ≤ (14#32).toNat ∧ 14#32 ≠ 15#32 ∧ live.filter? 1 = none ∧ live.osc? 1 = none := by decide

theorem witness_OSetWaveSelectsWaveform :
    live.osc? 0 = some oUnit ∧ (3#32).toNat ≤ 3 ∧ 4 ≤ (4#32).toNat ∧ live.osc? 1 = none := by decide

theorem witness_OResetZeroesPhase : live.osc? 0 = some oUnit ∧ oUnit.phase = 0#32 := by decide

theorem witness_DPeekReadsCounter : 2 ≤ (2#32).toNat := by decide

theorem witness_DecibelFixedPoints : ConfigValid live.cfg := live_inv.cfg

theorem witness_FilterCommandFrame : ∃ t, exec (.fProcess 0 16#32 1#32) live = .next t := ⟨_, rfl⟩

theorem witness_OscillatorCommandFrame : ∃ t, exec (.oProcess 0 16#32 1#32) live = .next t := ⟨_, rfl⟩

theorem witness_UtilityCommandFrame :
    (∃ t, exec (.uLerp 0#32 1#32 2#32) live = .next t) ∧
      ({ live with result := 7#32 } : State).cfg = live.cfg := ⟨⟨_, rfl⟩, rfl⟩

theorem witness_OnlyCreateAndProcessMoveFilter :
    ∃ t g, exec (.fReset 0) live = .next t ∧ live.filter? 0 = some fUnit ∧ t.filter? 0 = some g ∧
      ∀ sr, Instr.fReset 0 ≠ .fCreate 0 sr := ⟨_, _, rfl, rfl, rfl, nofun⟩

theorem witness_OscillatorRegisterFrame :
    ∃ t p, exec (.oReset 0) live = .next t ∧ live.osc? 0 = some oUnit ∧ t.osc? 0 = some p ∧
      ∀ sr, Instr.oReset 0 ≠ .oCreate 0 sr := ⟨_, _, rfl, rfl, rfl, nofun⟩

theorem witness_EventsHaveTheirCauses :
    (decode 0x12FF00007FC000000000000000000000#128).toOption = some (.fSetFreq 255 0x7FC00000#32) ∧
      noopCause (.fSetFreq 255 0x7FC00000#32) live = some .n2 ∧
      (decode 0x12000000412000000000000000000000#128).toOption = some (.fSetFreq 0 0x41200000#32) ∧
      noopCause (.fSetFreq 0 0x41200000#32) live = none ∧
      clampCause (.fSetFreq 0 0x41200000#32) live = true := by decide +kernel

theorem witness_CountersOnlyRise :
    ∃ t, step { live with host := [.command 0#128] } = .next t ∧
      ∀ cells rest, ({ live with host := [.command 0#128] } : State).host ≠ .hreset cells :: rest :=
  ⟨_, rfl, fun _ _ h => nomatch h⟩

theorem witness_FilterUnitsAreIndependent :
    ∃ t, exec (.fReset 0) { live with filters := [some fUnit, none] } = .next t ∧
      ({ live with filters := [some fUnit, some fUnit], oscs := [none] } : State).filters[0]? =
        ({ live with filters := [some fUnit, none] } : State).filters[0]? := ⟨_, rfl, rfl⟩

theorem witness_OscillatorBlocksJoin :
    ∃ t t', 16#32 ≠ 0#32 ∧ 1#32 ≠ 0#32 ∧ (16#32).toNat + (1#32).toNat + (1#32).toNat ≤ live.cfg.memWords ∧
      live.cfg.memWords ≤ 2 ^ 32 ∧ live.osc? 0 = some oUnit ∧
      exec (.oProcess 0 16#32 1#32) live = .next t ∧ exec (.oProcess 0 (16#32 + 1#32) 1#32) t = .next t' :=
  ⟨_, _, by decide, by decide, by decide +kernel, by decide +kernel, rfl, rfl, rfl⟩

theorem witness_FilterBlocksJoinAtTarget :
    ∃ t t', live.Inv ∧ live.filter? 0 = some fUnit ∧ fUnit.curFreq = fUnit.tgtFreq ∧
      fUnit.curRes = fUnit.tgtRes ∧ 16#32 ≠ 0#32 ∧ 1#32 ≠ 0#32 ∧
      (16#32).toNat + (1#32).toNat + (1#32).toNat ≤ live.cfg.memWords ∧
      exec (.fProcess 0 16#32 1#32) live = .next t ∧ exec (.fProcess 0 (16#32 + 1#32) 1#32) t = .next t' :=
  ⟨_, _, live_inv, rfl, rfl, rfl, by decide, by decide, by decide +kernel, rfl, rfl⟩

theorem witness_OscillatorUnitsAreIndependent :
    ∃ s s' t : State, s.mem.wf = true ∧ s'.mem.wf = true ∧ s'.mem ≠ s.mem ∧ s'.cfg = s.cfg ∧
      s'.oscs[0]? = s.oscs[0]? ∧ s'.filters ≠ s.filters ∧ s'.result = s.result ∧ (s.osc? 0).isSome = true ∧
      exec (.oProcess 0 16#32 1#32) s = .next t ∧ 16#32 ≠ 0#32 ∧ 0 < (1#32).toNat :=
  ⟨live, { live with mem := [(64, 0x44#8)], filters := [] }, _, rfl, rfl, by decide, rfl, rfl, by decide, rfl, rfl, rfl,
    by decide, by decide⟩

/-- The gate shut and open under `POST`, and open under `PRE`. -/
theorem witness_BlockUpdateAdvancesThenGates :
    live.cfg.gateOn = .post ∧ ({ live.cfg with gateOn := .pre } : Config F32).gateOn = .pre ∧
      fpGt (fpAbs (fpSub 0x447A0000#32 fUnit.tgtFreq)) live.cfg.hystF = false ∧
      fpGt (fpAbs (fpSub 0x3F333333#32 fUnit.tgtRes)) live.cfg.hystR = false ∧
      fpGt (fpAbs (fpSub 0x447A0000#32 0x44FA0000#32)) live.cfg.hystF = true := by decide +kernel

theorem witness_CoefficientsFollowCookbook :
    live.cfg.qmap = .a ∧ ({ live.cfg with qmap := .b } : Config F32).qmap = .b := by decide

theorem witness_BlockUpdateRestsAtTarget :
    ConfigValid live.cfg ∧ FilterLegal live.cfg fUnit ∧ fUnit.curFreq = fUnit.tgtFreq ∧
      fUnit.curRes = fUnit.tgtRes := ⟨live_inv.cfg, live_inv.filters 0 fUnit rfl, rfl, rfl⟩

theorem witness_NanPoisonsDelayLine :
    fpIsNaN ({ fUnit with x1 := 0x7FC00000#32 } : FilterUnit F32).x1 = true ∧
      fpIsNaN ({ fUnit with x2 := 0xFF800001#32 } : FilterUnit F32).x2 = true ∧
      fpIsNaN ({ fUnit with y1 := 0x7FC00000#32 } : FilterUnit F32).y1 = true ∧
      fpIsNaN ({ fUnit with y2 := 0x7FFFFFFF#32 } : FilterUnit F32).y2 = true ∧ [0#32] ≠ [] := by decide

theorem witness_OscillatorOutputWithinAmplitude :
    ∃ t, live.Inv ∧ live.osc? 0 = some oUnit ∧ incBounded live.cfg oUnit.sampleRate = true ∧ 16#32 ≠ 0#32 ∧
      1#32 ≠ 0#32 ∧ exec (.oProcess 0 16#32 1#32) live = .next t :=
  ⟨_, live_inv, rfl, by decide +kernel, by decide, by decide, rfl⟩

theorem witness_ArithmeticRoundsToNearestEven :
    fpIsFinite 0x7F7FFFFF#32 = true ∧ fpIsFinite (fpAdd 0x7F7FFFFF#32 0x73000000#32) = false ∧
      fpIsFinite (fpAdd 0x7F7FFFFF#32 0x72FFFFFF#32) = true ∧
      fpIsFinite (fpSub 0x7F7FFFFF#32 0xF2FFFFFF#32) = true ∧
      fpIsFinite (fpSub 0x7F7FFFFF#32 0xF3000000#32) = false ∧ fpIsFinite (fpMul 1#32 0x3F000000#32) = true ∧
      fpValue 1#32 ≠ 0 ∧ fpIsFinite (fpDiv 1#32 0x40400000#32) = true := by decide +kernel

theorem witness_NanResultsAreCanonical :
    fpIsNaN (fpAdd 0x7F800000#32 0xFF800000#32) = true ∧ fpIsNaN (fpSub 0x7F800000#32 0x7F800000#32) = true ∧
      fpIsNaN (fpMul 0#32 0x7F800000#32) = true ∧ fpIsNaN (fpDiv 0#32 0#32) = true := by decide +kernel

theorem witness_ClampLandsInRange :
    fpIsNaN 0x3F800000#32 = false ∧ fpIsNaN 0#32 = false ∧ fpLt 0x3F800000#32 0#32 = false ∧
      fpLt 0x80000001#32 0#32 = true ∧ fpGt 0x3F800001#32 0x3F800000#32 = true ∧
      inRange 0x80000000#32 0#32 0x3F800000#32 = true ∧ fpLt 0#32 0x3F800000#32 = true ∧
      fpIsNaN 0x7F800001#32 = true := by decide +kernel

theorem witness_SmootherNeverOvershootsInBinary32 :
    fpIsFinite 0x447A0000#32 = true ∧ fpIsFinite 0x44FA0000#32 = true ∧ fpIsFinite 0x3F000000#32 = true ∧
      fpLt 0x447A0000#32 0#32 = false ∧ fpLt 0x44FA0000#32 0#32 = false ∧ fpLt 0x3F000000#32 0#32 = false ∧
      fpGt 0x3F000000#32 0x3F800000#32 = false ∧ fpGt 0x447A0000#32 0x44FA0000#32 = false ∧
      fpLt 0x44FA0000#32 0x447A0000#32 = false ∧ fpGt 0x3F000000#32 0x3F000000#32 = false := by decide +kernel

theorem witness_PhaseStaysNormalized :
    phaseLegal 0x3F7FFFFF#32 = true ∧ fpIsFinite 0x7F7FFFFF#32 = true ∧ fpLt 0x7F7FFFFF#32 0#32 = false := by
  decide +kernel

theorem witness_WaveformsStayInUnitRange : ConfigValid live.cfg ∧ phaseLegal 0x3F7FFFFF#32 = true :=
  ⟨live_inv.cfg, by decide +kernel⟩

theorem witness_SmootherConvergesMonotonically :
    (0 : ℝ) ≤ 1 / 10 ∧ (1 : ℝ) / 10 ≤ 1 ∧ (1 : ℝ) ≤ 2 ∧ (0 : ℝ) < 1 / 10 := by norm_num

/-- For PolesInsideUnitCircle, DcGainIsOne and GainAtCutoffIsQ. -/
theorem witness_exact_filter :
    ∃ (k : Coefs ℝ) (z : ℂ), (0 : ℝ) < 1000 ∧ (1000 : ℝ) < 44100 / 2 ∧ (0 : ℝ) ≤ 99 / 100 ∧
      (99 : ℝ) / 100 ≤ 99 / 100 ∧ k = coef ideal (idealConfig .a .post) 1000 (99 / 100) 44100 ∧
      z = Complex.exp (-((2 * Real.pi * 1000 / 44100 : ℝ) : ℂ) * Complex.I) :=
  ⟨_, _, by norm_num, by norm_num, by norm_num, le_rfl, rfl, rfl⟩

theorem witness_OscillatorIsPeriodicExactly :
    ∃ o : OscUnit ℝ, 0 < 100 ∧ o.inc = 1 / (100 : Nat) ∧ 0 ≤ o.phase ∧ o.phase < 1 :=
  ⟨{ sampleRate := 44100, freq := 441, amp := 1, wave := 0#2, phase := 0, inc := 1 / (100 : Nat) },
    by decide, rfl, le_rfl, zero_lt_one⟩

theorem witness_RateOneNeverRecomputes :
    ∃ (cfg : Config ℝ) (f : FilterUnit ℝ), cfg.gateOn = .post ∧ 0 ≤ cfg.hystF ∧ 0 ≤ cfg.hystR ∧ f.smooth = 1 :=
  ⟨idealConfig .a .post,
    { sampleRate := 44100, curFreq := 1000, tgtFreq := 2000, curRes := 0, tgtRes := 0, smooth := 1, b0 := 0,
      b1 := 0, b2 := 0, a1 := 0, a2 := 0, x1 := 0, x2 := 0, y1 := 0, y2 := 0 },
    rfl, zero_le_one, by norm_num [idealConfig], rfl⟩

end Sys2Proof.Tests
end

section
/-! The four operations of binary32 as one rounding of the exact result (00_scope.md R9): the rounding is
monotone, nearest with ties to even, and overflows from halfway past the largest finite number on. -/

namespace Sys2Proof.Proofs
open Sys2Proof.Machine

/-! ### The rounded quotient -/

/-- Rounding goes down to the whole quotient or up to the next one, by what is left over. -/
theorem roundHalfEven_cases (num den : Nat) :
    (roundHalfEven num den = num / den ∧ 2 * (num % den) ≤ den ∧
      (2 * (num % den) = den → roundHalfEven num den % 2 = 0)) ∨
    (roundHalfEven num den = num / den + 1 ∧ den ≤ 2 * (num % den) ∧
      (2 * (num % den) = den → roundHalfEven num den % 2 = 0)) := by
  unfold roundHalfEven
  simp only
  split <;> omega

/-- The rounded quotient is within half a unit of the exact one, and even where it is exactly half a
unit away. -/
theorem roundHalfEven_within_half (num : Nat) {den : Nat} (hd : 0 < den) :
    2 * num ≤ 2 * (roundHalfEven num den * den) + den ∧
    2 * (roundHalfEven num den * den) ≤ 2 * num + den ∧
    (2 * num = 2 * (roundHalfEven num den * den) + den ∨
      2 * (roundHalfEven num den * den) = 2 * num + den → roundHalfEven num den % 2 = 0) := by
  have hnum := Nat.div_add_mod' num den
  have hr := Nat.mod_lt num hd
  rcases roundHalfEven_cases num den with ⟨hz, hle, heven⟩ | ⟨hz, hle, heven⟩
  · have hmul : roundHalfEven num den * den = num / den * den := by rw [hz]
    omega
  · have hmul : roundHalfEven num den * den = num / den * den + den := by rw [hz, Nat.succ_mul]
    omega

theorem roundHalfEven_mono {m n : Nat} (den : Nat) (h : m ≤ n) :
    roundHalfEven m den ≤ roundHalfEven n den := by
  have hdiv : m / den ≤ n / den := Nat.div_le_div_right h
  have hm := Nat.div_add_mod' m den
  have hn := Nat.div_add_mod' n den
  unfold roundHalfEven
  simp only
  rcases Nat.eq_or_lt_of_le hdiv with heq | hlt
  · rw [heq] at hm ⊢
    split <;> split <;> omega
  · split <;> split <;> omega

theorem binade_mono {m n : Nat} (den : Nat) (h : m ≤ n) : binade m den ≤ binade n den := by
  unfold binade
  have : Nat.log2 (m / den) ≤ Nat.log2 (n / den) := by
    rw [Nat.log2_eq_log_two, Nat.log2_eq_log_two]
    exact Nat.log_mono_right (Nat.div_le_div_right h)
  omega

/-- Rounding is monotone. -/
theorem roundBits_mono {m n den : Nat} (hd : 0 < den) (h : m ≤ n) :
    roundBits m den ≤ roundBits n den := by
  refine min_le_min_right _ ?_
  obtain ⟨hm, -⟩ := significand_bounds m hd
  obtain ⟨-, hn⟩ := significand_bounds n hd
  rcases Nat.eq_or_lt_of_le (binade_mono den h) with heq | hlt
  · rw [heq]
    exact Nat.add_le_add_left (roundHalfEven_mono _ h) _
  · omega

/-- The significand a quotient is rounded to, in the spacing of its binade. -/
def significand (num den : Nat) : Nat := roundHalfEven num (den * 2 ^ binade num den)

/-- Bits 30:0 of a rounded quotient before an overflow is cut down to infinity. -/
def unclippedBits (num den : Nat) : Nat := binade num den * 2 ^ 23 + significand num den

theorem roundBits_eq_min (num den : Nat) : roundBits num den = min (unclippedBits num den) fpInfBits := rfl

theorem roundBits_of_finite {num den : Nat} (h : roundBits num den < fpInfBits) :
    roundBits num den = unclippedBits num den := by
  rw [roundBits_eq_min] at *
  omega

theorem fpUnits_unclipped (num : Nat) {den : Nat} (hd : 0 < den) :
    fpUnits (unclippedBits num den) = significand num den * 2 ^ binade num den :=
  fpUnits_binade _ _ (significand_bounds num hd).1 (significand_bounds num hd).2

/-- The quotient in the terms of the significand: within half the spacing of its binade, and the
significand even at exactly half. -/
theorem significand_within_half (num : Nat) {den : Nat} (hd : 0 < den) :
    2 * num ≤ 2 * (significand num den * 2 ^ binade num den * den) + den * 2 ^ binade num den ∧
    2 * (significand num den * 2 ^ binade num den * den) ≤ 2 * num + den * 2 ^ binade num den ∧
    (2 * num = 2 * (significand num den * 2 ^ binade num den * den) + den * 2 ^ binade num den ∨
      2 * (significand num den * 2 ^ binade num den * den) = 2 * num + den * 2 ^ binade num den →
        significand num den % 2 = 0) := by
  have h := roundHalfEven_within_half num (Nat.mul_pos hd (Nat.two_pow_pos (binade num den)))
  rw [show ∀ z, z * (den * 2 ^ binade num den) = z * 2 ^ binade num den * den from fun z => by ring] at h
  exact h

/-- The next size above a rounded quotient is a whole spacing away. -/
theorem spacing_above {num den m : Nat} (hd : 0 < den)
    (hm : unclippedBits num den < m) :
    significand num den * 2 ^ binade num den * den + den * 2 ^ binade num den ≤ fpUnits m * den := by
  have hq : significand num den ≤ 2 ^ 24 := (significand_bounds num hd).1
  have hk : binade num den = 0 ∨ 2 ^ 23 ≤ significand num den := (significand_bounds num hd).2
  have hnext : (significand num den + 1) * 2 ^ binade num den ≤
      fpUnits (unclippedBits num den + 1) := by
    unfold unclippedBits
    rcases Nat.eq_or_lt_of_le hq with heq | hlt
    · rw [heq, show binade num den * 2 ^ 23 + 2 ^ 24 + 1 =
          (binade num den + 1) * 2 ^ 23 + (2 ^ 23 + 1) by omega,
        fpUnits_binade _ _ (by omega) (by omega), Nat.pow_succ]
      omega
    · rw [Nat.add_assoc, fpUnits_binade _ _ hlt (by omega)]
  calc significand num den * 2 ^ binade num den * den + den * 2 ^ binade num den
      = (significand num den + 1) * 2 ^ binade num den * den := by ring
    _ ≤ fpUnits m * den := Nat.mul_le_mul_right _ (hnext.trans (fpUnits_le_iff.2 hm))

/-- The next size below a quotient that was rounded up is a whole spacing away. -/
theorem spacing_below {num den m : Nat} (hd : 0 < den)
    (hup : num < significand num den * 2 ^ binade num den * den)
    (hm : m < unclippedBits num den) :
    fpUnits m * den + den * 2 ^ binade num den ≤ significand num den * 2 ^ binade num den * den := by
  have hq : significand num den ≤ 2 ^ 24 := (significand_bounds num hd).1
  obtain ⟨q, hq1⟩ : ∃ q, significand num den = q + 1 := by
    refine Nat.exists_eq_succ_of_ne_zero fun h0 => ?_
    rw [h0] at hup
    omega
  have hk : binade num den = 0 ∨ 2 ^ 23 ≤ q := by
    by_contra! hc
    have hlow := binade_le_num hd hc.1
    have hle : significand num den * 2 ^ binade num den * den ≤ num :=
      calc significand num den * 2 ^ binade num den * den
          ≤ 2 ^ 23 * 2 ^ binade num den * den :=
            Nat.mul_le_mul_right _ (Nat.mul_le_mul_right _ (by omega))
        _ = 2 ^ 23 * (den * 2 ^ binade num den) := by ring
        _ ≤ num := hlow
    omega
  have hprev : fpUnits m ≤ q * 2 ^ binade num den := by
    unfold unclippedBits at hm
    rw [← fpUnits_binade _ _ (by omega) hk]
    exact fpUnits_le_iff.2 (by omega)
  calc fpUnits m * den + den * 2 ^ binade num den
      ≤ q * 2 ^ binade num den * den + den * 2 ^ binade num den :=
        Nat.add_le_add_right (Nat.mul_le_mul_right _ hprev) _
    _ = significand num den * 2 ^ binade num den * den := by rw [hq1]; ring

/-- No size is nearer to a quotient than the one it is rounded to, and of two equally near the even one
is taken. -/
theorem unclippedBits_nearest (num m : Nat) {den : Nat} (hd : 0 < den) :
    |(fpUnits (unclippedBits num den) * den : Int) - num| ≤ |(fpUnits m * den : Int) - num| ∧
    (|(fpUnits (unclippedBits num den) * den : Int) - num| = |(fpUnits m * den : Int) - num| →
      m ≠ unclippedBits num den → unclippedBits num den % 2 = 0) := by
  obtain ⟨hup, hdown, heven⟩ := significand_within_half num hd
  have hspace : 0 < den * 2 ^ binade num den := Nat.mul_pos hd (Nat.two_pow_pos _)
  have hparity : unclippedBits num den % 2 = significand num den % 2 := by
    unfold unclippedBits
    omega
  rw [hparity, Int.abs_eq_natAbs, Int.abs_eq_natAbs]
  rcases Nat.lt_trichotomy m (unclippedBits num den) with hm | rfl | hm
  · have hlt : fpUnits m * den < fpUnits (unclippedBits num den) * den :=
      Nat.mul_lt_mul_of_pos_right (fpUnits_lt_iff.2 hm) hd
    have hfar := fun hup => spacing_below (num := num) hd hup hm
    rw [fpUnits_unclipped num hd] at *
    omega
  · exact ⟨le_rfl, fun _ h => absurd rfl h⟩
  · have hfar := spacing_above hd hm
    rw [fpUnits_unclipped num hd]
    omega

/-- The number halfway between the largest finite size and the next power of two, from which on a
quotient overflows. -/
theorem halfway_past_largest :
    2 * ((2 ^ 25 - 1) * 2 ^ 252) = fpUnits (fpInfBits - 1) + fpUnits fpInfBits := by decide

theorem roundBits_eq_inf_iff (num : Nat) {den : Nat} (hd : 0 < den) :
    roundBits num den = fpInfBits ↔ (2 ^ 25 - 1) * 2 ^ 252 * den ≤ num := by
  have hhalf : 2 * ((2 ^ 25 - 1) * 2 ^ 252 * den) =
      fpUnits (fpInfBits - 1) * den + fpUnits fpInfBits * den := by
    rw [← Nat.add_mul, ← halfway_past_largest, Nat.mul_assoc 2]
  have hgap : fpUnits (fpInfBits - 1) * den < fpUnits fpInfBits * den :=
    Nat.mul_lt_mul_of_pos_right (fpUnits_lt_iff.2 (by decide)) hd
  have hodd : (fpInfBits - 1) % 2 = 1 := by decide
  rw [roundBits_eq_min, min_eq_right_iff]
  constructor
  · intro hover
    have hle : fpUnits fpInfBits * den ≤ fpUnits (unclippedBits num den) * den :=
      Nat.mul_le_mul_right _ (fpUnits_le_iff.2 hover)
    have hnear := (unclippedBits_nearest num (fpInfBits - 1) hd).1
    rw [Int.abs_eq_natAbs, Int.abs_eq_natAbs] at hnear
    omega
  · intro hnum
    by_contra hfin
    obtain ⟨hnear, htie⟩ := unclippedBits_nearest num fpInfBits hd
    rcases Nat.lt_or_eq_of_le (Nat.le_sub_one_of_lt (Nat.not_le.1 hfin)) with hlt | heq
    · have : fpUnits (unclippedBits num den) * den < fpUnits (fpInfBits - 1) * den :=
        Nat.mul_lt_mul_of_pos_right (fpUnits_lt_iff.2 hlt) hd
      rw [Int.abs_eq_natAbs, Int.abs_eq_natAbs] at hnear
      omega
    · rw [heq, Int.abs_eq_natAbs, Int.abs_eq_natAbs] at hnear htie
      have := htie (by omega) (by decide)
      omega

theorem roundBits_zero {den : Nat} (hd : 0 < den) : roundBits 0 den = 0 :=
  Nat.le_zero.1 (roundBits_le hd (Nat.zero_le _))

/-! ### The signed result -/

/-- A size with a sign. -/
def signed (sign : Bool) (n : Nat) : Int := if sign then -(n : Int) else n

theorem signed_mul (s t : Bool) (m n : Nat) : signed s m * signed t n = signed (s != t) (m * n) := by
  cases s <;> cases t <;> simp [signed]

theorem abs_signed (s : Bool) (n : Nat) : |signed s n| = n := by
  cases s <;> simp [signed]

theorem fpValue_eq_signed (a : F32) : fpValue a = signed (fpSign a) (fpMag a) := rfl

theorem abs_fpValue (a : F32) : |fpValue a| = fpMag a := abs_signed _ _

theorem fpIsFinite_round (sign : Bool) (num den : Nat) :
    fpIsFinite (fpRound sign num den) = decide (roundBits num den < fpInfBits) := by
  unfold fpIsFinite
  rw [fpBits_round]

/-- A rounded quotient overflows exactly from halfway past the largest finite number on. -/
theorem fpRound_overflows_iff (sign : Bool) (num : Nat) {den : Nat} (hd : 0 < den) :
    fpIsFinite (fpRound sign num den) = false ↔ (2 ^ 25 - 1) * 2 ^ 252 * den ≤ num := by
  rw [fpIsFinite_round, decide_eq_false_iff_not, ← roundBits_eq_inf_iff num hd]
  have := roundBits_le_inf num den
  omega

/-- Of two signed numbers the nearer to a third in size is the nearer, if it has the sign of the third. -/
theorem abs_signed_sub_le (s t : Bool) {r m n : Nat} (h0 : n = 0 → r = 0)
    (h : |(r : Int) - n| ≤ |(m : Int) - n|) :
    |signed s r - signed s n| ≤ |signed t m - signed s n| ∧
    (|signed s r - signed s n| = |signed t m - signed s n| → signed t m ≠ signed s r →
      |(r : Int) - n| = |(m : Int) - n| ∧ m ≠ r) := by
  unfold signed
  simp only [Int.abs_eq_natAbs] at *
  cases s <;> cases t <;> simp only [Bool.false_eq_true, if_false, if_true] <;> omega

/-- No binary32 number is nearer to a quotient than its rounding, and of two equally near the even one is
taken. -/
theorem fpRound_nearest (sign : Bool) (num : Nat) {den : Nat} (hd : 0 < den)
    (hfin : fpIsFinite (fpRound sign num den) = true) (c : F32) :
    |fpValue (fpRound sign num den) * den - signed sign num| ≤ |fpValue c * den - signed sign num| ∧
    (|fpValue (fpRound sign num den) * den - signed sign num| = |fpValue c * den - signed sign num| →
      fpValue c ≠ fpValue (fpRound sign num den) → fpBits (fpRound sign num den) % 2 = 0) := by
  rw [fpIsFinite_round, decide_eq_true_eq] at hfin
  obtain ⟨hnear, htie⟩ := unclippedBits_nearest num (fpBits c) hd
  rw [← roundBits_of_finite hfin, ← Nat.cast_mul, ← Nat.cast_mul] at hnear htie
  have h0 : num = 0 → fpUnits (roundBits num den) * den = 0 := by
    rintro rfl
    rw [roundBits_zero hd, fpUnits_zero, Nat.zero_mul]
  obtain ⟨hle, heq⟩ := abs_signed_sub_le sign (fpSign c) h0 hnear
  have hden : ∀ s n, signed s n * den = signed s (n * den) := by
    intro s n
    cases s <;> simp [signed]
  rw [fpValue_eq_signed, fpValue_eq_signed c, fpSign_round, hden, hden, fpBits_round]
  unfold fpMag
  rw [fpBits_round]
  refine ⟨hle, fun h hne => ?_⟩
  have hne' : signed (fpSign c) (fpUnits (fpBits c) * den) ≠
      signed sign (fpUnits (roundBits num den) * den) := by
    rw [← hden, ← hden]
    exact fun hc => hne (mul_right_cancel₀ (by exact_mod_cast hd.ne') hc)
  obtain ⟨habs, hbits⟩ := heq h hne'
  exact htie habs fun hc => hbits (by rw [hc])

/-! ### The four operations as one rounding -/

/-- The sum of finite numbers is one rounding of the exact sum. -/
theorem fpAdd_eq_round {a b : F32} (ha : fpIsFinite a = true) (hb : fpIsFinite b = true) :
    ∃ sign, fpAdd a b = fpRound sign (fpValue a + fpValue b).natAbs 1 ∧
      signed sign (fpValue a + fpValue b).natAbs = fpValue a + fpValue b := by
  rw [fpAdd_finite ha hb]
  unfold fpAddFinite signed
  simp only
  split
  · next h0 =>
    refine ⟨fpSign a && fpSign b, ?_, by rw [h0]; simp⟩
    rw [h0]
    rfl
  · refine ⟨_, rfl, ?_⟩
    simp only [decide_eq_true_eq]
    split <;> omega

/-- The product of finite numbers is one rounding of the exact product. -/
theorem fpMul_eq_round {a b : F32} (ha : fpIsFinite a = true) (hb : fpIsFinite b = true) :
    ∃ sign num, fpMul a b = fpRound sign num (2 ^ 149) ∧ signed sign num = fpValue a * fpValue b :=
  ⟨_, _, fpMul_finite ha hb, (signed_mul _ _ _ _).symm⟩

theorem fpMag_pos {a : F32} (h : fpValue a ≠ 0) : 0 < fpMag a := by
  rwa [← abs_pos, abs_fpValue, Int.natCast_pos] at h

/-- The quotient of finite numbers, the second not zero, is one rounding of the exact quotient. -/
theorem fpDiv_eq_round {a b : F32} (ha : fpIsFinite a = true) (hb : fpIsFinite b = true)
    (h0 : fpValue b ≠ 0) :
    fpDiv a b = fpRound (fpSign a != fpSign b) (fpMag a * 2 ^ 149) (fpMag b) :=
  fpDiv_finite ha hb (fpMag_pos h0).ne'

/-- Distances from an exact quotient, both sides times the divisor: its sign makes no difference. -/
theorem abs_mul_fpValue_sub (x : Int) (a b : F32) :
    |x * fpValue b - fpValue a * 2 ^ 149| =
      |x * fpMag b - signed (fpSign a != fpSign b) (fpMag a * 2 ^ 149)| := by
  rw [fpValue_eq_signed, fpValue_eq_signed]
  cases fpSign a <;> cases fpSign b
  · simp [signed]
  · rw [← abs_neg]
    simp [signed]
    ring_nf
  · simp [signed]
  · rw [← abs_neg]
    simp [signed]
    ring_nf

/-! ### Every operation gives the nearest number -/

/-- The finite number `x` is the one with the smallest error, ties to even; `err` is how far a number is
from the exact result. -/
def NearestEven (x : F32) (err : F32 → Int) : Prop :=
  fpIsFinite x = true → ∀ c : F32, fpIsFinite c = true →
    |err x| ≤ |err c| ∧ (|err x| = |err c| → fpValue c ≠ fpValue x → fpBits x % 2 = 0)

theorem nearestEven_round {sign : Bool} {num den : Nat} (hd : 0 < den) {err : F32 → Int}
    (herr : ∀ c, |err c| = |fpValue c * den - signed sign num|) :
    NearestEven (fpRound sign num den) err := by
  intro hfin c _
  rw [herr, herr]
  exact fpRound_nearest sign num hd hfin c

theorem fpAdd_nearest {a b : F32} (ha : fpIsFinite a = true) (hb : fpIsFinite b = true) :
    NearestEven (fpAdd a b) fun c => fpValue c - (fpValue a + fpValue b) := by
  obtain ⟨sign, hround, hexact⟩ := fpAdd_eq_round ha hb
  rw [hround]
  exact nearestEven_round Nat.one_pos fun c => by rw [hexact, Nat.cast_one, mul_one]

theorem fpAdd_overflows_iff {a b : F32} (ha : fpIsFinite a = true) (hb : fpIsFinite b = true) :
    fpIsFinite (fpAdd a b) = false ↔ (2 ^ 25 - 1) * 2 ^ 252 ≤ |fpValue a + fpValue b| := by
  obtain ⟨sign, hround, -⟩ := fpAdd_eq_round ha hb
  rw [hround, fpRound_overflows_iff _ _ Nat.one_pos, Int.abs_eq_natAbs]
  omega

theorem fpSub_nearest {a b : F32} (ha : fpIsFinite a = true) (hb : fpIsFinite b = true) :
    NearestEven (fpSub a b) fun c => fpValue c - (fpValue a - fpValue b) := by
  have h := fpAdd_nearest ha ((fpIsFinite_neg b).trans hb)
  rwa [fpValue_neg] at h

theorem fpSub_overflows_iff {a b : F32} (ha : fpIsFinite a = true) (hb : fpIsFinite b = true) :
    fpIsFinite (fpSub a b) = false ↔ (2 ^ 25 - 1) * 2 ^ 252 ≤ |fpValue a - fpValue b| := by
  have h := fpAdd_overflows_iff ha ((fpIsFinite_neg b).trans hb)
  rwa [fpValue_neg] at h

theorem fpMul_nearest {a b : F32} (ha : fpIsFinite a = true) (hb : fpIsFinite b = true) :
    NearestEven (fpMul a b) fun c => fpValue c * 2 ^ 149 - fpValue a * fpValue b := by
  obtain ⟨sign, num, hround, hexact⟩ := fpMul_eq_round ha hb
  rw [hround]
  exact nearestEven_round (Nat.two_pow_pos 149) fun c => by rw [hexact, Nat.cast_pow, Nat.cast_ofNat]

theorem fpMul_overflows_iff {a b : F32} (ha : fpIsFinite a = true) (hb : fpIsFinite b = true) :
    fpIsFinite (fpMul a b) = false ↔ (2 ^ 25 - 1) * 2 ^ 252 * 2 ^ 149 ≤ |fpValue a * fpValue b| := by
  obtain ⟨sign, num, hround, hexact⟩ := fpMul_eq_round ha hb
  rw [hround, fpRound_overflows_iff _ _ (Nat.two_pow_pos 149), ← hexact, abs_signed]
  omega

theorem fpDiv_nearest {a b : F32} (ha : fpIsFinite a = true) (hb : fpIsFinite b = true)
    (h0 : fpValue b ≠ 0) :
    NearestEven (fpDiv a b) fun c => fpValue c * fpValue b - fpValue a * 2 ^ 149 := by
  rw [fpDiv_eq_round ha hb h0]
  exact nearestEven_round (fpMag_pos h0) fun c => abs_mul_fpValue_sub _ _ _

theorem fpDiv_overflows_iff {a b : F32} (ha : fpIsFinite a = true) (hb : fpIsFinite b = true)
    (h0 : fpValue b ≠ 0) :
    fpIsFinite (fpDiv a b) = false ↔ (2 ^ 25 - 1) * 2 ^ 252 * |fpValue b| ≤ |fpValue a| * 2 ^ 149 := by
  rw [fpDiv_eq_round ha hb h0, fpRound_overflows_iff _ _ (fpMag_pos h0), abs_fpValue, abs_fpValue]
  omega

/-- Settles O48: each operation is one rounding of the exact result, and a rounding is nearest, ties to
even, and overflows from halfway on. -/
theorem arithmeticRoundsToNearestEven : Obligations.ArithmeticRoundsToNearestEven := fun _ _ ha hb =>
  ⟨fpAdd_nearest ha hb, fpAdd_overflows_iff ha hb, fpSub_nearest ha hb, fpSub_overflows_iff ha hb,
    fpMul_nearest ha hb, fpMul_overflows_iff ha hb, fpDiv_nearest ha hb, fpDiv_overflows_iff ha hb⟩

end Sys2Proof.Proofs
end

section
/-! The other facts of the scope about single operations: NaN results (00_scope.md R9, 92_eei_decisions.md
D39) and the clamp (R12). -/

namespace Sys2Proof.Proofs
open Sys2Proof.Machine

/-! ### NaN results -/

theorem fpIsNaN_pack (sign : Bool) {n : Nat} (h : n ≤ fpInfBits) : fpIsNaN (fpPack sign n) = false := by
  unfold fpIsNaN
  rw [fpBits_pack sign (h.trans_lt (by decide)), decide_eq_false (Nat.not_lt.2 h)]

@[simp] theorem fpIsNaN_inf (sign : Bool) : fpIsNaN (fpInf sign) = false := fpIsNaN_pack sign le_rfl

@[simp] theorem fpIsNaN_zero (sign : Bool) : fpIsNaN (fpZero sign) = false := fpIsNaN_pack sign (by decide)

/-- An operand that is neither a NaN nor an infinity is finite. -/
theorem fpIsFinite_of_not {a : F32} (hn : fpIsNaN a = false) (hi : fpIsInf a = false) :
    fpIsFinite a = true := by
  unfold fpIsNaN fpIsInf fpIsFinite at *
  rw [decide_eq_false_iff_not] at hn hi
  rw [decide_eq_true_eq]
  omega

/-- An infinity answered by a sum is an operand, and a rounded sum is a number: no other answer is a NaN. -/
theorem fpAdd_nan_canonical {a b : F32} (h : fpIsNaN (fpAdd a b) = true) : fpAdd a b = fpQuietNaN := by
  unfold fpAdd at *
  split_ifs at h ⊢ with hnan hinf_a hopposite hinf_b
  · rfl
  · rfl
  · exact absurd (Bool.or_eq_true_iff.2 (.inl h)) hnan
  · exact absurd (Bool.or_eq_true_iff.2 (.inr h)) hnan
  · rw [Bool.not_eq_true, Bool.or_eq_false_iff] at hnan
    have ha := fpIsFinite_of_not hnan.1 (Bool.not_eq_true _ ▸ hinf_a)
    have hb := fpIsFinite_of_not hnan.2 (Bool.not_eq_true _ ▸ hinf_b)
    rw [← fpAdd_finite ha hb, fpIsNaN_add ha hb] at h
    exact absurd h Bool.false_ne_true

/-- No other answer of a product is a NaN. -/
theorem fpMul_nan_canonical {a b : F32} (h : fpIsNaN (fpMul a b) = true) : fpMul a b = fpQuietNaN := by
  unfold fpMul at *
  simp only at *
  split_ifs at h ⊢ with hnan hinf hzero
  · rfl
  · rfl
  · rw [fpIsNaN_inf] at h
    exact absurd h Bool.false_ne_true
  · rw [fpIsNaN_round] at h
    exact absurd h Bool.false_ne_true

/-- No other answer of a quotient is a NaN. -/
theorem fpDiv_nan_canonical {a b : F32} (h : fpIsNaN (fpDiv a b) = true) : fpDiv a b = fpQuietNaN := by
  unfold fpDiv at *
  simp only at *
  split_ifs at h ⊢ with hnan hinf_a hinf_b hinf_b hzero_b hzero_a
  · rfl
  · rfl
  · simp at h
  · simp at h
  · rfl
  · simp at h
  · simp at h

/-- Settles O49: the one NaN an operation makes is the canonical one, since it passes none on. -/
theorem nanResultsAreCanonical : Obligations.NanResultsAreCanonical := fun _ _ =>
  ⟨fpAdd_nan_canonical, fpAdd_nan_canonical, fpMul_nan_canonical, fpDiv_nan_canonical⟩

/-! ### Comparisons and the clamp -/

theorem not_nan_of_fpLt {a b : F32} (h : fpLt a b = true) : fpIsNaN a = false ∧ fpIsNaN b = false := by
  unfold fpLt at h
  simp only [Bool.and_eq_true, Bool.not_eq_true'] at h
  exact h.1

theorem fpLt_iff {a b : F32} (ha : fpIsNaN a = false) (hb : fpIsNaN b = false) :
    fpLt a b = true ↔ fpValue a < fpValue b := by
  rw [fpLt_of_not_nan ha hb, decide_eq_true_eq]

theorem not_fpLt_iff {a b : F32} (ha : fpIsNaN a = false) (hb : fpIsNaN b = false) :
    fpLt a b = false ↔ fpValue b ≤ fpValue a := by
  rw [fpLt_of_not_nan ha hb, decide_eq_false_iff_not, Int.not_lt]

theorem fpLt_nan_left {a : F32} (b : F32) (h : fpIsNaN a = true) : fpLt a b = false := by
  unfold fpLt
  rw [h]
  rfl

theorem fpLt_nan_right (a : F32) {b : F32} (h : fpIsNaN b = true) : fpLt a b = false := by
  unfold fpLt
  rw [h, Bool.not_true, Bool.and_false, Bool.false_and]

theorem inRange_iff {v lo hi : F32} :
    inRange v lo hi = true ↔ fpIsNaN v = false ∧ fpLt v lo = false ∧ fpLt hi v = false := by
  unfold inRange fpGt
  simp only [Bool.and_eq_true, Bool.not_eq_true', and_assoc]

/-- A number lies between two numbers as its value lies between theirs. -/
theorem inRange_iff_value {v lo hi : F32} (hlo : fpIsNaN lo = false) (hhi : fpIsNaN hi = false) :
    inRange v lo hi = true ↔
      fpIsNaN v = false ∧ fpValue lo ≤ fpValue v ∧ fpValue v ≤ fpValue hi := by
  rw [inRange_iff]
  exact and_congr_right fun hv => and_congr (not_fpLt_iff hv hlo) (not_fpLt_iff hhi hv)

theorem clamp_of_below {v lo : F32} (hi : F32) (h : fpLt v lo = true) :
    clamp b32 v lo hi = if fpLt hi lo then hi else lo := by
  unfold clamp
  simp only [b32_flt, b32_fgt, h, if_true]
  rfl

theorem clamp_of_not_below {v lo : F32} (hi : F32) (h : fpLt v lo = false) :
    clamp b32 v lo hi = if fpLt hi v then hi else v := by
  unfold clamp
  simp only [b32_flt, b32_fgt, h, Bool.false_eq_true, if_false]
  rfl

/-- What lies in the range is left as it is. -/
theorem clamp_of_inRange {v lo hi : F32} (h : inRange v lo hi = true) : clamp b32 v lo hi = v := by
  obtain ⟨-, hlo, hhi⟩ := inRange_iff.1 h
  rw [clamp_of_not_below hi hlo, hhi]
  rfl

theorem clamp_of_nan {v : F32} (lo hi : F32) (h : fpIsNaN v = true) : clamp b32 v lo hi = v := by
  rw [clamp_of_not_below hi (fpLt_nan_left lo h), fpLt_nan_right hi h]
  rfl

/-- A range that is upside down gives its upper bound. -/
theorem clamp_of_empty {v lo hi : F32} (hv : fpIsNaN v = false) (h : fpLt hi lo = true) :
    clamp b32 v lo hi = hi := by
  obtain ⟨hnhi, hnlo⟩ := not_nan_of_fpLt h
  cases hvlo : fpLt v lo
  · have hover : fpLt hi v = true := by
      rw [fpLt_iff hnhi hv]
      rw [fpLt_iff hnhi hnlo] at h
      rw [not_fpLt_iff hv hnlo] at hvlo
      omega
    rw [clamp_of_not_below hi hvlo, hover]
    rfl
  · rw [clamp_of_below hi hvlo, h]
    rfl

theorem clamp_below_eq_lo {v lo hi : F32} (hle : fpLt hi lo = false) (h : fpLt v lo = true) :
    clamp b32 v lo hi = lo := by
  rw [clamp_of_below hi h, hle]
  rfl

section
variable {v lo hi : F32} (hv : fpIsNaN v = false) (hlo : fpIsNaN lo = false) (hhi : fpIsNaN hi = false)
  (hle : fpLt hi lo = false)
include hv hlo hhi hle

theorem clamp_above_eq_hi (h : fpLt hi v = true) : clamp b32 v lo hi = hi := by
  have hvlo : fpLt v lo = false := by
    rw [not_fpLt_iff hv hlo]
    rw [not_fpLt_iff hhi hlo] at hle
    rw [fpLt_iff hhi hv] at h
    omega
  rw [clamp_of_not_below hi hvlo, h]
  rfl

theorem clamp_inRange : inRange (clamp b32 v lo hi) lo hi = true := by
  have hvalue := (not_fpLt_iff hhi hlo).1 hle
  cases hvlo : fpLt v lo
  · cases hvhi : fpLt hi v
    · have hin : inRange v lo hi = true := inRange_iff.2 ⟨hv, hvlo, hvhi⟩
      rw [clamp_of_inRange hin, hin]
    · rw [clamp_above_eq_hi hv hlo hhi hle hvhi, inRange_iff_value hlo hhi]
      exact ⟨hhi, hvalue, le_rfl⟩
  · rw [clamp_below_eq_lo hle hvlo, inRange_iff_value hlo hhi]
    exact ⟨hlo, le_rfl, hvalue⟩

end

/-- Settles O50, clause by clause. -/
theorem clampLandsInRange : Obligations.ClampLandsInRange := fun _ _ _ =>
  ⟨fun hv hlo hhi hle => ⟨clamp_inRange hv hlo hhi hle, clamp_below_eq_lo hle,
      clamp_above_eq_hi hv hlo hhi hle⟩,
    clamp_of_inRange, clamp_of_empty, clamp_of_nan _ _⟩

end Sys2Proof.Proofs
end

section
/-! What a smoother step, a block update and a phase advance keep of the ranges of 10_state.md R24 to R33. -/

namespace Sys2Proof.Proofs
open Sys2Proof.Machine

/-! ### Values -/

@[simp] theorem fpValue_posZero : fpValue 0#32 = 0 := by decide

theorem fpValue_one : fpValue fpOne = 2 ^ 149 := by decide

/-- The largest finite number. -/
def fpMaxFinite : F32 := 0x7F7FFFFF#32

theorem fpValue_maxFinite : fpValue fpMaxFinite = (2 ^ 24 - 1) * 2 ^ 253 := by decide

theorem fpIsNaN_maxFinite : fpIsNaN fpMaxFinite = false := by decide

/-- A word is finite as its size is at most the largest finite one. -/
theorem fpIsFinite_iff_value (a : F32) :
    fpIsFinite a = true ↔ -fpValue fpMaxFinite ≤ fpValue a ∧ fpValue a ≤ fpValue fpMaxFinite := by
  have hmax : fpValue fpMaxFinite = (fpUnits (fpInfBits - 1) : Int) := by decide
  rw [hmax, ← abs_le, abs_fpValue, Int.ofNat_le]
  unfold fpMag fpIsFinite
  rw [fpUnits_le_iff, decide_eq_true_eq]
  exact Nat.lt_iff_le_pred (by decide)

/-- A value between two finite ones is finite. -/
theorem fpIsFinite_of_between {a lo hi : F32} (hlo : fpIsFinite lo = true) (hhi : fpIsFinite hi = true)
    (h1 : fpValue lo ≤ fpValue a) (h2 : fpValue a ≤ fpValue hi) : fpIsFinite a = true := by
  rw [fpIsFinite_iff_value] at *
  omega

theorem fpValue_of_nonneg {a : F32} (h : 0 ≤ fpValue a) : fpValue a = fpMag a := by
  rw [← abs_fpValue, abs_of_nonneg h]

theorem fpMag_le_of_value_le_one {r : F32} (h0 : 0 ≤ fpValue r) (h1 : fpValue r ≤ fpValue fpOne) :
    fpMag r ≤ 2 ^ 149 := by
  rw [fpValue_one, fpValue_of_nonneg h0] at h1
  omega

theorem signed_false (n : Nat) : signed false n = n := rfl

theorem signed_true (n : Nat) : signed true n = -(n : Int) := rfl

theorem sub_eq_signed_false {a b : Int} (h : a ≤ b) : b - a = signed false (b - a).natAbs := by
  rw [signed_false]
  omega

theorem sub_eq_signed_true {a b : Int} (h : b ≤ a) : b - a = signed true (b - a).natAbs := by
  rw [signed_true]
  omega

/-- What keeps zero keeps a sign: equal signed sizes, zero having either sign, stay equal. -/
theorem signed_map {s t : Bool} {m n : Nat} (f : Nat → Nat) (h0 : f 0 = 0)
    (h : signed s m = signed t n) : signed s (f m) = signed t (f n) := by
  have hmn : m = n := by
    have habs := congrArg abs h
    rwa [abs_signed, abs_signed, Int.ofNat_inj] at habs
  subst hmn
  rcases eq_or_ne s t with rfl | hst
  · rfl
  · have hm : m = 0 := by
      unfold signed at h
      cases s <;> cases t <;> simp_all
    rw [hm, h0]
    cases s <;> cases t <;> rfl

/-- A product by a number that is not negative has the sign of the other factor. -/
theorem fpValue_mul_of_nonneg {a r : F32} (ha : fpIsFinite a = true) (hr : fpIsFinite r = true)
    (h0 : 0 ≤ fpValue r) {neg : Bool} {d : Nat} (hd : fpValue a = signed neg d) :
    fpValue (fpMul a r) = signed neg (fpUnits (roundBits (d * fpMag r) (2 ^ 149))) := by
  have hexact : signed (fpSign a != fpSign r) (fpMag a * fpMag r) = signed neg (d * fpMag r) := by
    rw [← signed_mul, ← fpValue_eq_signed, ← fpValue_eq_signed, hd, fpValue_of_nonneg h0]
    exact (signed_mul neg false d (fpMag r)).trans (by rw [Bool.bne_false])
  rw [fpMul_finite ha hr, fpValue_round]
  exact signed_map (fun n => fpUnits (roundBits n (2 ^ 149)))
    (by rw [roundBits_zero (Nat.two_pow_pos 149), fpUnits_zero]) hexact

theorem roundInt_eq_signed {s : Int} {neg : Bool} {n : Nat} (h : s = signed neg n) :
    roundInt s = signed neg (fpUnits (roundBits n 1)) := by
  have hpos : roundInt n = fpUnits (roundBits n 1) := by
    unfold roundInt
    rw [if_neg (by omega), Int.natAbs_natCast]
  cases neg
  · rw [h]
    exact hpos
  · rw [h]
    unfold signed
    rw [if_pos rfl, if_pos rfl, roundInt_neg, hpos]

/-- Every distance lies between two neighbouring binary32 sizes, infinity and beyond counted on. -/
theorem exists_units_le (x : Nat) : ∃ n, fpUnits n ≤ x ∧ x < fpUnits (n + 1) := by
  obtain ⟨n, hn⟩ : ∃ n, x < fpUnits n := ⟨x + 1, fpUnits_strictMono.le_apply⟩
  induction n with
  | zero => exact absurd hn (by rw [fpUnits_zero]; omega)
  | succ n ih =>
    rcases Nat.lt_or_ge x (fpUnits n) with h | h
    · exact ih h
    · exact ⟨n, h, hn⟩

/-! ### The smoother step (40_smoother.md R110) -/

/-- How far a smoother step moves, before the last rounding. -/
def smoothPull (c t r : F32) : Nat :=
  fpUnits (roundBits (fpUnits (roundBits (fpValue t - fpValue c).natAbs 1) * fpMag r) (2 ^ 149))

/-- At a rate of at most 1 a step moves at most as far as any binary32 size the distance does not pass. -/
theorem smoothPull_le {c t r : F32} (hr1 : fpMag r ≤ 2 ^ 149) {n : Nat}
    (h : (fpValue t - fpValue c).natAbs ≤ fpUnits n) : smoothPull c t r ≤ fpUnits n := by
  refine fpUnits_le_iff.2 (roundBits_le (Nat.two_pow_pos 149) (Nat.mul_le_mul ?_ hr1))
  exact fpUnits_le_iff.2 (roundBits_le Nat.one_pos (by rwa [Nat.mul_one]))

/-- At a rate of at most one half a step does not move past the target: the rounded distance is at most
twice the largest binary32 size below the distance. -/
theorem smoothPull_le_distance {c t r : F32} (hr : fpMag r ≤ 2 ^ 148) :
    smoothPull c t r ≤ (fpValue t - fpValue c).natAbs := by
  obtain ⟨n, hle, hlt⟩ := exists_units_le (fpValue t - fpValue c).natAbs
  refine le_trans ?_ hle
  rcases Nat.eq_zero_or_pos n with rfl | hn
  · exact smoothPull_le (by omega) (by rw [show fpUnits (0 + 1) = 1 from by decide] at hlt; omega)
  · have hd : fpUnits (roundBits (fpValue t - fpValue c).natAbs 1) ≤ 2 * fpUnits n :=
      (fpUnits_le_iff.2 (roundBits_le Nat.one_pos (by omega))).trans (fpUnits_succ_le_double hn)
    refine fpUnits_le_iff.2 (roundBits_le (Nat.two_pow_pos 149) ?_)
    calc fpUnits (roundBits (fpValue t - fpValue c).natAbs 1) * fpMag r
        ≤ 2 * fpUnits n * 2 ^ 148 := Nat.mul_le_mul hd hr
      _ = fpUnits n * 2 ^ 149 := by ring

section
variable {c t r : F32} (hc : fpIsFinite c = true) (ht : fpIsFinite t = true) (hr : fpIsFinite r = true)
  (hc0 : 0 ≤ fpValue c) (ht0 : 0 ≤ fpValue t) (hr0 : 0 ≤ fpValue r) (hr1 : fpValue r ≤ fpValue fpOne)
include hc ht hr hc0 ht0 hr0 hr1

/-- A smoother step between numbers that are not negative: no NaN on the way, and its value is the
current one moved by `smoothPull` in the direction of the target, rounded. -/
theorem smoothStep_spec {neg : Bool}
    (hneg : fpValue t - fpValue c = signed neg (fpValue t - fpValue c).natAbs) :
    fpIsNaN (smoothStep b32 c t r) = false ∧
    fpValue (smoothStep b32 c t r) = roundInt (fpValue c + signed neg (smoothPull c t r)) := by
  have hr1' : fpMag r ≤ 2 ^ 149 := fpMag_le_of_value_le_one hr0 hr1
  have hdist : fpValue (fpSub t c) =
      signed neg (fpUnits (roundBits (fpValue t - fpValue c).natAbs 1)) :=
    (fpValue_sub ht hc).trans (roundInt_eq_signed hneg)
  have hd : fpIsFinite (fpSub t c) = true := by
    refine fpIsFinite_of_between (lo := fpNeg c) (hi := t) (by rwa [fpIsFinite_neg]) ht ?_ ?_ <;>
      rw [fpValue_sub ht hc]
    · exact le_roundInt (by rw [fpIsNaN_neg, fpIsNaN_of_finite hc]) (by rw [fpValue_neg]; omega)
    · exact roundInt_le (fpIsNaN_of_finite ht) (by omega)
  have hpull : fpValue (fpMul (fpSub t c) r) =
      signed neg (smoothPull c t r) := fpValue_mul_of_nonneg hd hr hr0 hdist
  have hm : fpIsFinite (fpMul (fpSub t c) r) = true := by
    have hle : smoothPull c t r ≤ fpMag fpMaxFinite := by
      refine smoothPull_le hr1' ?_
      have hmag : fpValue fpMaxFinite = (fpUnits (fpBits fpMaxFinite) : Int) := by decide
      rw [fpIsFinite_iff_value, hmag] at hc ht
      omega
    have hmag : fpValue fpMaxFinite = (fpMag fpMaxFinite : Int) := by decide
    rw [fpIsFinite_iff_value, hpull, hmag, ← abs_le, abs_signed, Int.ofNat_le]
    exact hle
  exact ⟨fpIsNaN_add hc hm, (fpValue_add hc hm).trans (by rw [hpull])⟩

theorem smoothStep_up (h : fpValue c ≤ fpValue t) :
    fpValue (smoothStep b32 c t r) = roundInt (fpValue c + smoothPull c t r) := by
  obtain ⟨-, hv⟩ := smoothStep_spec hc ht hr hc0 ht0 hr0 hr1 (sub_eq_signed_false h)
  rw [hv, signed_false]

theorem smoothStep_down (h : fpValue t ≤ fpValue c) :
    fpValue (smoothStep b32 c t r) = roundInt (fpValue c - smoothPull c t r) := by
  obtain ⟨-, hv⟩ := smoothStep_spec hc ht hr hc0 ht0 hr0 hr1 (sub_eq_signed_true h)
  rw [hv, signed_true, Int.sub_eq_add_neg]

theorem smoothStep_not_nan : fpIsNaN (smoothStep b32 c t r) = false := by
  rcases Int.le_total (fpValue c) (fpValue t) with h | h
  · exact (smoothStep_spec hc ht hr hc0 ht0 hr0 hr1 (sub_eq_signed_false h)).1
  · exact (smoothStep_spec hc ht hr hc0 ht0 hr0 hr1 (sub_eq_signed_true h)).1

/-- Toward a target that is not below, a step does not go down. -/
theorem le_smoothStep_of_le (h : fpValue c ≤ fpValue t) : fpValue c ≤ fpValue (smoothStep b32 c t r) := by
  rw [smoothStep_up hc ht hr hc0 ht0 hr0 hr1 h]
  exact le_roundInt (fpIsNaN_of_finite hc) (by omega)

/-- Toward a target that is not above, a step does not go up. -/
theorem smoothStep_le_of_ge (h : fpValue t ≤ fpValue c) : fpValue (smoothStep b32 c t r) ≤ fpValue c := by
  rw [smoothStep_down hc ht hr hc0 ht0 hr0 hr1 h]
  exact roundInt_le (fpIsNaN_of_finite hc) (by omega)

/-- At a rate of at most one half a step does not pass a target above. -/
theorem smoothStep_le_target (hhalf : fpMag r ≤ 2 ^ 148) (h : fpValue c ≤ fpValue t) :
    fpValue (smoothStep b32 c t r) ≤ fpValue t := by
  have hpull := smoothPull_le_distance (c := c) (t := t) hhalf
  rw [smoothStep_up hc ht hr hc0 ht0 hr0 hr1 h]
  exact roundInt_le (fpIsNaN_of_finite ht) (by omega)

/-- At a rate of at most one half a step does not pass a target below. -/
theorem target_le_smoothStep (hhalf : fpMag r ≤ 2 ^ 148) (h : fpValue t ≤ fpValue c) :
    fpValue t ≤ fpValue (smoothStep b32 c t r) := by
  have hpull := smoothPull_le_distance (c := c) (t := t) hhalf
  rw [smoothStep_down hc ht hr hc0 ht0 hr0 hr1 h]
  exact le_roundInt (fpIsNaN_of_finite ht) (by omega)

/-- At a rate of at most one half a step stays in every range that holds both ends. -/
theorem smoothStep_inRange (hhalf : fpMag r ≤ 2 ^ 148) {lo hi : F32} (hlo : fpIsNaN lo = false)
    (hhi : fpIsNaN hi = false) (hcin : inRange c lo hi = true) (htin : inRange t lo hi = true) :
    inRange (smoothStep b32 c t r) lo hi = true := by
  rw [inRange_iff_value hlo hhi] at *
  refine ⟨smoothStep_not_nan hc ht hr hc0 ht0 hr0 hr1, ?_⟩
  rcases Int.le_total (fpValue c) (fpValue t) with h | h
  · have h1 := le_smoothStep_of_le hc ht hr hc0 ht0 hr0 hr1 h
    have h2 := smoothStep_le_target hc ht hr hc0 ht0 hr0 hr1 hhalf h
    omega
  · have h1 := smoothStep_le_of_ge hc ht hr hc0 ht0 hr0 hr1 h
    have h2 := target_le_smoothStep hc ht hr hc0 ht0 hr0 hr1 hhalf h
    omega

/-- At a rate of at most 1 a step toward a target of at most half the largest number stays finite and does
not become negative. (Toward the largest number itself it can overflow: from 3 · 2^103 at rate 1.) -/
theorem smoothStep_finite_nonneg (hroom : 2 * fpValue t ≤ fpValue fpMaxFinite) :
    fpIsFinite (smoothStep b32 c t r) = true ∧ 0 ≤ fpValue (smoothStep b32 c t r) := by
  have hr1' : fpMag r ≤ 2 ^ 149 := fpMag_le_of_value_le_one hr0 hr1
  have hcmag : fpValue c = (fpUnits (fpBits c) : Int) := fpValue_of_nonneg hc0
  have htmag : fpValue t = (fpUnits (fpBits t) : Int) := fpValue_of_nonneg ht0
  rcases Int.le_total (fpValue c) (fpValue t) with h | h
  · have hlow := le_smoothStep_of_le hc ht hr hc0 ht0 hr0 hr1 h
    have hpull : smoothPull c t r ≤ fpUnits (fpBits t) := smoothPull_le hr1' (by omega)
    have hhigh : fpValue (smoothStep b32 c t r) ≤ fpValue fpMaxFinite := by
      rw [smoothStep_up hc ht hr hc0 ht0 hr0 hr1 h]
      exact roundInt_le fpIsNaN_maxFinite (by omega)
    exact ⟨fpIsFinite_of_between hc (by decide) hlow hhigh, by omega⟩
  · have hhigh := smoothStep_le_of_ge hc ht hr hc0 ht0 hr0 hr1 h
    have hpull : smoothPull c t r ≤ fpUnits (fpBits c) := smoothPull_le hr1' (by omega)
    have hlow : fpValue 0#32 ≤ fpValue (smoothStep b32 c t r) := by
      rw [smoothStep_down hc ht hr hc0 ht0 hr0 hr1 h]
      exact le_roundInt (by decide) (by rw [fpValue_posZero]; omega)
    exact ⟨fpIsFinite_of_between (by decide) hc hlow hhigh, by rwa [fpValue_posZero] at hlow⟩

end

/-! ### The phase advance (43_oscillator.md R175) -/

/-- A significand below 2^24 in any binade is a binary32 size. -/
theorem exists_units_eq_mul_pow (k : Nat) {j : Nat} (hj : j < 2 ^ 24) : ∃ n, fpUnits n = j * 2 ^ k := by
  induction k generalizing j with
  | zero => exact ⟨_, fpUnits_binade 0 j hj.le (.inl rfl)⟩
  | succ k ih =>
    rcases Nat.lt_or_ge j (2 ^ 23) with h | h
    · obtain ⟨n, hn⟩ := ih (j := 2 * j) (by omega)
      exact ⟨n, by rw [hn]; ring⟩
    · exact ⟨_, fpUnits_binade (k + 1) j hj.le (.inr h)⟩

/-- The whole part of a binary32 size is a binary32 size. -/
theorem exists_units_eq_floor (n : Nat) : ∃ m, fpUnits m = fpUnits n / 2 ^ 149 * 2 ^ 149 := by
  obtain ⟨k, q, rfl, hq, hk⟩ := exists_binade n
  rw [fpUnits_binade k q hq.le hk]
  rcases Nat.lt_or_ge k 149 with h | h
  · refine exists_units_eq_mul_pow 149 (Nat.div_lt_of_lt_mul ?_)
    calc q * 2 ^ k < 2 ^ 24 * 2 ^ 149 :=
          Nat.mul_lt_mul_of_lt_of_le hq (Nat.pow_le_pow_right (by decide) h.le) (Nat.two_pow_pos 149)
      _ = 2 ^ 149 * 2 ^ 24 := Nat.mul_comm _ _
  · rw [Nat.div_mul_cancel (Dvd.dvd.mul_left (pow_dvd_pow 2 h) q)]
    exact exists_units_eq_mul_pow k hq

/-- The fraction of a binary32 size is at most the largest binary32 number below 1. -/
theorem fraction_le (n : Nat) : fpUnits n % 2 ^ 149 ≤ fpUnits 0x3F7FFFFF := by
  have hlargest : fpUnits 0x3F7FFFFF = (2 ^ 24 - 1) * 2 ^ 125 := by decide
  obtain ⟨k, q, rfl, hq, hk⟩ := exists_binade n
  rw [fpUnits_binade k q hq.le hk, hlargest]
  rcases Nat.lt_or_ge k 125 with h | h
  · refine (Nat.mod_le _ _).trans (Nat.mul_le_mul (by omega) (Nat.pow_le_pow_right (by decide) h.le))
  · have hdvd : 2 ^ 125 ∣ q * 2 ^ k % 2 ^ 149 :=
      (Nat.dvd_mod_iff (pow_dvd_pow 2 (by decide))).2 (Dvd.dvd.mul_left (pow_dvd_pow 2 h) q)
    have hlt : q * 2 ^ k % 2 ^ 149 < 2 ^ 149 := Nat.mod_lt _ (Nat.two_pow_pos 149)
    omega

/-- The floor of a finite number that is not negative is exact. -/
theorem fpFloor_spec {s : F32} (hs : fpIsFinite s = true) (h0 : 0 ≤ fpValue s) :
    fpIsFinite (fpFloor s) = true ∧ fpValue (fpFloor s) = fpValue s / 2 ^ 149 * 2 ^ 149 := by
  obtain ⟨m, hm⟩ := exists_units_eq_floor (fpBits s)
  have hmle : m ≤ fpBits s := fpUnits_le_iff.1 (hm ▸ Nat.div_mul_le_self _ _)
  have hbits : fpBits s < fpInfBits := of_decide_eq_true hs
  have hround : ∀ sign, fpIsFinite (fpRound sign (fpMag s / 2 ^ 149 * 2 ^ 149) 1) = true ∧
      fpValue (fpRound sign (fpMag s / 2 ^ 149 * 2 ^ 149) 1) =
        signed sign (fpMag s / 2 ^ 149 * 2 ^ 149) := by
    intro sign
    have hexact : roundBits (fpMag s / 2 ^ 149 * 2 ^ 149) 1 = m :=
      roundBits_exact Nat.one_pos (by omega) (by rw [Nat.mul_one, hm]; rfl)
    rw [fpIsFinite_round, fpValue_round, hexact, hm, decide_eq_true_eq]
    exact ⟨by omega, rfl⟩
  have hmag := fpValue_of_nonneg h0
  unfold fpFloor
  rw [hs]
  cases hsign : fpSign s
  · obtain ⟨hfin, hval⟩ := hround false
    simp only [Bool.not_true, Bool.false_eq_true, if_false]
    refine ⟨hfin, ?_⟩
    rw [hval, signed_false, hmag]
    push_cast
    rfl
  · have hzero : fpMag s = 0 := by
      rw [fpValue_eq_signed, hsign, signed_true] at h0
      omega
    simp only [Bool.not_true, Bool.false_eq_true, if_false, if_true, hmag, hzero]
    decide

theorem phaseLegal_iff {p : F32} :
    phaseLegal p = true ↔ fpIsNaN p = false ∧ 0 ≤ fpValue p ∧ fpValue p < fpValue fpOne := by
  unfold phaseLegal
  simp only [Bool.and_eq_true, Bool.not_eq_true', and_assoc]
  refine and_congr_right fun hp => ?_
  rw [not_fpLt_iff hp (by decide), fpLt_iff hp (by decide), fpValue_posZero]

theorem phaseLegal_zero : phaseLegal 0#32 = true := by decide

/-- Adding a phase below 1 to a finite number that is not negative does not overflow. -/
theorem fpAdd_phase_finite {p inc : F32} (hp : fpIsFinite p = true) (hi : fpIsFinite inc = true)
    (hp0 : 0 ≤ fpValue p) (hp1 : fpValue p < fpValue fpOne) (hi0 : 0 ≤ fpValue inc) :
    fpIsFinite (fpAdd p inc) = true := by
  have hmax := ((fpIsFinite_iff_value inc).1 hi).2
  rw [fpValue_maxFinite] at hmax
  rw [fpValue_one] at hp1
  rw [← Bool.not_eq_false, fpAdd_overflows_iff hp hi, abs_of_nonneg (by omega)]
  omega

/-- From a legal phase and a finite increment that is not negative the next phase is legal: what is left
above the floor is a binary32 size below 1, so its rounding stays below 1. -/
theorem phaseNext_legal {p inc : F32} (hp : phaseLegal p = true) (hi : fpIsFinite inc = true)
    (hi0 : 0 ≤ fpValue inc) : phaseLegal (phaseNext b32 p inc) = true := by
  obtain ⟨hpnan, hp0, hp1⟩ := phaseLegal_iff.1 hp
  have hpfin : fpIsFinite p = true :=
    fpIsFinite_of_between (lo := 0#32) (hi := fpOne) (by decide) (by decide)
      (by rwa [fpValue_posZero]) hp1.le
  have hsfin := fpAdd_phase_finite hpfin hi hp0 hp1 hi0
  have hs0 : 0 ≤ fpValue (fpAdd p inc) := by
    rw [fpValue_add hpfin hi, ← fpValue_posZero]
    exact le_roundInt (by decide) (by rw [fpValue_posZero]; omega)
  obtain ⟨hffin, hfval⟩ := fpFloor_spec hsfin hs0
  have hfraction : fpValue (fpAdd p inc) - fpValue (fpFloor (fpAdd p inc)) ≤ fpValue 0x3F7FFFFF#32 := by
    have hle := fraction_le (fpBits (fpAdd p inc))
    have hvalue : fpValue 0x3F7FFFFF#32 = (fpUnits 0x3F7FFFFF : Int) := by decide
    rw [hfval, hvalue, fpValue_of_nonneg hs0]
    unfold fpMag
    omega
  have hnonneg : fpValue 0#32 ≤ fpValue (fpAdd p inc) - fpValue (fpFloor (fpAdd p inc)) := by
    rw [fpValue_posZero, hfval]
    omega
  refine phaseLegal_iff.2 ⟨fpIsNaN_sub hsfin hffin, ?_, ?_⟩ <;>
    simp only [phaseNext, b32_fadd, b32_fsub, b32_ffloor] <;> rw [fpValue_sub hsfin hffin]
  · exact fpValue_posZero ▸ le_roundInt (by decide) hnonneg
  · exact (roundInt_le (by decide) hfraction).trans_lt (by decide)

/-! ### Increments (10_state.md R30) -/

/-- The quotient of a number that is not negative by a positive one is not negative, and finite if that
of a larger one is. -/
theorem fpDiv_finite_nonneg {a b sr : F32} (hb : fpIsFinite b = true) (hsr : fpIsFinite sr = true)
    (ha0 : 0 ≤ fpValue a) (hab : fpValue a ≤ fpValue b) (hsr0 : 0 < fpValue sr)
    (hbounded : fpIsFinite (fpDiv b sr) = true) :
    fpIsFinite (fpDiv a sr) = true ∧ 0 ≤ fpValue (fpDiv a sr) := by
  have ha : fpIsFinite a = true :=
    fpIsFinite_of_between (lo := 0#32) (by decide) hb (by rwa [fpValue_posZero]) hab
  have hmag : fpMag a ≤ fpMag b := by
    have hb0 := ha0.trans hab
    rwa [fpValue_of_nonneg ha0, fpValue_of_nonneg hb0, Int.ofNat_le] at hab
  have hpos : 0 < fpMag sr := fpMag_pos hsr0.ne'
  rw [fpDiv_eq_round hb hsr hsr0.ne', fpIsFinite_round, decide_eq_true_eq] at hbounded
  rw [fpDiv_eq_round ha hsr hsr0.ne', fpIsFinite_round, decide_eq_true_eq]
  refine ⟨(roundBits_mono hpos (Nat.mul_le_mul_right _ hmag)).trans_lt hbounded, ?_⟩
  have hsign : fpSign sr = false := by
    rw [fpValue_eq_signed] at hsr0
    cases h : fpSign sr
    · rfl
    · rw [h, signed_true] at hsr0
      omega
  have hsigned := signed_map (s := fpSign a) (t := false)
    (fun n => fpUnits (roundBits (n * 2 ^ 149) (fpMag sr)))
    (by rw [Nat.zero_mul, roundBits_zero hpos, fpUnits_zero]) (fpValue_of_nonneg ha0)
  rw [fpValue_round, hsign, Bool.bne_false]
  exact (Int.natCast_nonneg _).trans hsigned.ge

end Sys2Proof.Proofs
end

section
/-! Every command, and every step, keeps the invariant of the machine. -/

namespace Sys2Proof.Proofs
open Sys2Proof.Machine

/-! ### Ranges with finite bounds -/

theorem finite_of_inRange {v lo hi : F32} (hlo : fpIsFinite lo = true) (hhi : fpIsFinite hi = true)
    (h : inRange v lo hi = true) : fpIsFinite v = true := by
  obtain ⟨-, h1, h2⟩ := (inRange_iff_value (fpIsNaN_of_finite hlo) (fpIsNaN_of_finite hhi)).1 h
  exact fpIsFinite_of_between hlo hhi h1 h2

/-- Finite and not negative, in the words of the invariant. -/
theorem finite_nonneg_iff (v : F32) :
    (fpIsFinite v = true ∧ fpLt v 0#32 = false) ↔ (fpIsFinite v = true ∧ 0 ≤ fpValue v) :=
  and_congr_right fun h => by
    rw [not_fpLt_iff (fpIsNaN_of_finite h) (by decide), fpValue_posZero]

theorem rateAccepted_iff (sr : F32) :
    rateAccepted b32 sr = true ↔ fpIsFinite sr = true ∧ 0 < fpValue sr := by
  unfold rateAccepted
  rw [Bool.and_eq_true]
  refine and_congr_right fun h => ?_
  rw [show b32.fgt sr b32.zero = fpLt 0#32 sr from rfl,
    fpLt_iff (by decide) (fpIsNaN_of_finite h), fpValue_posZero]

/-! ### The frequency range of a filter unit (10_state.md R24) -/

section
variable {cfg : Config F32} {sr : F32} (hcfg : ConfigValid cfg) (hsr : rateAccepted b32 sr = true)
include hcfg hsr

/-- The frequency ceiling is a number that is not negative, and at most half the largest. -/
theorem freqCeiling_spec : fpIsFinite (freqCeiling b32 cfg sr) = true ∧
    0 ≤ fpValue (freqCeiling b32 cfg sr) ∧
    2 * fpValue (freqCeiling b32 cfg sr) ≤ fpValue fpMaxFinite := by
  obtain ⟨hfin, hpos⟩ := (rateAccepted_iff sr).1 hsr
  have hvalue : fpValue (freqCeiling b32 cfg sr) =
      fpUnits (roundBits (fpMag 0x3EE66666#32 * fpMag sr) (2 ^ 149)) := by
    unfold freqCeiling
    rw [hcfg.fFmaxFrac]
    exact fpValue_mul_of_nonneg (by decide) hfin hpos.le (neg := false) (by decide)
  have hhalf : 2 * fpUnits (fpBits 0x7EFFFFFF#32) = fpMag fpMaxFinite := by decide
  have hle : fpUnits (roundBits (fpMag 0x3EE66666#32 * fpMag sr) (2 ^ 149)) ≤
      fpUnits (fpBits 0x7EFFFFFF#32) := by
    refine fpUnits_le_iff.2 (roundBits_le (Nat.two_pow_pos 149) ?_)
    have hfrac : fpMag 0x3EE66666#32 ≤ 2 ^ 148 := by decide
    have hmag : fpMag sr ≤ fpMag fpMaxFinite := by
      have h := ((fpIsFinite_iff_value sr).1 hfin).2
      rwa [fpValue_of_nonneg hpos.le, fpValue_of_nonneg (by decide), Int.ofNat_le] at h
    calc fpMag 0x3EE66666#32 * fpMag sr ≤ 2 ^ 148 * fpMag fpMaxFinite := Nat.mul_le_mul hfrac hmag
      _ = fpUnits (fpBits 0x7EFFFFFF#32) * 2 ^ 149 := by rw [← hhalf]; ring
  have htwice : 2 * fpValue (freqCeiling b32 cfg sr) ≤ fpValue fpMaxFinite := by
    rw [hvalue, fpValue_of_nonneg (a := fpMaxFinite) (by decide)]
    omega
  have h0 : 0 ≤ fpValue (freqCeiling b32 cfg sr) := by
    rw [hvalue]
    exact Int.natCast_nonneg _
  refine ⟨?_, h0, htwice⟩
  rw [fpIsFinite_iff_value]
  omega

/-- The lower end of the frequency range is a number that is not negative and not above the ceiling. -/
theorem freqFloor_spec : fpIsFinite (freqFloor cfg sr) = true ∧ 0 ≤ fpValue (freqFloor cfg sr) ∧
    fpLt (freqCeiling b32 cfg sr) (freqFloor cfg sr) = false := by
  obtain ⟨hfin, h0, -⟩ := freqCeiling_spec hcfg hsr
  unfold freqFloor
  cases hlt : fpLt (freqCeiling b32 cfg sr) cfg.fFmin
  · rw [if_neg Bool.false_ne_true]
    refine ⟨?_, ?_, hlt⟩ <;> rw [hcfg.fFmin] <;> decide
  · rw [if_pos rfl]
    exact ⟨hfin, h0, (not_fpLt_iff (fpIsNaN_of_finite hfin) (fpIsNaN_of_finite hfin)).2 le_rfl⟩

/-- A frequency clamped as F_SET_FREQ and F_CREATE clamp it lies in the unit's range, be the range
proper or shrunk to the ceiling. -/
theorem clamp_freq_inRange {v : F32} (hv : fpIsNaN v = false) :
    inRange (clamp b32 v cfg.fFmin (freqCeiling b32 cfg sr)) (freqFloor cfg sr)
      (freqCeiling b32 cfg sr) = true := by
  have hceil := fpIsNaN_of_finite (freqCeiling_spec hcfg hsr).1
  have hmin : fpIsNaN cfg.fFmin = false := by rw [hcfg.fFmin]; decide
  unfold freqFloor
  cases hlt : fpLt (freqCeiling b32 cfg sr) cfg.fFmin
  · exact clamp_inRange hv hmin hceil hlt
  · rw [clamp_of_empty hv hlt, if_pos rfl, inRange_iff_value hceil hceil]
    exact ⟨hceil, le_rfl, le_rfl⟩

/-- A number of the unit's frequency range is finite, not negative and at most half the largest. -/
theorem number_of_freq_inRange {v : F32}
    (h : inRange v (freqFloor cfg sr) (freqCeiling b32 cfg sr) = true) :
    fpIsFinite v = true ∧ 0 ≤ fpValue v ∧ 2 * fpValue v ≤ fpValue fpMaxFinite := by
  obtain ⟨hcfin, -, hctwice⟩ := freqCeiling_spec hcfg hsr
  obtain ⟨hffin, hf0, -⟩ := freqFloor_spec hcfg hsr
  obtain ⟨-, h1, h2⟩ := (inRange_iff_value (fpIsNaN_of_finite hffin) (fpIsNaN_of_finite hcfin)).1 h
  exact ⟨finite_of_inRange hffin hcfin h, by omega, by omega⟩

end

/-! ### The resonance and the rate -/

/-- A number of the resonance range is finite, not negative and at most half the largest. -/
theorem number_of_res_inRange {cfg : Config F32} (hcfg : ConfigValid cfg) {v : F32}
    (h : inRange v cfg.resMin cfg.resMax = true) :
    fpIsFinite v = true ∧ 0 ≤ fpValue v ∧ 2 * fpValue v ≤ fpValue fpMaxFinite := by
  rw [hcfg.resMin, hcfg.resMax] at h
  obtain ⟨-, h1, h2⟩ := (inRange_iff_value (by decide) (by decide)).1 h
  have hlo : fpValue standardConfig.resMin = 0 := by decide
  have hhi : 2 * fpValue standardConfig.resMax ≤ fpValue fpMaxFinite := by decide
  exact ⟨finite_of_inRange (by decide) (by decide) h, by omega, by omega⟩

/-- A legal smoothing rate is a number between 0 and 1, and at most one half in the default build. -/
theorem number_of_smooth_inRange {cfg : Config F32} (hcfg : ConfigValid cfg) {v : F32}
    (h : inRange v cfg.smoothMin cfg.smoothMax = true) :
    fpIsFinite v = true ∧ 0 ≤ fpValue v ∧ fpValue v ≤ fpValue fpOne ∧
      (cfg.smoothMax = standardConfig.smoothMax → fpMag v ≤ 2 ^ 148) := by
  have hmax : fpIsFinite cfg.smoothMax = true ∧ fpValue cfg.smoothMax ≤ fpValue fpOne := by
    rcases hcfg.smoothMax with heq | heq <;> rw [heq] <;> decide
  have hlo : fpValue standardConfig.smoothMin = 0 := by decide
  rw [hcfg.smoothMin] at h
  obtain ⟨-, h1, h2⟩ := (inRange_iff_value (by decide) (fpIsNaN_of_finite hmax.1)).1 h
  have h0 : 0 ≤ fpValue v := by omega
  refine ⟨finite_of_inRange (by decide) hmax.1 h, h0, by omega, fun heq => ?_⟩
  have hhalf : fpValue standardConfig.smoothMax ≤ 2 ^ 148 := by decide
  rw [heq] at h2
  rw [fpValue_of_nonneg h0] at h2
  omega

/-! ### What the setters store -/

/-- The lowest oscillator frequency is positive in every build. -/
theorem oscFmin_spec {cfg : Config F32} (hcfg : ConfigValid cfg) :
    fpIsNaN cfg.oscFmin = false ∧ 0 ≤ fpValue cfg.oscFmin := by
  rcases hcfg.oscFmin with heq | heq <;> rw [heq] <;> decide

section
variable {cfg : Config F32} (hcfg : ConfigValid cfg) {v : F32} (hv : fpIsNaN v = false)
include hcfg hv

theorem clamp_res_inRange : inRange (clamp b32 v cfg.resMin cfg.resMax) cfg.resMin cfg.resMax = true := by
  rw [hcfg.resMin, hcfg.resMax]
  exact clamp_inRange hv (by decide) (by decide) (by decide)

theorem clamp_smooth_inRange :
    inRange (clamp b32 v cfg.smoothMin cfg.smoothMax) cfg.smoothMin cfg.smoothMax = true := by
  rw [hcfg.smoothMin]
  rcases hcfg.smoothMax with heq | heq <;> rw [heq] <;>
    exact clamp_inRange hv (by decide) (by decide) (by decide)

theorem clamp_oscFreq_inRange :
    inRange (clamp b32 v cfg.oscFmin cfg.oscFmax) cfg.oscFmin cfg.oscFmax = true :=
  clamp_inRange hv (oscFmin_spec hcfg).1 (fpIsNaN_of_finite hcfg.oscFmax.1) hcfg.oscFmax.2

theorem clamp_amp_inRange : inRange (clamp b32 v cfg.ampMin cfg.ampMax) cfg.ampMin cfg.ampMax = true := by
  rw [hcfg.ampMin, hcfg.ampMax]
  exact clamp_inRange hv (by decide) (by decide) (by decide)

end

/-! ### Filter units -/

/-- F_CREATE makes a legal unit. -/
theorem newFilter_legal {cfg : Config F32} {sr : F32} (hcfg : ConfigValid cfg)
    (hsr : rateAccepted b32 sr = true) : FilterLegal cfg (newFilter b32 cfg sr) := by
  have hfreq := clamp_freq_inRange hcfg hsr hcfg.defFreq
  obtain ⟨hffin, hf0, -⟩ := number_of_freq_inRange hcfg hsr hfreq
  obtain ⟨hrfin, hr0, -⟩ := number_of_res_inRange hcfg hcfg.defRes
  exact {
    sampleRate := hsr
    tgtFreq := hfreq
    tgtRes := hcfg.defRes
    smooth := hcfg.defSmooth
    coefs := rfl
    curFreqNumber := (finite_nonneg_iff _).2 ⟨hffin, hf0⟩
    curResNumber := (finite_nonneg_iff _).2 ⟨hrfin, hr0⟩
    curFreq := fun _ => hfreq
    curRes := fun _ => hcfg.defRes }

section
variable {cfg : Config F32} {f : FilterUnit F32} (h : FilterLegal cfg f)
include h

/-- The delay line is free. -/
theorem filterLegal_withDelay (x1 x2 y1 y2 : F32) :
    FilterLegal cfg { f with x1 := x1, x2 := x2, y1 := y1, y2 := y2 } :=
  { h with }

theorem filterLegal_withTgtFreq {v : F32}
    (hv : inRange v (freqFloor cfg f.sampleRate) (freqCeiling b32 cfg f.sampleRate) = true) :
    FilterLegal cfg { f with tgtFreq := v } :=
  { h with tgtFreq := hv }

theorem filterLegal_withTgtRes {v : F32} (hv : inRange v cfg.resMin cfg.resMax = true) :
    FilterLegal cfg { f with tgtRes := v } :=
  { h with tgtRes := hv }

theorem filterLegal_withSmooth {v : F32} (hv : inRange v cfg.smoothMin cfg.smoothMax = true) :
    FilterLegal cfg { f with smooth := v } :=
  { h with smooth := hv }

/-- New coefficients keep `B2 = B0` (41_coefficients.md R123). -/
theorem filterLegal_withCoefs (fr r sr : F32) : FilterLegal cfg (f.withCoefs (coef b32 cfg fr r sr)) :=
  { h with coefs := rfl }

/-- The advance of the two current values keeps a unit legal. -/
theorem filterLegal_advance (hcfg : ConfigValid cfg) :
    FilterLegal cfg { f with
      curFreq := smoothStep b32 f.curFreq f.tgtFreq f.smooth
      curRes := smoothStep b32 f.curRes f.tgtRes f.smooth } := by
  obtain ⟨hsfin, hs0, hs1, hshalf⟩ := number_of_smooth_inRange hcfg h.smooth
  obtain ⟨htffin, htf0, htfroom⟩ := number_of_freq_inRange hcfg h.sampleRate h.tgtFreq
  obtain ⟨htrfin, htr0, htrroom⟩ := number_of_res_inRange hcfg h.tgtRes
  obtain ⟨hcffin, hcf0⟩ := (finite_nonneg_iff _).1 h.curFreqNumber
  obtain ⟨hcrfin, hcr0⟩ := (finite_nonneg_iff _).1 h.curResNumber
  have hceil := (freqCeiling_spec hcfg h.sampleRate).1
  have hfloor := (freqFloor_spec hcfg h.sampleRate).1
  have hmin : fpIsNaN cfg.resMin = false := by rw [hcfg.resMin]; decide
  have hmax : fpIsNaN cfg.resMax = false := by rw [hcfg.resMax]; decide
  exact { h with
    curFreqNumber := (finite_nonneg_iff _).2
      (smoothStep_finite_nonneg hcffin htffin hsfin hcf0 htf0 hs0 hs1 htfroom)
    curResNumber := (finite_nonneg_iff _).2
      (smoothStep_finite_nonneg hcrfin htrfin hsfin hcr0 htr0 hs0 hs1 htrroom)
    curFreq := fun hbuild => smoothStep_inRange hcffin htffin hsfin hcf0 htf0 hs0 hs1 (hshalf hbuild)
      (fpIsNaN_of_finite hfloor) (fpIsNaN_of_finite hceil) (h.curFreq hbuild) h.tgtFreq
    curRes := fun hbuild => smoothStep_inRange hcrfin htrfin hsfin hcr0 htr0 hs0 hs1 (hshalf hbuild)
      hmin hmax (h.curRes hbuild) h.tgtRes }

theorem filterLegal_blockUpdate (hcfg : ConfigValid cfg) : FilterLegal cfg (blockUpdate b32 cfg f) := by
  obtain ⟨f', hf', heq | heq⟩ := blockUpdate_cases b32 cfg f <;> rw [heq]
  · exact hf' ▸ filterLegal_advance h hcfg
  · exact filterLegal_withCoefs (hf' ▸ filterLegal_advance h hcfg) _ _ _

theorem filterLegal_filterLoop (n a : Nat) (m : Memory) : FilterLegal cfg (filterLoop n a f m).1 := by
  obtain ⟨x1, x2, y1, y2, heq⟩ := filterLoop_unit n a f m
  rw [heq]
  exact filterLegal_withDelay h x1 x2 y1 y2

end

/-! ### Oscillator units -/

/-- O_CREATE makes a legal unit. -/
theorem newOsc_legal {cfg : Config F32} {sr : F32} (hcfg : ConfigValid cfg)
    (hsr : rateAccepted b32 sr = true) : OscLegal cfg (newOsc b32 cfg sr) where
  sampleRate := hsr
  freq := hcfg.defOscFreq
  amp := hcfg.defAmp
  inc := rfl
  phase _ := phaseLegal_zero

section
variable {cfg : Config F32} {o : OscUnit F32} (h : OscLegal cfg o)
include h

theorem oscLegal_withFreq {v : F32} (hv : inRange v cfg.oscFmin cfg.oscFmax = true) :
    OscLegal cfg { o with freq := v, inc := b32.fdiv v o.sampleRate } :=
  { h with freq := hv, inc := rfl }

theorem oscLegal_withAmp {v : F32} (hv : inRange v cfg.ampMin cfg.ampMax = true) :
    OscLegal cfg { o with amp := v } :=
  { h with amp := hv }

theorem oscLegal_withWave (k : BitVec 2) : OscLegal cfg { o with wave := k } := { h with }

theorem oscLegal_withPhase {p : F32} (hp : incBounded cfg o.sampleRate = true → phaseLegal p = true) :
    OscLegal cfg { o with phase := p } :=
  { h with phase := hp }

/-- Where no frequency overflows the increment, a legal unit's increment is finite and not negative. -/
theorem oscLegal_inc_finite_nonneg (hcfg : ConfigValid cfg) (hb : incBounded cfg o.sampleRate = true) :
    fpIsFinite o.inc = true ∧ 0 ≤ fpValue o.inc := by
  obtain ⟨hsrfin, hsr0⟩ := (rateAccepted_iff _).1 h.sampleRate
  obtain ⟨hminnan, hmin0⟩ := oscFmin_spec hcfg
  obtain ⟨-, h1, h2⟩ :=
    (inRange_iff_value hminnan (fpIsNaN_of_finite hcfg.oscFmax.1)).1 h.freq
  rw [h.inc]
  exact fpDiv_finite_nonneg hcfg.oscFmax.1 hsrfin (by omega) h2 hsr0 hb

theorem oscLegal_oscLoop (hcfg : ConfigValid cfg) (n a : Nat) (m : Memory) :
    OscLegal cfg (oscLoop cfg n a o m).1 := by
  rw [oscLoop_unit]
  refine oscLegal_withPhase h fun hb => ?_
  obtain ⟨hifin, hi0⟩ := oscLegal_inc_finite_nonneg h hcfg hb
  exact Function.Iterate.rec (fun p => phaseLegal p = true) (h.phase hb)
    (fun p hp => phaseNext_legal hp hifin hi0) n

end

/-! ### The invariant and the operations on the state -/

section
variable {s : State} (h : s.Inv)
include h

/-- The invariant speaks of the build, the two banks and the memory only. -/
theorem inv_of_same {t : State} (hcfg : t.cfg = s.cfg) (hfilters : t.filters = s.filters)
    (hoscs : t.oscs = s.oscs) (hmem : t.mem = s.mem) : t.Inv := by
  obtain ⟨cfg, filters, oscs, result, clamp, noop, mem, host⟩ := t
  subst hcfg hfilters hoscs hmem
  exact { h with }

theorem inv_noopEvent : (noopEvent s).Inv := inv_of_same h rfl rfl rfl rfl

theorem inv_clampEvent : (clampEvent s).Inv := inv_of_same h rfl rfl rfl rfl

theorem inv_setResult (v : Word) : (s.setResult v).Inv := inv_of_same h rfl rfl rfl rfl

theorem inv_withHost (rest : List HostAction) : ({ s with host := rest } : State).Inv :=
  inv_of_same h rfl rfl rfl rfl

theorem inv_withMem {m : Memory} (hwf : m.wf = true) (hin : m.inside s.cfg.memWords = true) :
    ({ s with mem := m } : State).Inv :=
  { h with wf := hwf, inside := hin }

/-- Ending a filter unit, or writing legal registers to it. -/
theorem inv_setFilter (u : Nat) {x : Option (FilterUnit F32)} (hx : ∀ f, x = some f → FilterLegal s.cfg f) :
    (s.setFilter u x).Inv :=
  { h with
    nf := by rw [setFilter_filters, List.length_set]; exact h.nf
    filters := fun v f hf => by
      rcases eq_or_ne v u with rfl | hne
      · have hlt : v < s.filters.length := by
          have hlive := filter_lt_of_live hf
          rwa [setFilter_filters, List.length_set] at hlive
        exact hx f ((filter?_setFilter_self x hlt).symm.trans hf)
      · exact h.filters v f ((filter?_setFilter_of_ne x hne).symm.trans hf) }

theorem inv_writeFilter (u : Nat) {f : FilterUnit F32} (hf : FilterLegal s.cfg f) :
    (s.setFilter u (some f)).Inv :=
  inv_setFilter h u fun _ heq => Option.some.inj heq ▸ hf

/-- Ending an oscillator unit, or writing legal registers to it. -/
theorem inv_setOsc (u : Nat) {x : Option (OscUnit F32)} (hx : ∀ o, x = some o → OscLegal s.cfg o) :
    (s.setOsc u x).Inv :=
  { h with
    no := by rw [setOsc_oscs, List.length_set]; exact h.no
    oscs := fun v o ho => by
      rcases eq_or_ne v u with rfl | hne
      · have hlt : v < s.oscs.length := by
          have hlive := osc_lt_of_live ho
          rwa [setOsc_oscs, List.length_set] at hlive
        exact hx o ((osc?_setOsc_self x hlt).symm.trans ho)
      · exact h.oscs v o ((osc?_setOsc_of_ne x hne).symm.trans ho) }

theorem inv_writeOsc (u : Nat) {o : OscUnit F32} (ho : OscLegal s.cfg o) :
    (s.setOsc u (some o)).Inv :=
  inv_setOsc h u fun _ heq => Option.some.inj heq ▸ ho

end

theorem filter?_hreset (cells : List Host.Cell) (s : State) (u : Nat) :
    (hreset cells s).filter? u = none := by
  change ((List.replicate s.filters.length none)[u]?).join = none
  rw [List.getElem?_replicate]
  split <;> rfl

theorem osc?_hreset (cells : List Host.Cell) (s : State) (u : Nat) : (hreset cells s).osc? u = none := by
  change ((List.replicate s.oscs.length none)[u]?).join = none
  rw [List.getElem?_replicate]
  split <;> rfl

theorem filters_length_hreset (cells : List Host.Cell) (s : State) :
    (hreset cells s).filters.length = s.filters.length := List.length_replicate

theorem oscs_length_hreset (cells : List Host.Cell) (s : State) :
    (hreset cells s).oscs.length = s.oscs.length := List.length_replicate

/-- HRESET leaves no unit live and a canonical memory, whatever its contents. -/
theorem inv_hreset {s : State} (h : s.Inv) (cells : List Host.Cell) : (hreset cells s).Inv where
  cfg := h.cfg
  nf := (filters_length_hreset cells s).symm ▸ h.nf
  no := (oscs_length_hreset cells s).symm ▸ h.no
  filters u _ hf := nomatch (filter?_hreset cells s u).symm.trans hf
  oscs u _ ho := nomatch (osc?_hreset cells s u).symm.trans ho
  wf := wf_memOfCells _ _
  inside := inside_memOfCells _ _

/-! ### Answers that keep the invariant -/

/-- If there is a next state, it meets the invariant. -/
def KeepsInv (a : Answer) : Prop := ∀ t, a = .next t → t.Inv

theorem keepsInv_next {t : State} (h : t.Inv) : KeepsInv (.next t) :=
  fun _ heq => Host.Outcome.next.inj heq ▸ h

section
variable {s : State} (h : s.Inv)
include h

theorem keepsInv_noop (c : NoopCause) : KeepsInv (noop c s) := keepsInv_next (inv_noopEvent h)

theorem keepsInv_onFilter (u : Nat) {k : FilterUnit F32 → Answer}
    (hk : ∀ f, FilterLegal s.cfg f → KeepsInv (k f)) : KeepsInv (onFilter u s k) := by
  cases hf : s.filter? u with
  | none => rw [onFilter_of_dead k hf]; exact keepsInv_noop h .n2
  | some f => rw [onFilter_of_live k hf]; exact hk f (h.filters u f hf)

theorem keepsInv_onOsc (u : Nat) {k : OscUnit F32 → Answer}
    (hk : ∀ o, OscLegal s.cfg o → KeepsInv (k o)) : KeepsInv (onOsc u s k) := by
  cases ho : s.osc? u with
  | none => rw [onOsc_of_dead k ho]; exact keepsInv_noop h .n2
  | some o => rw [onOsc_of_live k ho]; exact hk o (h.oscs u o ho)

/-- A setter: it is enough that storing the clamped number, in a state with the same build, keeps the
invariant. -/
theorem keepsInv_setClamped (v lo hi : F32) {store : F32 → State → State}
    (hstore : fpIsNaN v = false → ∀ t : State, t.Inv → t.cfg = s.cfg →
      (store (clamp b32 v lo hi) t).Inv) :
    KeepsInv (setClamped v lo hi s store) := by
  rcases setClamped_cases v lo hi s store with ⟨-, heq⟩ | ⟨hv, -, heq⟩ | ⟨hv, -, heq⟩ <;> rw [heq]
  · exact keepsInv_noop h .n4
  · exact keepsInv_next (hstore hv s h rfl)
  · exact keepsInv_next (hstore hv _ (inv_clampEvent h) rfl)

theorem keepsInv_onBuffer (ptr count : Word) {k : Answer}
    (hk : ptr.toNat + count.toNat ≤ s.cfg.memWords → KeepsInv k) : KeepsInv (onBuffer ptr count s k) := by
  rcases onBuffer_cases ptr count s k with ⟨-, heq⟩ | ⟨-, hin, heq⟩ | ⟨-, -, heq⟩ <;> rw [heq]
  · exact keepsInv_noop h .n3
  · exact hk (of_decide_eq_true hin)
  · exact fun _ hne => nomatch hne

theorem keepsInv_peekResult (o : Option Word) : KeepsInv (peekResult s o) := by
  cases o with
  | none => exact keepsInv_noop h .n6
  | some v => exact keepsInv_next (inv_setResult h v)

/-! ### The commands -/

theorem keepsInv_fCreate (u : Nat) (sr : F32) : KeepsInv (execFCreate u sr s) := by
  unfold execFCreate
  split
  · exact keepsInv_noop h .n2
  · split
    · next hsr => exact keepsInv_next (inv_writeFilter h u (newFilter_legal h.cfg hsr))
    · exact keepsInv_noop h .n5

theorem keepsInv_fDestroy (u : Nat) : KeepsInv (execFDestroy u s) :=
  keepsInv_onFilter h u fun _ _ => keepsInv_next (inv_setFilter h u fun _ heq => nomatch heq)

theorem keepsInv_fSetFreq (u : Nat) (hz : F32) : KeepsInv (execFSetFreq u hz s) :=
  keepsInv_onFilter h u fun _ hf => keepsInv_setClamped h _ _ _ fun hv _ ht hcfg =>
    inv_writeFilter ht u (hcfg.symm ▸ filterLegal_withTgtFreq hf (clamp_freq_inRange h.cfg hf.sampleRate hv))

theorem keepsInv_fSetRes (u : Nat) (r : F32) : KeepsInv (execFSetRes u r s) :=
  keepsInv_onFilter h u fun _ hf => keepsInv_setClamped h _ _ _ fun hv _ ht hcfg =>
    inv_writeFilter ht u (hcfg.symm ▸ filterLegal_withTgtRes hf (clamp_res_inRange h.cfg hv))

theorem keepsInv_fSetSmooth (u : Nat) (rate : F32) : KeepsInv (execFSetSmooth u rate s) :=
  keepsInv_onFilter h u fun _ hf => keepsInv_setClamped h _ _ _ fun hv _ ht hcfg =>
    inv_writeFilter ht u (hcfg.symm ▸ filterLegal_withSmooth hf (clamp_smooth_inRange h.cfg hv))

theorem keepsInv_fProcess (u : Nat) (ptr count : Word) : KeepsInv (execFProcess u ptr count s) :=
  keepsInv_onFilter h u fun _ hf => keepsInv_onBuffer h ptr count fun hin => keepsInv_next <|
    inv_withMem (inv_writeFilter h u (filterLegal_filterLoop (filterLegal_blockUpdate hf h.cfg) _ _ _))
      (filterLoop_wf _ _ _ h.wf) (filterLoop_inside _ _ _ h.inside hin)

theorem keepsInv_fReset (u : Nat) : KeepsInv (execFReset u s) :=
  keepsInv_onFilter h u fun _ hf => keepsInv_next (inv_writeFilter h u (filterLegal_withDelay hf _ _ _ _))

theorem keepsInv_fPeek (u : Nat) (sel : Word) : KeepsInv (execFPeek u sel s) := by
  unfold execFPeek
  split
  · exact keepsInv_next (inv_setResult h _)
  · exact keepsInv_onFilter h u fun _ _ => keepsInv_peekResult h _

theorem keepsInv_oCreate (u : Nat) (sr : F32) : KeepsInv (execOCreate u sr s) := by
  unfold execOCreate
  split
  · exact keepsInv_noop h .n2
  · split
    · next hsr => exact keepsInv_next (inv_writeOsc h u (newOsc_legal h.cfg hsr))
    · exact keepsInv_noop h .n5

theorem keepsInv_oDestroy (u : Nat) : KeepsInv (execODestroy u s) :=
  keepsInv_onOsc h u fun _ _ => keepsInv_next (inv_setOsc h u fun _ heq => nomatch heq)

theorem keepsInv_oSetFreq (u : Nat) (hz : F32) : KeepsInv (execOSetFreq u hz s) :=
  keepsInv_onOsc h u fun _ ho => keepsInv_setClamped h _ _ _ fun hv _ ht hcfg =>
    inv_writeOsc ht u (hcfg.symm ▸ oscLegal_withFreq ho (clamp_oscFreq_inRange h.cfg hv))

theorem keepsInv_oSetAmp (u : Nat) (amp : F32) : KeepsInv (execOSetAmp u amp s) :=
  keepsInv_onOsc h u fun _ ho => keepsInv_setClamped h _ _ _ fun hv _ ht hcfg =>
    inv_writeOsc ht u (hcfg.symm ▸ oscLegal_withAmp ho (clamp_amp_inRange h.cfg hv))

theorem keepsInv_oSetWave (u : Nat) (code : Word) : KeepsInv (execOSetWave u code s) :=
  keepsInv_onOsc h u fun _ ho => by
    cases waveOfCode code with
    | none => exact keepsInv_next (inv_writeOsc (inv_clampEvent h) u (oscLegal_withWave ho _))
    | some k => exact keepsInv_next (inv_writeOsc h u (oscLegal_withWave ho k))

theorem keepsInv_oProcess (u : Nat) (ptr count : Word) : KeepsInv (execOProcess u ptr count s) :=
  keepsInv_onOsc h u fun _ ho => keepsInv_onBuffer h ptr count fun hin => keepsInv_next <|
    inv_withMem (inv_writeOsc h u (oscLegal_oscLoop ho h.cfg _ _ _))
      (oscLoop_wf _ _ _ _ h.wf) (oscLoop_inside _ _ _ _ h.inside hin)

theorem keepsInv_oReset (u : Nat) : KeepsInv (execOReset u s) :=
  keepsInv_onOsc h u fun _ ho => keepsInv_next <|
    inv_writeOsc h u (oscLegal_withPhase ho fun _ => phaseLegal_zero)

theorem keepsInv_oPeek (u : Nat) (sel : Word) : KeepsInv (execOPeek u sel s) := by
  unfold execOPeek
  split
  · exact keepsInv_next (inv_setResult h _)
  · exact keepsInv_onOsc h u fun _ _ => keepsInv_peekResult h _

/-- Every command keeps the invariant. -/
theorem keepsInv_exec (i : Instr) : KeepsInv (exec i s) := by
  cases i with
  | fCreate u sr => exact keepsInv_fCreate h u sr
  | fDestroy u => exact keepsInv_fDestroy h u
  | fSetFreq u hz => exact keepsInv_fSetFreq h u hz
  | fSetRes u r => exact keepsInv_fSetRes h u r
  | fSetSmooth u rate => exact keepsInv_fSetSmooth h u rate
  | fProcess u ptr count => exact keepsInv_fProcess h u ptr count
  | fReset u => exact keepsInv_fReset h u
  | fPeek u sel => exact keepsInv_fPeek h u sel
  | oCreate u sr => exact keepsInv_oCreate h u sr
  | oDestroy u => exact keepsInv_oDestroy h u
  | oSetFreq u hz => exact keepsInv_oSetFreq h u hz
  | oSetAmp u amp => exact keepsInv_oSetAmp h u amp
  | oSetWave u code => exact keepsInv_oSetWave h u code
  | oProcess u ptr count => exact keepsInv_oProcess h u ptr count
  | oReset u => exact keepsInv_oReset h u
  | oPeek u sel => exact keepsInv_oPeek h u sel
  | uClamp v lo hi => exact keepsInv_next (inv_setResult h _)
  | uLerp a b t => exact keepsInv_next (inv_setResult h _)
  | uDb2Lin db => exact keepsInv_next (inv_setResult h _)
  | uLin2Db lin => exact keepsInv_next (inv_setResult h _)
  | dPeek sel => exact keepsInv_peekResult h _

/-! ### The step -/

theorem keepsInv_runWord (w : Command) : KeepsInv (runWord w s) := by
  unfold runWord
  split
  · exact keepsInv_exec h _
  · exact keepsInv_noop h .n1

theorem keepsInv_hostWrite (addr value : Word) : KeepsInv (hostWrite addr value s) := by
  unfold hostWrite
  split
  · next hlt =>
    exact keepsInv_next (inv_withMem h (wf_memWrite h.wf _ _) (inside_memWrite h.inside _ hlt))
  · exact fun _ hne => nomatch hne

theorem keepsInv_step : KeepsInv (step s) := by
  cases hhost : s.host with
  | nil => rw [step_idle hhost]; exact keepsInv_next h
  | cons a rest =>
    have h' := inv_withHost h rest
    cases a with
    | command w => rw [step_command hhost]; exact keepsInv_runWord h' w
    | write addr value => rw [step_write hhost]; exact keepsInv_hostWrite h' addr value
    | hreset cells => rw [step_hreset hhost]; exact keepsInv_next (inv_hreset h' cells)

end

/-- Settles O8: a case for every action of the host, and for every command of a command word. -/
theorem stepKeepsInvariant : Obligations.StepKeepsInvariant := fun _ t h => keepsInv_step h t

end Sys2Proof.Proofs
end

section
/-! What a filter or an oscillator command does to the state, and what of the state its effect depends on
(10_state.md R42, 60_exceptions.md R231): one relation a family of commands, from which the frames, the
writers of each register and the independence of the units follow. Before it, the reset state and the
counters. -/

namespace Sys2Proof.Proofs
open Sys2Proof.Machine

/-! ### The reset state -/

theorem standardConfig_valid : ConfigValid standardConfig := by
  constructor <;> decide

/-- Settles O9: the standard build is a legal one, and HRESET leaves no unit live to break a range. -/
theorem resetMeetsInvariant : Obligations.ResetMeetsInvariant where
  cfg := standardConfig_valid
  nf := by decide
  no := by decide
  filters u _ hf := nomatch (filter?_hreset [] State.reset u).symm.trans hf
  oscs u _ ho := nomatch (osc?_hreset [] State.reset u).symm.trans ho
  wf := rfl
  inside := rfl

/-! ### The counters (10_state.md R35) -/

/-- A counter stays or rises by one, up to its greatest value. -/
def CounterRises (c d : Word) : Prop := d = c ∨ d.toNat = min (c.toNat + 1) 0xFFFFFFFF

theorem counterRises_refl (c : Word) : CounterRises c c := .inl rfl

theorem counterRises_satInc (c : Word) : CounterRises c (satInc c) := .inr (satInc_toNat c)

theorem counters_exec {i : Instr} {s t : State} (h : exec i s = .next t) :
    CounterRises s.diagNoop t.diagNoop ∧ CounterRises s.diagClamp t.diagClamp := by
  rcases exec_next_cases h with rfl | ⟨_, rfl⟩ | ⟨_, _, rfl | rfl⟩ | ⟨_, _, rfl | rfl⟩ | ⟨_, _, _, rfl⟩ |
    ⟨_, _, _, rfl⟩
  · exact ⟨counterRises_satInc _, counterRises_refl _⟩
  · exact ⟨counterRises_refl _, counterRises_refl _⟩
  · exact ⟨counterRises_refl _, counterRises_refl _⟩
  · exact ⟨counterRises_refl _, counterRises_satInc _⟩
  · exact ⟨counterRises_refl _, counterRises_refl _⟩
  · exact ⟨counterRises_refl _, counterRises_satInc _⟩
  · exact ⟨counterRises_refl _, counterRises_refl _⟩
  · exact ⟨counterRises_refl _, counterRises_refl _⟩

theorem counters_runWord {w : Command} {s t : State} (h : runWord w s = .next t) :
    CounterRises s.diagNoop t.diagNoop ∧ CounterRises s.diagClamp t.diagClamp := by
  unfold runWord at h
  split at h
  · exact counters_exec h
  · obtain rfl := Host.Outcome.next.inj h
    exact ⟨counterRises_satInc _, counterRises_refl _⟩

theorem counters_hostWrite {a v : Word} {s t : State} (h : hostWrite a v s = .next t) :
    t.diagNoop = s.diagNoop ∧ t.diagClamp = s.diagClamp := by
  unfold hostWrite at h
  split at h
  · obtain rfl := Host.Outcome.next.inj h
    exact ⟨rfl, rfl⟩
  · exact nomatch h

/-- Settles O40: a case for every action of the host; of them a command word alone reaches a counter. -/
theorem countersOnlyRise : Obligations.CountersOnlyRise := by
  intro s t h hno
  cases hhost : s.host with
  | nil =>
    rw [step_idle hhost] at h
    obtain rfl := Host.Outcome.next.inj h
    exact ⟨counterRises_refl _, counterRises_refl _⟩
  | cons a rest =>
    cases a with
    | command w => rw [step_command hhost] at h; exact counters_runWord (s := { s with host := rest }) h
    | write a v =>
      rw [step_write hhost] at h
      obtain ⟨hn, hc⟩ := counters_hostWrite h
      exact ⟨.inl hn, .inl hc⟩
    | hreset cells => exact absurd hhost (hno cells rest)

/-! ### Two runs side by side -/

/-- If the first run has a next state then so has the second, and the two next states are related. -/
def Agree (R : State → State → Prop) (a a' : Answer) : Prop :=
  ∀ t, a = .next t → ∃ t', a' = .next t' ∧ R t t'

section
variable {R : State → State → Prop}

theorem agree_next {t t' : State} (h : R t t') : Agree R (.next t) (.next t') :=
  fun _ heq => ⟨t', rfl, Host.Outcome.next.inj heq ▸ h⟩

variable {s s' : State} (hnoop : R (noopEvent s) (noopEvent s'))
include hnoop

theorem agree_onFilter {u : Nat} {k k' : FilterUnit F32 → Answer} (hu : s'.filter? u = s.filter? u)
    (hk : ∀ f, s.filter? u = some f → Agree R (k f) (k' f)) :
    Agree R (onFilter u s k) (onFilter u s' k') := by
  cases hf : s.filter? u with
  | none => rw [onFilter_of_dead k hf, onFilter_of_dead k' (hu.trans hf)]; exact agree_next hnoop
  | some f => rw [onFilter_of_live k hf, onFilter_of_live k' (hu.trans hf)]; exact hk f hf

theorem agree_onOsc {u : Nat} {k k' : OscUnit F32 → Answer} (hu : s'.osc? u = s.osc? u)
    (hk : ∀ o, s.osc? u = some o → Agree R (k o) (k' o)) :
    Agree R (onOsc u s k) (onOsc u s' k') := by
  cases ho : s.osc? u with
  | none => rw [onOsc_of_dead k ho, onOsc_of_dead k' (hu.trans ho)]; exact agree_next hnoop
  | some o => rw [onOsc_of_live k ho, onOsc_of_live k' (hu.trans ho)]; exact hk o ho

theorem agree_setClamped (v lo hi : F32) {store : F32 → State → State}
    (hstore : ∀ w, R (store w s) (store w s'))
    (hclamp : ∀ w, R (store w (clampEvent s)) (store w (clampEvent s'))) :
    Agree R (setClamped v lo hi s store) (setClamped v lo hi s' store) := by
  unfold setClamped
  split
  · exact agree_next hnoop
  · split
    · exact agree_next (hclamp _)
    · exact agree_next (hstore _)

theorem agree_onBuffer {ptr count : Word} {k k' : Answer} (hcfg : s'.cfg = s.cfg) (hk : Agree R k k') :
    Agree R (onBuffer ptr count s k) (onBuffer ptr count s' k') := by
  unfold onBuffer
  rw [hcfg]
  split
  · exact agree_next hnoop
  · split
    · exact hk
    · exact fun _ h => nomatch h

theorem agree_peekResult (o : Option Word) (hres : ∀ v, R (s.setResult v) (s'.setResult v)) :
    Agree R (peekResult s o) (peekResult s' o) := by
  cases o with
  | none => exact agree_next hnoop
  | some v => exact agree_next (hres v)

end

/-! ### The filter commands -/

/-- The filter commands on unit `u` (30_encoding.md R83, opcodes 0x10 to 0x17). -/
inductive FilterCommand (u : Nat) : Instr → Prop
  | create (sr : F32) : FilterCommand u (.fCreate u sr)
  | destroy : FilterCommand u (.fDestroy u)
  | setFreq (hz : F32) : FilterCommand u (.fSetFreq u hz)
  | setRes (r : F32) : FilterCommand u (.fSetRes u r)
  | setSmooth (rate : F32) : FilterCommand u (.fSetSmooth u rate)
  | process (ptr count : Word) : FilterCommand u (.fProcess u ptr count)
  | reset : FilterCommand u (.fReset u)
  | peek (sel : Word) : FilterCommand u (.fPeek u sel)

/-- The list of the obligations names the filter commands. -/
theorem filterCommand_of_list {u : Nat} {i : Instr}
    (h : (∃ x, i = .fCreate u x ∨ i = .fSetFreq u x ∨ i = .fSetRes u x ∨ i = .fSetSmooth u x ∨ i = .fPeek u x) ∨
      i = .fDestroy u ∨ i = .fReset u ∨ ∃ p n, i = .fProcess u p n) : FilterCommand u i := by
  rcases h with ⟨x, rfl | rfl | rfl | rfl | rfl⟩ | rfl | rfl | ⟨p, n, rfl⟩
  · exact .create x
  · exact .setFreq x
  · exact .setRes x
  · exact .setSmooth x
  · exact .peek x
  · exact .destroy
  · exact .reset
  · exact .process p n

/-- Two states a filter command on unit `u` cannot tell apart. -/
structure FilterSees (u : Nat) (s s' : State) : Prop where
  cfg : s'.cfg = s.cfg
  unit : s'.filters[u]? = s.filters[u]?
  mem : s'.mem = s.mem

theorem FilterSees.refl (u : Nat) (s : State) : FilterSees u s s := ⟨rfl, rfl, rfl⟩

theorem FilterSees.filter? {u : Nat} {s s' : State} (h : FilterSees u s s') :
    s'.filter? u = s.filter? u := congrArg Option.join h.unit

theorem FilterSees.length_le {u : Nat} {s s' : State} (h : FilterSees u s s') :
    s'.filters.length ≤ u ↔ s.filters.length ≤ u := by
  rw [← List.getElem?_eq_none_iff, h.unit, List.getElem?_eq_none_iff]

/-- The effects of the filter command `i` on unit `u`: the same one on `s` and on `s'`. -/
inductive FilterEffect (u : Nat) (s s' : State) (i : Instr) : State → State → Prop
  | noop : FilterEffect u s s' i (noopEvent s) (noopEvent s')
  | answer (sel v : Word) : i = .fPeek u sel → FilterEffect u s s' i (s.setResult v) (s'.setResult v)
  | write (x : Option (FilterUnit F32)) : FilterEffect u s s' i (s.setFilter u x) (s'.setFilter u x)
  | clampWrite (x : Option (FilterUnit F32)) :
      FilterEffect u s s' i ((clampEvent s).setFilter u x) ((clampEvent s').setFilter u x)
  | process (ptr count : Word) (f g : FilterUnit F32) : i = .fProcess u ptr count →
      FilterEffect u s s' i
        { s.setFilter u (some f) with mem := (filterLoop count.toNat ptr.toNat g s.mem).2 }
        { s'.setFilter u (some f) with mem := (filterLoop count.toNat ptr.toNat g s.mem).2 }

section
variable {u : Nat} {s s' : State} (h : FilterSees u s s')
include h

theorem filterEffect_fCreate (sr : F32) :
    Agree (FilterEffect u s s' (.fCreate u sr)) (execFCreate u sr s) (execFCreate u sr s') := by
  unfold execFCreate
  rw [h.cfg]
  simp only [h.length_le]
  split
  · exact agree_next .noop
  · split
    · exact agree_next (.write _)
    · exact agree_next .noop

/-- A setter, whose range the build and the unit's own registers give (00_scope.md R13). -/
theorem filterEffect_setter {i : Instr} (v : F32) (lo hi : Config F32 → FilterUnit F32 → F32)
    (store : FilterUnit F32 → F32 → FilterUnit F32) :
    Agree (FilterEffect u s s' i)
      (onFilter u s fun f =>
        setClamped v (lo s.cfg f) (hi s.cfg f) s fun w t => t.setFilter u (some (store f w)))
      (onFilter u s' fun f =>
        setClamped v (lo s'.cfg f) (hi s'.cfg f) s' fun w t => t.setFilter u (some (store f w))) := by
  rw [h.cfg]
  exact agree_onFilter .noop h.filter? fun _ _ =>
    agree_setClamped .noop _ _ _ (fun _ => .write _) fun _ => .clampWrite _

theorem filterEffect_fProcess (ptr count : Word) :
    Agree (FilterEffect u s s' (.fProcess u ptr count)) (execFProcess u ptr count s)
      (execFProcess u ptr count s') := by
  unfold execFProcess
  rw [h.cfg, h.mem]
  exact agree_onFilter .noop h.filter? fun f _ =>
    agree_onBuffer .noop h.cfg (agree_next (.process ptr count _ _ rfl))

theorem filterEffect_fPeek (sel : Word) :
    Agree (FilterEffect u s s' (.fPeek u sel)) (execFPeek u sel s) (execFPeek u sel s') := by
  unfold execFPeek
  rw [h.filter?]
  split
  · exact agree_next (.answer sel _ rfl)
  · exact agree_onFilter .noop h.filter? fun f _ => agree_peekResult .noop _ fun v => .answer sel v rfl

/-- A filter command has one of its effects, and has it on every state it cannot tell apart. -/
theorem filterCommand_effect {i : Instr} (hi : FilterCommand u i) :
    Agree (FilterEffect u s s' i) (exec i s) (exec i s') := by
  cases hi with
  | create sr => exact filterEffect_fCreate h sr
  | destroy => exact agree_onFilter .noop h.filter? fun _ _ => agree_next (.write _)
  | setFreq hz =>
    exact filterEffect_setter h hz (fun cfg _ => cfg.fFmin) (fun cfg f => freqCeiling b32 cfg f.sampleRate)
      fun f w => { f with tgtFreq := w }
  | setRes r =>
    exact filterEffect_setter h r (fun cfg _ => cfg.resMin) (fun cfg _ => cfg.resMax)
      fun f w => { f with tgtRes := w }
  | setSmooth rate =>
    exact filterEffect_setter h rate (fun cfg _ => cfg.smoothMin) (fun cfg _ => cfg.smoothMax)
      fun f w => { f with smooth := w }
  | process ptr count => exact filterEffect_fProcess h ptr count
  | reset => exact agree_onFilter .noop h.filter? fun _ _ => agree_next (.write _)
  | peek sel => exact filterEffect_fPeek h sel

end

theorem filterCommand_next {u : Nat} {i : Instr} {s t : State} (hi : FilterCommand u i)
    (h : exec i s = .next t) : FilterEffect u s s i t t := by
  obtain ⟨t', h', he⟩ := filterCommand_effect (.refl u s) hi t h
  rwa [Host.Outcome.next.inj (h'.symm.trans h)] at he

/-- What no filter command on unit `u` writes (10_state.md R42). -/
structure FilterFrame (u : Nat) (s t : State) : Prop where
  cfg : t.cfg = s.cfg
  host : t.host = s.host
  oscs : t.oscs = s.oscs
  length : t.filters.length = s.filters.length
  others : ∀ v, v ≠ u → t.filters[v]? = s.filters[v]?

theorem filterFrame_of_same {u : Nat} {s t : State} (hcfg : t.cfg = s.cfg) (hhost : t.host = s.host)
    (hoscs : t.oscs = s.oscs) (hfilters : t.filters = s.filters) : FilterFrame u s t :=
  ⟨hcfg, hhost, hoscs, by rw [hfilters], fun _ _ => by rw [hfilters]⟩

theorem filterFrame_of_set {u : Nat} {s t : State} (x : Option (FilterUnit F32)) (hcfg : t.cfg = s.cfg)
    (hhost : t.host = s.host) (hoscs : t.oscs = s.oscs) (hfilters : t.filters = s.filters.set u x) :
    FilterFrame u s t :=
  ⟨hcfg, hhost, hoscs, by rw [hfilters, List.length_set],
    fun _ hv => by rw [hfilters, List.getElem?_set_ne hv.symm]⟩

theorem FilterEffect.frame {u : Nat} {i : Instr} {s s' t t' : State} (h : FilterEffect u s s' i t t') :
    FilterFrame u s t := by
  cases h with
  | noop => exact filterFrame_of_same rfl rfl rfl rfl
  | answer sel v => exact filterFrame_of_same rfl rfl rfl rfl
  | write x => exact filterFrame_of_set x rfl rfl rfl rfl
  | clampWrite x => exact filterFrame_of_set x rfl rfl rfl rfl
  | process ptr count f g => exact filterFrame_of_set (some f) rfl rfl rfl rfl

theorem FilterEffect.result {u : Nat} {i : Instr} {s s' t t' : State} (h : FilterEffect u s s' i t t')
    (hi : ∀ x, i ≠ .fPeek u x) : t.result = s.result := by
  cases h with
  | answer sel v heq => exact absurd heq (hi sel)
  | _ => rfl

theorem FilterEffect.mem_eq {u : Nat} {i : Instr} {s s' t t' : State} (h : FilterEffect u s s' i t t')
    (hi : ∀ p n, i ≠ .fProcess u p n) : t.mem = s.mem := by
  cases h with
  | process ptr count f g heq => exact absurd heq (hi ptr count)
  | _ => rfl

theorem FilterEffect.outside {u : Nat} {p n : Word} {s s' t t' : State}
    (h : FilterEffect u s s' (.fProcess u p n) t t') {a : Nat}
    (ha : a < 4 * p.toNat ∨ 4 * (p.toNat + n.toNat) ≤ a) : readByte t.mem a = readByte s.mem a := by
  cases h with
  | process ptr count f g heq =>
    obtain ⟨-, rfl, rfl⟩ := Instr.fProcess.inj heq
    exact filterLoop_outside _ _ _ _ ha
  | _ => rfl

/-- Settles O34: none of the effects of a filter command reaches past its frame. -/
theorem filterCommandFrame : Obligations.FilterCommandFrame := by
  intro s t u i h hi
  have he := filterCommand_next (filterCommand_of_list hi) h
  obtain ⟨hcfg, hhost, hoscs, hlength, hothers⟩ := he.frame
  refine ⟨hcfg, hhost, hoscs, hlength, fun v hv => congrArg Option.join (hothers v hv), he.result, ?_, ?_⟩
  · intro hp a
    rw [he.mem_eq hp]
  · rintro p n rfl a ha
    exact he.outside ha

/-- What two runs of a filter command leave in the unit, the globals and the memory, where the states agreed
on them. -/
theorem FilterEffect.agree {u : Nat} {i : Instr} {s s' t t' : State} (h : FilterEffect u s s' i t t')
    (hsees : FilterSees u s s') (hres : s'.result = s.result) (hclamp : s'.diagClamp = s.diagClamp)
    (hnoop : s'.diagNoop = s.diagNoop) :
    t'.filters[u]? = t.filters[u]? ∧ t'.result = t.result ∧ t'.diagClamp = t.diagClamp ∧
      t'.diagNoop = t.diagNoop ∧ t'.mem = t.mem := by
  have hset : ∀ x, (s'.filters.set u x)[u]? = (s.filters.set u x)[u]? := fun x => by
    rw [List.getElem?_set_self', List.getElem?_set_self', hsees.unit]
  cases h with
  | noop => exact ⟨hsees.unit, hres, hclamp, congrArg satInc hnoop, hsees.mem⟩
  | answer sel v => exact ⟨hsees.unit, rfl, hclamp, hnoop, hsees.mem⟩
  | write x => exact ⟨hset x, hres, hclamp, hnoop, hsees.mem⟩
  | clampWrite x => exact ⟨hset x, hres, congrArg satInc hclamp, hnoop, hsees.mem⟩
  | process ptr count f g => exact ⟨hset (some f), hres, hclamp, hnoop, rfl⟩

/-- Settles O41: the command has the same effect on both states. -/
theorem filterUnitsAreIndependent : Obligations.FilterUnitsAreIndependent := by
  intro s s' t u i h hi hcfg hunit hres hclamp hnoop hmem
  have hsees : FilterSees u s s' := ⟨hcfg, hunit, hmem⟩
  obtain ⟨t', h', he⟩ := filterCommand_effect hsees (filterCommand_of_list hi) t h
  have hframe := (filterCommand_next (filterCommand_of_list hi) h').frame
  obtain ⟨hunit', hres', hclamp', hnoop', hmem'⟩ := he.agree hsees hres hclamp hnoop
  exact ⟨t', h', hunit', hres', hclamp', hnoop', hmem', hframe.others, hframe.oscs⟩

/-! ### The oscillator commands -/

/-- The oscillator commands on unit `u` (30_encoding.md R83, opcodes 0x20 to 0x27). -/
inductive OscCommand (u : Nat) : Instr → Prop
  | create (sr : F32) : OscCommand u (.oCreate u sr)
  | destroy : OscCommand u (.oDestroy u)
  | setFreq (hz : F32) : OscCommand u (.oSetFreq u hz)
  | setAmp (amp : F32) : OscCommand u (.oSetAmp u amp)
  | setWave (code : Word) : OscCommand u (.oSetWave u code)
  | process (ptr count : Word) : OscCommand u (.oProcess u ptr count)
  | reset : OscCommand u (.oReset u)
  | peek (sel : Word) : OscCommand u (.oPeek u sel)

/-- The list of the obligations names the oscillator commands. -/
theorem oscCommand_of_list {u : Nat} {i : Instr}
    (h : (∃ x, i = .oCreate u x ∨ i = .oSetFreq u x ∨ i = .oSetAmp u x ∨ i = .oSetWave u x ∨ i = .oPeek u x) ∨
      i = .oDestroy u ∨ i = .oReset u ∨ ∃ p n, i = .oProcess u p n) : OscCommand u i := by
  rcases h with ⟨x, rfl | rfl | rfl | rfl | rfl⟩ | rfl | rfl | ⟨p, n, rfl⟩
  · exact .create x
  · exact .setFreq x
  · exact .setAmp x
  · exact .setWave x
  · exact .peek x
  · exact .destroy
  · exact .reset
  · exact .process p n

/-- Two states an oscillator command on unit `u` cannot tell apart: it reads no sample memory. -/
structure OscSees (u : Nat) (s s' : State) : Prop where
  cfg : s'.cfg = s.cfg
  unit : s'.oscs[u]? = s.oscs[u]?

theorem OscSees.refl (u : Nat) (s : State) : OscSees u s s := ⟨rfl, rfl⟩

theorem OscSees.osc? {u : Nat} {s s' : State} (h : OscSees u s s') : s'.osc? u = s.osc? u :=
  congrArg Option.join h.unit

theorem OscSees.length_le {u : Nat} {s s' : State} (h : OscSees u s s') :
    s'.oscs.length ≤ u ↔ s.oscs.length ≤ u := by
  rw [← List.getElem?_eq_none_iff, h.unit, List.getElem?_eq_none_iff]

/-- The registers each command writes: the unit's before and after (10_state.md R23, R29 to R33). -/
inductive OscWrite (u : Nat) : Instr → Option (OscUnit F32) → Option (OscUnit F32) → Prop
  | create (sr : F32) (x : Option (OscUnit F32)) (o : OscUnit F32) : OscWrite u (.oCreate u sr) x (some o)
  | destroy (x : Option (OscUnit F32)) : OscWrite u (.oDestroy u) x none
  | freq (hz : F32) (o : OscUnit F32) (v w : F32) :
      OscWrite u (.oSetFreq u hz) (some o) (some { o with freq := v, inc := w })
  | amp (a : F32) (o : OscUnit F32) (v : F32) : OscWrite u (.oSetAmp u a) (some o) (some { o with amp := v })
  | wave (code : Word) (o : OscUnit F32) (k : BitVec 2) :
      OscWrite u (.oSetWave u code) (some o) (some { o with wave := k })
  | reset (o : OscUnit F32) (p : F32) : OscWrite u (.oReset u) (some o) (some { o with phase := p })
  | process (ptr count : Word) (o : OscUnit F32) (p : F32) :
      OscWrite u (.oProcess u ptr count) (some o) (some { o with phase := p })

/-- The effects of the oscillator command `i` on unit `u`: the same one on `s` and on `s'`, but that a buffer
is written into the memory of each. -/
inductive OscEffect (u : Nat) (s s' : State) (i : Instr) : State → State → Prop
  | noop : OscEffect u s s' i (noopEvent s) (noopEvent s')
  | answer (sel v : Word) : i = .oPeek u sel → OscEffect u s s' i (s.setResult v) (s'.setResult v)
  | write (x : Option (OscUnit F32)) : OscWrite u i (s.osc? u) x →
      OscEffect u s s' i (s.setOsc u x) (s'.setOsc u x)
  | clampWrite (x : Option (OscUnit F32)) : OscWrite u i (s.osc? u) x →
      OscEffect u s s' i ((clampEvent s).setOsc u x) ((clampEvent s').setOsc u x)
  | process (ptr count : Word) (o p : OscUnit F32) : i = .oProcess u ptr count →
      OscWrite u i (s.osc? u) (some p) →
      OscEffect u s s' i
        { s.setOsc u (some p) with mem := (oscLoop s.cfg count.toNat ptr.toNat o s.mem).2 }
        { s'.setOsc u (some p) with mem := (oscLoop s.cfg count.toNat ptr.toNat o s'.mem).2 }

section
variable {u : Nat} {s s' : State} (h : OscSees u s s')
include h

theorem oscEffect_oCreate (sr : F32) :
    Agree (OscEffect u s s' (.oCreate u sr)) (execOCreate u sr s) (execOCreate u sr s') := by
  unfold execOCreate
  rw [h.cfg]
  simp only [h.length_le]
  split
  · exact agree_next .noop
  · split
    · exact agree_next (.write _ (.create sr _ _))
    · exact agree_next .noop

/-- A setter, whose range the build gives (00_scope.md R13). -/
theorem oscEffect_setter {i : Instr} (v : F32) (lo hi : Config F32 → F32)
    {store : OscUnit F32 → F32 → OscUnit F32}
    (hw : ∀ o w, OscWrite u i (some o) (some (store o w))) :
    Agree (OscEffect u s s' i)
      (onOsc u s fun o => setClamped v (lo s.cfg) (hi s.cfg) s fun w t => t.setOsc u (some (store o w)))
      (onOsc u s' fun o => setClamped v (lo s'.cfg) (hi s'.cfg) s' fun w t => t.setOsc u (some (store o w))) := by
  rw [h.cfg]
  exact agree_onOsc .noop h.osc? fun o ho =>
    agree_setClamped .noop _ _ _ (fun w => .write _ (ho ▸ hw o w)) fun w => .clampWrite _ (ho ▸ hw o w)

theorem oscEffect_oSetWave (code : Word) :
    Agree (OscEffect u s s' (.oSetWave u code)) (execOSetWave u code s) (execOSetWave u code s') := by
  refine agree_onOsc .noop h.osc? fun o ho => ?_
  cases waveOfCode code with
  | none => exact agree_next (.clampWrite _ (ho ▸ .wave code o _))
  | some k => exact agree_next (.write _ (ho ▸ .wave code o k))

theorem oscEffect_oProcess (ptr count : Word) :
    Agree (OscEffect u s s' (.oProcess u ptr count)) (execOProcess u ptr count s)
      (execOProcess u ptr count s') := by
  unfold execOProcess
  rw [h.cfg]
  simp only [oscLoop_unit]
  exact agree_onOsc .noop h.osc? fun o ho =>
    agree_onBuffer .noop h.cfg (agree_next (.process ptr count o _ rfl (ho ▸ .process ptr count o _)))

theorem oscEffect_oPeek (sel : Word) :
    Agree (OscEffect u s s' (.oPeek u sel)) (execOPeek u sel s) (execOPeek u sel s') := by
  unfold execOPeek
  rw [h.osc?]
  split
  · exact agree_next (.answer sel _ rfl)
  · exact agree_onOsc .noop h.osc? fun o _ => agree_peekResult .noop _ fun v => .answer sel v rfl

/-- An oscillator command has one of its effects, and has it on every state it cannot tell apart. -/
theorem oscCommand_effect {i : Instr} (hi : OscCommand u i) :
    Agree (OscEffect u s s' i) (exec i s) (exec i s') := by
  cases hi with
  | create sr => exact oscEffect_oCreate h sr
  | destroy => exact agree_onOsc .noop h.osc? fun _ _ => agree_next (.write _ (.destroy _))
  | setFreq hz =>
    exact oscEffect_setter h hz (fun cfg => cfg.oscFmin) (fun cfg => cfg.oscFmax) fun o w => .freq hz o w _
  | setAmp amp =>
    exact oscEffect_setter h amp (fun cfg => cfg.ampMin) (fun cfg => cfg.ampMax) fun o w => .amp amp o w
  | setWave code => exact oscEffect_oSetWave h code
  | process ptr count => exact oscEffect_oProcess h ptr count
  | reset => exact agree_onOsc .noop h.osc? fun o ho => agree_next (.write _ (ho ▸ .reset o _))
  | peek sel => exact oscEffect_oPeek h sel

end

theorem oscCommand_next {u : Nat} {i : Instr} {s t : State} (hi : OscCommand u i)
    (h : exec i s = .next t) : OscEffect u s s i t t := by
  obtain ⟨t', h', he⟩ := oscCommand_effect (.refl u s) hi t h
  rwa [Host.Outcome.next.inj (h'.symm.trans h)] at he

/-- What no oscillator command on unit `u` writes (10_state.md R42). -/
structure OscFrame (u : Nat) (s t : State) : Prop where
  cfg : t.cfg = s.cfg
  host : t.host = s.host
  filters : t.filters = s.filters
  length : t.oscs.length = s.oscs.length
  others : ∀ v, v ≠ u → t.oscs[v]? = s.oscs[v]?

theorem oscFrame_of_same {u : Nat} {s t : State} (hcfg : t.cfg = s.cfg) (hhost : t.host = s.host)
    (hfilters : t.filters = s.filters) (hoscs : t.oscs = s.oscs) : OscFrame u s t :=
  ⟨hcfg, hhost, hfilters, by rw [hoscs], fun _ _ => by rw [hoscs]⟩

theorem oscFrame_of_set {u : Nat} {s t : State} (x : Option (OscUnit F32)) (hcfg : t.cfg = s.cfg)
    (hhost : t.host = s.host) (hfilters : t.filters = s.filters) (hoscs : t.oscs = s.oscs.set u x) :
    OscFrame u s t :=
  ⟨hcfg, hhost, hfilters, by rw [hoscs, List.length_set],
    fun _ hv => by rw [hoscs, List.getElem?_set_ne hv.symm]⟩

theorem OscEffect.frame {u : Nat} {i : Instr} {s s' t t' : State} (h : OscEffect u s s' i t t') :
    OscFrame u s t := by
  cases h with
  | noop => exact oscFrame_of_same rfl rfl rfl rfl
  | answer sel v => exact oscFrame_of_same rfl rfl rfl rfl
  | write x => exact oscFrame_of_set x rfl rfl rfl rfl
  | clampWrite x => exact oscFrame_of_set x rfl rfl rfl rfl
  | process ptr count o p => exact oscFrame_of_set (some p) rfl rfl rfl rfl

theorem OscEffect.result {u : Nat} {i : Instr} {s s' t t' : State} (h : OscEffect u s s' i t t')
    (hi : ∀ x, i ≠ .oPeek u x) : t.result = s.result := by
  cases h with
  | answer sel v heq => exact absurd heq (hi sel)
  | _ => rfl

theorem OscEffect.mem_eq {u : Nat} {i : Instr} {s s' t t' : State} (h : OscEffect u s s' i t t')
    (hi : ∀ p n, i ≠ .oProcess u p n) : t.mem = s.mem := by
  cases h with
  | process ptr count o p heq => exact absurd heq (hi ptr count)
  | _ => rfl

theorem OscEffect.outside {u : Nat} {p n : Word} {s s' t t' : State}
    (h : OscEffect u s s' (.oProcess u p n) t t') {a : Nat}
    (ha : a < 4 * p.toNat ∨ 4 * (p.toNat + n.toNat) ≤ a) : readByte t.mem a = readByte s.mem a := by
  cases h with
  | process ptr count o p heq =>
    obtain ⟨-, rfl, rfl⟩ := Instr.oProcess.inj heq
    exact oscLoop_outside _ _ _ _ _ ha
  | _ => rfl

/-- Settles O35: none of the effects of an oscillator command reaches past its frame. -/
theorem oscillatorCommandFrame : Obligations.OscillatorCommandFrame := by
  intro s t u i h hi
  have he := oscCommand_next (oscCommand_of_list hi) h
  obtain ⟨hcfg, hhost, hfilters, hlength, hothers⟩ := he.frame
  refine ⟨hcfg, hhost, hfilters, hlength, fun v hv => congrArg Option.join (hothers v hv), he.result, ?_, ?_⟩
  · intro hp a
    rw [he.mem_eq hp]
  · rintro p n rfl a ha
    exact he.outside ha

/-! ### The registers of an oscillator unit -/

/-- The registers of oscillator unit `u` the command `i`, no O_CREATE of it, leaves as they were. -/
def OscRegistersKept (u : Nat) (i : Instr) (o p : OscUnit F32) : Prop :=
  p.sampleRate = o.sampleRate ∧
  ((∀ x, i ≠ .oSetFreq u x) → p.freq = o.freq ∧ p.inc = o.inc) ∧
  ((∀ x, i ≠ .oSetAmp u x) → p.amp = o.amp) ∧
  ((∀ x, i ≠ .oSetWave u x) → p.wave = o.wave) ∧
  (i ≠ .oReset u → (∀ q n, i ≠ .oProcess u q n) → p.phase = o.phase)

theorem oscRegistersKept_refl (u : Nat) (i : Instr) (o : OscUnit F32) : OscRegistersKept u i o o :=
  ⟨rfl, fun _ => ⟨rfl, rfl⟩, fun _ => rfl, fun _ => rfl, fun _ _ => rfl⟩

theorem OscWrite.registersKept {u : Nat} {i : Instr} {o p : OscUnit F32}
    (h : OscWrite u i (some o) (some p)) (hi : ∀ sr, i ≠ .oCreate u sr) : OscRegistersKept u i o p := by
  cases h with
  | create sr => exact absurd rfl (hi sr)
  | freq hz => exact ⟨rfl, fun hne => absurd rfl (hne hz), fun _ => rfl, fun _ => rfl, fun _ _ => rfl⟩
  | amp a => exact ⟨rfl, fun _ => ⟨rfl, rfl⟩, fun hne => absurd rfl (hne a), fun _ => rfl, fun _ _ => rfl⟩
  | wave code => exact ⟨rfl, fun _ => ⟨rfl, rfl⟩, fun _ => rfl, fun hne => absurd rfl (hne code), fun _ _ => rfl⟩
  | reset => exact ⟨rfl, fun _ => ⟨rfl, rfl⟩, fun _ => rfl, fun _ => rfl, fun hne => absurd rfl hne⟩
  | process ptr count =>
    exact ⟨rfl, fun _ => ⟨rfl, rfl⟩, fun _ => rfl, fun _ => rfl, fun _ hne => absurd rfl (hne ptr count)⟩

/-- A command of the unit leaves it as it was, or writes its registers. -/
theorem OscEffect.unit_cases {u : Nat} {i : Instr} {s s' t t' : State} (h : OscEffect u s s' i t t')
    {o : OscUnit F32} (ho : s.osc? u = some o) :
    t.osc? u = some o ∨ OscWrite u i (some o) (t.osc? u) := by
  have hlt := osc_lt_of_live ho
  cases h with
  | noop => exact .inl ho
  | answer sel v => exact .inl ho
  | write x hw => rw [osc?_setOsc_self x hlt]; exact .inr (ho ▸ hw)
  | clampWrite x hw => rw [osc?_setOsc_self (s := clampEvent s) x hlt]; exact .inr (ho ▸ hw)
  | process ptr count q p _ hw =>
    have hp : (s.setOsc u (some p)).osc? u = some p := osc?_setOsc_self _ hlt
    exact .inr (hp.symm ▸ ho ▸ hw)

/-- A command that is none of the unit's own leaves it as it was. -/
theorem osc?_of_not_command {u : Nat} {i : Instr} {s t : State} (h : exec i s = .next t)
    (hi : ¬ OscCommand u i) : t.osc? u = s.osc? u := by
  have hfilter : ∀ {v}, FilterCommand v i → t.osc? u = s.osc? u := fun hf => by
    unfold State.osc?
    rw [(filterCommand_next hf h).frame.oscs]
  have hosc : ∀ {v}, OscCommand v i → t.osc? u = s.osc? u := fun ho =>
    congrArg Option.join ((oscCommand_next ho h).frame.others u fun heq => hi (heq ▸ ho))
  cases i with
  | fCreate v sr => exact hfilter (.create sr)
  | fDestroy v => exact hfilter .destroy
  | fSetFreq v hz => exact hfilter (.setFreq hz)
  | fSetRes v r => exact hfilter (.setRes r)
  | fSetSmooth v rate => exact hfilter (.setSmooth rate)
  | fProcess v ptr count => exact hfilter (.process ptr count)
  | fReset v => exact hfilter .reset
  | fPeek v sel => exact hfilter (.peek sel)
  | oCreate v sr => exact hosc (.create sr)
  | oDestroy v => exact hosc .destroy
  | oSetFreq v hz => exact hosc (.setFreq hz)
  | oSetAmp v amp => exact hosc (.setAmp amp)
  | oSetWave v code => exact hosc (.setWave code)
  | oProcess v ptr count => exact hosc (.process ptr count)
  | oReset v => exact hosc .reset
  | oPeek v sel => exact hosc (.peek sel)
  | uClamp v lo hi => exact Host.Outcome.next.inj h ▸ rfl
  | uLerp a b t => exact Host.Outcome.next.inj h ▸ rfl
  | uDb2Lin db => exact Host.Outcome.next.inj h ▸ rfl
  | uLin2Db lin => exact Host.Outcome.next.inj h ▸ rfl
  | dPeek sel =>
    change peekResult s (diagSelect s sel) = .next t at h
    cases hd : diagSelect s sel with
    | none => rw [hd] at h; exact Host.Outcome.next.inj h ▸ rfl
    | some v => rw [hd] at h; exact Host.Outcome.next.inj h ▸ rfl

/-- Settles O38: a command of another unit does not reach the registers, and one of the unit writes its own. -/
theorem oscillatorRegisterFrame : Obligations.OscillatorRegisterFrame := by
  intro s t i u o p h ho hp hcreate
  change OscRegistersKept u i o p
  have hsame : t.osc? u = some o → OscRegistersKept u i o p := fun heq =>
    Option.some.inj (heq.symm.trans hp) ▸ oscRegistersKept_refl u i o
  by_cases hi : OscCommand u i
  · rcases (oscCommand_next hi h).unit_cases ho with heq | hw
    · exact hsame heq
    · exact (hp ▸ hw).registersKept hcreate
  · exact hsame ((osc?_of_not_command h hi).trans ho)

/-! ### The independence of the oscillator units -/

/-- What two runs of an oscillator command leave in the unit and the globals, where the states agreed on them,
and in the memory, where they agreed on that, too. -/
theorem OscEffect.agree {u : Nat} {i : Instr} {s s' t t' : State} (h : OscEffect u s s' i t t')
    (hsees : OscSees u s s') (hres : s'.result = s.result) (hclamp : s'.diagClamp = s.diagClamp)
    (hnoop : s'.diagNoop = s.diagNoop) :
    t'.oscs[u]? = t.oscs[u]? ∧ t'.result = t.result ∧ t'.diagClamp = t.diagClamp ∧
      t'.diagNoop = t.diagNoop ∧ (s'.mem = s.mem → t'.mem = t.mem) := by
  have hset : ∀ x, (s'.oscs.set u x)[u]? = (s.oscs.set u x)[u]? := fun x => by
    rw [List.getElem?_set_self', List.getElem?_set_self', hsees.unit]
  cases h with
  | noop => exact ⟨hsees.unit, hres, hclamp, congrArg satInc hnoop, id⟩
  | answer sel v => exact ⟨hsees.unit, rfl, hclamp, hnoop, id⟩
  | write x => exact ⟨hset x, hres, hclamp, hnoop, id⟩
  | clampWrite x => exact ⟨hset x, hres, congrArg satInc hclamp, hnoop, id⟩
  | process ptr count o p =>
    exact ⟨hset (some p), hres, hclamp, hnoop, fun hmem => congrArg (fun m => (oscLoop _ _ _ o m).2) hmem⟩

/-- The words the oscillator's loop writes do not depend on the memory it writes them into (20_memory.md R66). -/
theorem memRead_oscLoop_eq (cfg : Config F32) (n a : Nat) (o : OscUnit F32) {m m' : Memory}
    (hm : m.wf = true) (hm' : m'.wf = true) {k : Nat} (hk : k < n) :
    memRead (oscLoop cfg n a o m').2 (a + k) = memRead (oscLoop cfg n a o m).2 (a + k) := by
  induction n generalizing a o m m' k with
  | zero => exact absurd hk (Nat.not_lt_zero k)
  | succ n ih =>
    rw [oscLoop, oscLoop]
    cases k with
    | zero =>
      simp only [Nat.add_zero, oscLoop_below cfg n _ _ (Nat.lt_succ_self a), memRead_memWrite_self hm',
        memRead_memWrite_self hm]
    | succ k =>
      rw [show a + (k + 1) = a + 1 + k by omega]
      exact ih (a + 1) _ (wf_memWrite hm _ _) (wf_memWrite hm' _ _) (by omega)

/-- O_PROCESS on a live unit and a buffer that is not empty runs the sample loop. -/
theorem mem_of_oProcess {u : Nat} {p n : Word} {s t : State} {o : OscUnit F32} (ho : s.osc? u = some o)
    (hp : p ≠ 0#32) (hn : n ≠ 0#32) (h : exec (.oProcess u p n) s = .next t) :
    t.mem = (oscLoop s.cfg n.toNat p.toNat o s.mem).2 := by
  have hne : emptyBuffer p n = false := by simp [emptyBuffer, hp, hn]
  change onOsc u s _ = .next t at h
  rw [onOsc_of_live _ ho] at h
  rcases onBuffer_cases p n s _ with ⟨he, -⟩ | ⟨-, -, heq⟩ | ⟨-, -, heq⟩
  · exact nomatch he.symm.trans hne
  · exact Host.Outcome.next.inj (heq.symm.trans h) ▸ rfl
  · exact nomatch heq.symm.trans h

/-- Settles O42: the command has the same effect on both states, the words of its buffer among it. -/
theorem oscillatorUnitsAreIndependent : Obligations.OscillatorUnitsAreIndependent := by
  intro s s' t u i h hi hcfg hunit hres hclamp hnoop
  have hsees : OscSees u s s' := ⟨hcfg, hunit⟩
  obtain ⟨t', h', he⟩ := oscCommand_effect hsees (oscCommand_of_list hi) t h
  have hframe := (oscCommand_next (oscCommand_of_list hi) h').frame
  obtain ⟨hunit', hres', hclamp', hnoop', hmem'⟩ := he.agree hsees hres hclamp hnoop
  refine ⟨t', h', hunit', hres', hclamp', hnoop', hmem', ?_, hframe.others, hframe.filters⟩
  rintro hwf hwf' p n rfl hlive hp k hk
  obtain ⟨o, ho⟩ := Option.isSome_iff_exists.1 hlive
  have hn : n ≠ 0#32 := by rintro rfl; exact Nat.not_lt_zero k hk
  rw [mem_of_oProcess ho hp hn h, mem_of_oProcess (hsees.osc?.trans ho) hp hn h', hcfg]
  exact memRead_oscLoop_eq _ _ _ o hwf hwf' hk

end Sys2Proof.Proofs
end

section
/-! The PROCESS commands by their buffer (20_memory.md R61, R67). A buffer that is not empty and does not lie
inside the memory is the one refusal of 60_exceptions.md R234; the other commands reach no buffer test. -/

namespace Sys2Proof.Proofs
open Sys2Proof.Machine

/-! ### The buffer tests on the operands -/

/-- A buffer is empty exactly at a null pointer or a zero count (20_memory.md R61). -/
theorem emptyBuffer_eq_false_iff {ptr count : Word} :
    emptyBuffer ptr count = false ↔ ptr ≠ 0#32 ∧ count ≠ 0#32 := by
  simp [emptyBuffer]

/-- A buffer leaves the memory exactly where its end, a natural number that never wraps, lies past the last
word (20_memory.md R67). -/
theorem bufferInside_eq_false_iff {cfg : Config F32} {ptr count : Word} :
    bufferInside cfg ptr count = false ↔ cfg.memWords < ptr.toNat + count.toNat := by
  simp [bufferInside]

/-- The third outcome of the buffer tests, by the operands: whatever the command would have done. -/
theorem onBuffer_of_outside {ptr count : Word} {s : State} (k : Answer) (hptr : ptr ≠ 0#32)
    (hcount : count ≠ 0#32) (hout : s.cfg.memWords < ptr.toNat + count.toNat) :
    onBuffer ptr count s k = .refused .bufferOutsideMemory := by
  have hne : emptyBuffer ptr count = false := emptyBuffer_eq_false_iff.2 ⟨hptr, hcount⟩
  have hoff : bufferInside s.cfg ptr count = false := bufferInside_eq_false_iff.2 hout
  rcases onBuffer_cases ptr count s k with ⟨he, -⟩ | ⟨-, hin, -⟩ | ⟨-, -, heq⟩
  · exact nomatch hne.symm.trans he
  · exact nomatch hoff.symm.trans hin
  · exact heq

/-! ### The refusal -/

/-- Settles O20: a live unit passes the handle test of its command, and the buffer tests refuse. -/
theorem outsideBufferIsRefused : Obligations.OutsideBufferIsRefused := by
  intro s u ptr count hptr hcount hout
  constructor
  · intro f hf
    calc exec (.fProcess u ptr count) s
      _ = onBuffer ptr count s _ := onFilter_of_live _ hf
      _ = .refused .bufferOutsideMemory := onBuffer_of_outside _ hptr hcount hout
  · intro o ho
    calc exec (.oProcess u ptr count) s
      _ = onBuffer ptr count s _ := onOsc_of_live _ ho
      _ = .refused .bufferOutsideMemory := onBuffer_of_outside _ hptr hcount hout

end Sys2Proof.Proofs
end

section
/-! The decoder and the encoder as one table (30_encoding.md R81 to R84): a word decodes exactly when its opcode
has a row and the fields the row's format does not use are zero; the encoder writes those fields as zero and
copies the others. -/

namespace Sys2Proof.Proofs

/-! ### The formats (30_encoding.md R81) -/

/-- The operand fields that a format does not use are zero. -/
def UnusedZero (f : Format) (unit : BitVec 8) (a b c : Word) : Prop :=
  match f with
  | .u => a = 0#32 ∧ b = 0#32 ∧ c = 0#32
  | .ua => b = 0#32 ∧ c = 0#32
  | .uab => c = 0#32
  | .a => unit = 0#8 ∧ b = 0#32 ∧ c = 0#32
  | .abc => unit = 0#8

/-- The operand fields of a word that its format does not use are zero. -/
def UnusedFieldsZero (f : Format) (w : Command) : Prop :=
  UnusedZero f (unitField w) (slotA w) (slotB w) (slotC w)

theorem maskTest_iff (f : Format) (w : Command) :
    w &&& f.mask = opcodeBits (opcField w) ↔ w.extractLsb' 96 16 = 0#16 ∧ UnusedFieldsZero f w := by
  cases f <;> exact mask_test_iff_fields_zero _ w

/-- The word of an opcode and operands, of which only those the format uses are written. -/
def formatWord (f : Format) (o : BitVec 8) (u : Nat) (a b c : Word) : Command :=
  match f with
  | .u => packWord o u 0#32 0#32 0#32
  | .ua => packWord o u a 0#32 0#32
  | .uab => packWord o u a b 0#32
  | .a => packWord o 0 a 0#32 0#32
  | .abc => packWord o 0 a b c

/-- Operands that are zero where the format does not use them are written whole. -/
theorem formatWord_eq_packWord {f : Format} {unit : BitVec 8} {a b c : Word} (o : BitVec 8)
    (h : UnusedZero f unit a b c) : formatWord f o unit.toNat a b c = packWord o unit.toNat a b c := by
  cases f with
  | u => obtain ⟨rfl, rfl, rfl⟩ := h; rfl
  | ua => obtain ⟨rfl, rfl⟩ := h; rfl
  | uab => obtain rfl := h; rfl
  | a => obtain ⟨rfl, rfl, rfl⟩ := h; rfl
  | abc => obtain rfl := h; rfl

/-- A word whose `RSV` field is zero is made of its other fields (30_encoding.md R80). -/
theorem packWord_of_fields {w : Command} (h : w.extractLsb' 96 16 = 0#16) :
    packWord (opcField w) (unitField w).toNat (slotA w) (slotB w) (slotC w) = w := by
  unfold packWord opcField unitField slotA slotB slotC
  rw [← h, BitVec.ofNat_toNat, BitVec.setWidth_eq]
  apply BitVec.eq_of_getLsbD_eq
  intro i hi
  simp only [BitVec.getLsbD_extractLsb', BitVec.getLsbD_append]
  grind

/-! ### The rows (30_encoding.md R83) -/

/-- The unit index that a row of a format takes. -/
def formatUnit? (f : Format) (u : Nat) : Option Nat :=
  match f with
  | .u | .ua | .uab => some u
  | .a | .abc => none

theorem findRow_some {o : BitVec 8} {r : OpcodeRow} (h : findRow o = some r) : r ∈ opcodeMap ∧ r.opc = o :=
  ⟨List.mem_of_find?_eq_some h, by simpa using List.find?_some h⟩

/-- No other row has a row's opcode. -/
theorem findRow_opc {r : OpcodeRow} (h : r ∈ opcodeMap) : findRow r.opc = some r := by
  fin_cases h <;> rfl

/-- The command a row builds names a unit if the row's format has one, and its word is the row's. -/
theorem row_build {r : OpcodeRow} (h : r ∈ opcodeMap) (u : Nat) (a b c : Word) :
    (r.build u a b c).unit? = formatUnit? r.format u ∧
      encode (r.build u a b c) = formatWord r.format r.opc u a b c := by
  fin_cases h <;> exact ⟨rfl, rfl⟩

theorem wellFormed_iff (i : Instr) : i.wellFormed = true ↔ ∀ u, i.unit? = some u → u < 256 := by
  unfold Instr.wellFormed
  cases i.unit? with
  | none => simp
  | some u => simp

theorem wellFormed_row_build {r : OpcodeRow} (h : r ∈ opcodeMap) (unit : BitVec 8) (a b c : Word) :
    (r.build unit.toNat a b c).wellFormed = true := by
  have eq_of_takes (u : Nat) : formatUnit? r.format unit.toNat = some u → unit.toNat = u := by
    cases r.format <;> simp [formatUnit?]
  rw [wellFormed_iff, (row_build h _ a b c).1]
  intro u hu
  exact eq_of_takes u hu ▸ unit.isLt

/-! ### The decoder (30_encoding.md R91 steps 1 and 2) -/

theorem decode_eq_ok_iff (w : Command) (i : Instr) :
    decode w = .ok i ↔ ∃ r, findRow (opcField w) = some r ∧
      (w.extractLsb' 96 16 = 0#16 ∧ UnusedFieldsZero r.format w) ∧
      r.build (unitField w).toNat (slotA w) (slotB w) (slotC w) = i := by
  unfold decode
  cases findRow (opcField w) with
  | none => simp
  | some r =>
    by_cases hmask : w &&& r.format.mask = opcodeBits (opcField w)
    · simp [hmask, (maskTest_iff _ w).1 hmask]
    · simp [hmask, mt (maskTest_iff _ w).2 hmask]

/-- A command decodes back from its word if the word is packed from the opcode of a row and from operands that
fit the row's format, and the row builds the command from them. -/
theorem decode_encode_of_row {i : Instr} {o : BitVec 8} {r : OpcodeRow} {u : Nat} {a b c : Word}
    (hword : encode i = packWord o u a b c) (hrow : findRow o = some r) (hbuild : r.build u a b c = i)
    (hu : u < 256) (hzero : UnusedZero r.format (BitVec.ofNat 8 u) a b c) : decode (encode i) = .ok i := by
  obtain ⟨hopc, hunit, hrsv, ha, hb, hc⟩ := Laws.packWord_fields o u a b c
  rw [hword, decode_eq_ok_iff]
  refine ⟨r, by rw [hopc, hrow], ⟨hrsv, ?_⟩, ?_⟩
  · unfold UnusedFieldsZero
    rwa [hunit, ha, hb, hc]
  · rw [hunit, ha, hb, hc, BitVec.toNat_ofNat, Nat.mod_eq_of_lt hu, hbuild]

/-! ### The round trips -/

/-- Settles O1: a case for every command, grouped by the format that says which fields of its word are zero. -/
theorem decodeEncodeRoundTrip : Obligations.DecodeEncodeRoundTrip := by
  intro i hwf
  rw [wellFormed_iff] at hwf
  cases i with
  | fDestroy u | fReset u | oDestroy u | oReset u =>
    exact decode_encode_of_row rfl rfl rfl (hwf u rfl) ⟨rfl, rfl, rfl⟩
  | fCreate u x | fSetFreq u x | fSetRes u x | fSetSmooth u x | fPeek u x
  | oCreate u x | oSetFreq u x | oSetAmp u x | oSetWave u x | oPeek u x =>
    exact decode_encode_of_row rfl rfl rfl (hwf u rfl) ⟨rfl, rfl⟩
  | fProcess u ptr count | oProcess u ptr count => exact decode_encode_of_row rfl rfl rfl (hwf u rfl) rfl
  | uDb2Lin x | uLin2Db x | dPeek x => exact decode_encode_of_row rfl rfl rfl (by decide) ⟨rfl, rfl, rfl⟩
  | uClamp x y z | uLerp x y z => exact decode_encode_of_row rfl rfl rfl (by decide) rfl

/-- Settles O2: the row writes the fields its format uses, and the others and `RSV` are zero in the word. -/
theorem encodeDecodeRoundTrip : Obligations.EncodeDecodeRoundTrip := by
  intro w i h
  obtain ⟨r, hrow, ⟨hrsv, hzero⟩, rfl⟩ := (decode_eq_ok_iff w i).1 h
  obtain ⟨hmem, hopc⟩ := findRow_some hrow
  refine ⟨wellFormed_row_build hmem _ _ _ _, ?_⟩
  calc encode (r.build (unitField w).toNat (slotA w) (slotB w) (slotC w))
    _ = formatWord r.format r.opc (unitField w).toNat (slotA w) (slotB w) (slotC w) := (row_build hmem _ _ _ _).2
    _ = packWord (opcField w) (unitField w).toNat (slotA w) (slotB w) (slotC w) := by
      rw [formatWord_eq_packWord _ hzero, hopc]
    _ = w := packWord_of_fields hrsv

/-- The two round trips together: decoding is the test whether a word is the command's. -/
theorem decode_eq_ok_iff_encode (w : Command) (i : Instr) :
    decode w = .ok i ↔ i.wellFormed = true ∧ encode i = w :=
  ⟨encodeDecodeRoundTrip w i, fun ⟨hwf, hw⟩ => hw ▸ decodeEncodeRoundTrip i hwf⟩

/-- Settles O3: each of the words is the command's own. -/
theorem specWordsDecode : Obligations.SpecWordsDecode := by
  unfold Obligations.SpecWordsDecode
  simp only [decode_eq_ok_iff_encode]
  decide

/-- Settles O5, by running the assembler on the three lines. -/
theorem assemblerExamples : Obligations.AssemblerExamples := by
  unfold Obligations.AssemblerExamples
  decide

end Sys2Proof.Proofs
end

section
/-! The words the decoder rejects (30_encoding.md R84), and what a step does with each action of the host
(30_encoding.md R86). -/

namespace Sys2Proof.Proofs
open Sys2Proof.Machine

/-! ### The opcodes of each format (30_encoding.md R83) -/

/-- The format of an opcode's row, if it has one. -/
def opcodeFormat (o : BitVec 8) : Option Format := (findRow o).map OpcodeRow.format

theorem opcodeFormat_eq_none_iff (o : BitVec 8) : opcodeFormat o = none ↔
    o.toNat < 0x10 ∨ (0x18 ≤ o.toNat ∧ o.toNat < 0x20) ∨ (0x28 ≤ o.toNat ∧ o.toNat < 0x30) ∨
      0x35 ≤ o.toNat := by
  revert o; decide

/-- The opcodes of the rows of a format. -/
def opcodesOf (f : Format) : List (BitVec 8) := (opcodeMap.filter (·.format = f)).map (·.opc)

theorem opcodeFormat_eq_some_iff (o : BitVec 8) (f : Format) :
    opcodeFormat o = some f ↔ o ∈ opcodesOf f := by
  simp only [opcodeFormat, opcodesOf, Option.map_eq_some_iff, List.mem_map, List.mem_filter, decide_eq_true_eq]
  constructor
  · rintro ⟨r, hrow, hf⟩
    obtain ⟨hmem, hopc⟩ := findRow_some hrow
    exact ⟨r, ⟨hmem, hf⟩, hopc⟩
  · rintro ⟨r, ⟨hmem, hf⟩, rfl⟩
    exact ⟨r, findRow_opc hmem, hf⟩

theorem opcodesOf_u : opcodesOf .u = [0x11#8, 0x16#8, 0x21#8, 0x26#8] := rfl

theorem opcodesOf_ua : opcodesOf .ua =
    [0x10#8, 0x12#8, 0x13#8, 0x14#8, 0x17#8, 0x20#8, 0x22#8, 0x23#8, 0x24#8, 0x27#8] := rfl

theorem opcodesOf_uab : opcodesOf .uab = [0x15#8, 0x25#8] := rfl

theorem opcodesOf_a : opcodesOf .a = [0x32#8, 0x33#8, 0x34#8] := rfl

theorem opcodesOf_abc : opcodesOf .abc = [0x30#8, 0x31#8] := rfl

/-! ### Illegal words -/

theorem exists_decode_iff (w : Command) : (∃ i, decode w = .ok i) ↔
    ∃ r, findRow (opcField w) = some r ∧ w.extractLsb' 96 16 = 0#16 ∧ UnusedFieldsZero r.format w := by
  simp only [decode_eq_ok_iff]
  constructor
  · rintro ⟨_, r, hrow, hzero, -⟩
    exact ⟨r, hrow, hzero⟩
  · rintro ⟨r, hrow, hzero⟩
    exact ⟨_, r, hrow, hzero, rfl⟩

/-- A word is illegal exactly when its opcode has no format, or `RSV` or a field its format does not use is
nonzero. -/
theorem illegal_iff (w : Command) : (∀ i, decode w ≠ .ok i) ↔
    opcodeFormat (opcField w) = none ∨ w.extractLsb' 96 16 ≠ 0#16 ∨
      ∃ f, opcField w ∈ opcodesOf f ∧ ¬ UnusedFieldsZero f w := by
  simp only [← not_exists, exists_decode_iff, ← opcodeFormat_eq_some_iff, opcodeFormat]
  cases findRow (opcField w) with
  | none => simp
  | some r => simp [imp_iff_not_or]

theorem exists_format_iff (p : Format → Prop) : (∃ f, p f) ↔ p .u ∨ p .ua ∨ p .uab ∨ p .a ∨ p .abc := by
  constructor
  · rintro ⟨f, hf⟩
    cases f <;> simp [hf]
  · rintro (h | h | h | h | h) <;> exact ⟨_, h⟩

theorem runWord_of_illegal {w : Command} (h : ∀ i, decode w ≠ .ok i) (s : State) :
    runWord w s = .next (noopEvent s) := by
  unfold runWord
  split
  · next i hi => exact absurd hi (h i)
  · rfl

theorem runWord_of_decode {w : Command} {i : Instr} (h : decode w = .ok i) (s : State) :
    runWord w s = exec i s := by
  unfold runWord
  rw [h]

/-- Settles O4: the alternatives of R84 are the opcodes without a format, `RSV`, and format by format the fields
not used. -/
theorem illegalWordsAreNoops : Obligations.IllegalWordsAreNoops := by
  have hillegal := illegal_iff
  simp only [opcodeFormat_eq_none_iff, exists_format_iff, opcodesOf_u, opcodesOf_ua, opcodesOf_uab, opcodesOf_a,
    opcodesOf_abc, UnusedFieldsZero, UnusedZero, not_and_or] at hillegal
  refine ⟨hillegal, ?_, ?_, ?_⟩
  · intro s w rest hhost h
    rw [step_command hhost, runWord_of_illegal h]
    rfl
  · exact (hillegal _).2 (.inl (.inl (by decide)))
  · exact (hillegal _).2 (.inl (.inr (.inr (.inr (by decide)))))

/-! ### The actions of the host -/

theorem hostWrite_of_lt {a : Word} {s : State} (v : Word) (h : a.toNat < s.cfg.memWords) :
    hostWrite a v s = .next { s with mem := memWrite s.mem a.toNat v } := if_pos h

theorem hostWrite_of_le {a : Word} {s : State} (v : Word) (h : s.cfg.memWords ≤ a.toNat) :
    hostWrite a v s = .fault .absentWord := if_neg (Nat.not_lt.2 h)

/-- Settles O6: the step by the action taken, and of it what the command or the write does. -/
theorem stepRunsPresentedCommand : Obligations.StepRunsPresentedCommand := by
  refine ⟨?_, ?_, ?_, fun _ _ _ => step_hreset, fun _ => step_idle⟩
  · intro s w i rest hhost hdecode
    rw [step_command hhost, runWord_of_decode hdecode]
  · intro s a v rest hhost hlt
    exact (step_write hhost).trans (hostWrite_of_lt v hlt)
  · intro s a v rest hhost hle
    exact (step_write hhost).trans (hostWrite_of_le v hle)

end Sys2Proof.Proofs
end

section
/-! The smoother in binary32 (40_smoother.md R116 items 1 and 2): the comparisons of the statement are
comparisons of values, and what a step does to a value is known. -/

namespace Sys2Proof.Proofs
open Sys2Proof.Machine

theorem not_fpGt_iff {a b : F32} (ha : fpIsNaN a = false) (hb : fpIsNaN b = false) :
    fpGt a b = false ↔ fpValue a ≤ fpValue b := not_fpLt_iff hb ha

theorem fpValue_nonneg_of_not_lt {v : F32} (hv : fpIsFinite v = true) (h : fpLt v 0#32 = false) :
    0 ≤ fpValue v := ((finite_nonneg_iff v).1 ⟨hv, h⟩).2

/-- A rate of at most one half, in units of 2^-149. -/
theorem fpMag_le_of_not_gt_half {r : F32} (hr : fpIsFinite r = true) (h0 : 0 ≤ fpValue r)
    (h : fpGt r 0x3F000000#32 = false) : fpMag r ≤ 2 ^ 148 := by
  have hhalf : fpValue 0x3F000000#32 = 2 ^ 148 := by decide
  rw [not_fpGt_iff (fpIsNaN_of_finite hr) (by decide), hhalf, fpValue_of_nonneg h0] at h
  omega

/-- Settles O51: the step moves the value toward the target, and at a rate of at most one half not past it. -/
theorem smootherNeverOvershootsInBinary32 : Obligations.SmootherNeverOvershootsInBinary32 := by
  intro c t r hc ht hr hcneg htneg hrneg hrone
  have hc0 := fpValue_nonneg_of_not_lt hc hcneg
  have ht0 := fpValue_nonneg_of_not_lt ht htneg
  have hr0 := fpValue_nonneg_of_not_lt hr hrneg
  have hr1 : fpValue r ≤ fpValue fpOne := (not_fpGt_iff (fpIsNaN_of_finite hr) (by decide)).1 hrone
  have hcnum := fpIsNaN_of_finite hc
  have htnum := fpIsNaN_of_finite ht
  have hnum := smoothStep_not_nan hc ht hr hc0 ht0 hr0 hr1
  rw [not_fpGt_iff hcnum htnum, not_fpLt_iff hcnum htnum, not_fpLt_iff hnum hcnum, not_fpGt_iff hnum hcnum,
    not_fpGt_iff hnum htnum, not_fpLt_iff hnum htnum]
  refine ⟨hnum, le_smoothStep_of_le hc ht hr hc0 ht0 hr0 hr1, smoothStep_le_of_ge hc ht hr hc0 ht0 hr0 hr1,
    fun hrhalf => ?_⟩
  have hhalf := fpMag_le_of_not_gt_half hr hr0 hrhalf
  exact ⟨smoothStep_le_target hc ht hr hc0 ht0 hr0 hr1 hhalf,
    target_le_smoothStep hc ht hr hc0 ht0 hr0 hr1 hhalf⟩

end Sys2Proof.Proofs
end

section
/-! The smoother in exact arithmetic (40_smoother.md R111, R112, R115): a step is the point at the rate's share
of the way from the current value to the target, so it stays in every interval that holds both and scales
the distance to the target by `1 - rate`. -/

namespace Sys2Proof.Proofs
open Sys2Proof.Machine

theorem smoothStep_ideal_eq_lineMap (c t r : ℝ) : smoothStep ideal c t r = AffineMap.lineMap c t r := by
  rw [AffineMap.lineMap_apply_ring', mul_comm, add_comm]
  rfl

/-- A step stays in every interval that holds both ends. -/
theorem smoothStep_ideal_mem_Icc {c t r lo hi : ℝ} (hr0 : 0 ≤ r) (hr1 : r ≤ 1) (hc : c ∈ Set.Icc lo hi)
    (ht : t ∈ Set.Icc lo hi) : smoothStep ideal c t r ∈ Set.Icc lo hi := by
  rw [smoothStep_ideal_eq_lineMap]
  exact (convex_Icc lo hi).lineMap_mem hc ht ⟨hr0, hr1⟩

theorem smoothStep_ideal_eq_target_add (c t r : ℝ) :
    smoothStep ideal c t r = t + (1 - r) * (c - t) := by
  rw [smoothStep_ideal_eq_lineMap, AffineMap.lineMap_apply_ring']
  ring

theorem smoothStep_ideal_iterate (c t r : ℝ) (n : Nat) :
    (fun x => smoothStep ideal x t r)^[n] c = t + (1 - r) ^ n * (c - t) := by
  induction n with
  | zero => simp
  | succ n ih =>
    rw [Function.iterate_succ_apply', ih, smoothStep_ideal_eq_target_add, add_sub_cancel_left, pow_succ']
    ring

theorem smoothStep_ideal_tendsto (c t : ℝ) {r : ℝ} (hr0 : 0 < r) (hr1 : r ≤ 1) :
    Filter.Tendsto (fun n : Nat => (fun x => smoothStep ideal x t r)^[n] c) Filter.atTop (nhds t) := by
  simp only [smoothStep_ideal_iterate]
  have hpow : Filter.Tendsto (fun n : Nat => (1 - r) ^ n) Filter.atTop (nhds 0) :=
    tendsto_pow_atTop_nhds_zero_of_lt_one (sub_nonneg.2 hr1) (sub_lt_self 1 hr0)
  simpa using (hpow.mul_const (c - t)).const_add t

/-- Settles O54: the three bounds are one interval each, the rest is the distance scaled. -/
theorem smootherConvergesMonotonically : Obligations.SmootherConvergesMonotonically := by
  intro c t r hr0 hr1
  refine ⟨fun h => ?_, fun h => ?_, fun lo hi hcl hch htl hth => ?_, smoothStep_ideal_iterate c t r,
    fun hpos => smoothStep_ideal_tendsto c t hpos hr1, ?_, ?_, ?_⟩
  · exact smoothStep_ideal_mem_Icc hr0 hr1 ⟨le_rfl, h⟩ ⟨h, le_rfl⟩
  · exact (smoothStep_ideal_mem_Icc hr0 hr1 ⟨h, le_rfl⟩ ⟨le_rfl, h⟩).symm
  · exact smoothStep_ideal_mem_Icc hr0 hr1 ⟨hcl, hch⟩ ⟨htl, hth⟩
  · rw [smoothStep_ideal_eq_lineMap, AffineMap.lineMap_apply_zero]
  · rw [smoothStep_ideal_eq_lineMap, AffineMap.lineMap_apply_one]
  · rw [smoothStep_ideal_eq_lineMap, AffineMap.lineMap_same_apply]

end Sys2Proof.Proofs
end

section
/-! The coefficients of the filter (41_coefficients.md). In binary32 they are the lines of R123. In exact arithmetic
they are functions of `cos ω` and of `alpha = sin ω / (2·Q)`, with `Q > 0` and `0 < ω < π`: the three stability
conditions, the gain at zero frequency and the gain at the cutoff follow from `alpha > 0` and `|cos ω| < 1`. -/

namespace Sys2Proof.Proofs
open Sys2Proof.Machine

/-! ### The evaluation in binary32 -/

theorem alphaOf_mappingA {F : Type} (N : Num F) (sn r : F) :
    alphaOf N .a sn r = N.fdiv sn (N.fmul N.two (N.fadd N.half (N.fmul N.ten r))) := rfl

theorem alphaOf_mappingB {F : Type} (N : Num F) (sn r : F) :
    alphaOf N .b sn r = N.fdiv sn (N.fmul N.two (N.fsub N.one r)) := rfl

/-- Settles O18: `alpha` is the one line that depends on the mapping. -/
theorem coefficientsFollowCookbook : Obligations.CoefficientsFollowCookbook := by
  rintro cfg f r sr _ rfl
  refine ⟨angleOf b32 cfg f sr, fpSin (angleOf b32 cfg f sr), fpCos (angleOf b32 cfg f sr),
    alphaOf b32 cfg.qmap (fpSin (angleOf b32 cfg f sr)) r, _, _, rfl, rfl, rfl, fun hqmap => ?_, fun hqmap => ?_,
    rfl, rfl, rfl, rfl, rfl, rfl, rfl⟩
  · rw [hqmap]
    exact alphaOf_mappingA b32 _ r
  · rw [hqmap]
    exact alphaOf_mappingB b32 _ r

/-! ### The coefficients in exact arithmetic -/

/-- The quality factor `Q` of 41_coefficients.md R122. -/
noncomputable def quality (q : QMap) (r : ℝ) : ℝ :=
  match q with
  | .a => 1 / 2 + 10 * r
  | .b => 1 - r

/-- The angle `ω` of 41_coefficients.md R121. -/
noncomputable def exactAngle (f sr : ℝ) : ℝ := 2 * Real.pi * f / sr

theorem alphaOf_ideal (q : QMap) (sn r : ℝ) : alphaOf ideal q sn r = sn / (2 * quality q r) := by
  cases q <;> rfl

theorem coef_ideal (q : QMap) (g : GateOn) (f r sr : ℝ) :
    coef ideal (idealConfig q g) f r sr =
      coefFrom ideal (Real.sin (exactAngle f sr) / (2 * quality q r)) (Real.cos (exactAngle f sr)) := by
  rw [← alphaOf_ideal]
  rfl

theorem quality_pos (q : QMap) {r : ℝ} (hr0 : 0 ≤ r) (hr1 : r ≤ 99 / 100) : 0 < quality q r := by
  cases q with
  | a => exact add_pos_of_pos_of_nonneg one_half_pos (mul_nonneg (by norm_num) hr0)
  | b => exact sub_pos.2 (hr1.trans_lt (by norm_num))

/-- A cutoff below Nyquist lies on the upper half of the unit circle. -/
theorem sin_exactAngle_pos {f sr : ℝ} (hf : 0 < f) (hsr : f < sr / 2) : 0 < Real.sin (exactAngle f sr) := by
  have hsr0 : 0 < sr := by linarith
  refine Real.sin_pos_of_pos_of_lt_pi (div_pos (mul_pos Real.two_pi_pos hf) hsr0) ((div_lt_iff₀ hsr0).2 ?_)
  calc 2 * Real.pi * f
    _ = Real.pi * (2 * f) := by ring
    _ < Real.pi * sr := mul_lt_mul_of_pos_left (by linarith) Real.pi_pos

/-- `alpha` (41_coefficients.md R121) is positive. -/
theorem alpha_pos (q : QMap) {f r sr : ℝ} (hf : 0 < f) (hsr : f < sr / 2) (hr0 : 0 ≤ r) (hr1 : r ≤ 99 / 100) :
    0 < Real.sin (exactAngle f sr) / (2 * quality q r) :=
  div_pos (sin_exactAngle_pos hf hsr) (mul_pos two_pos (quality_pos q hr0 hr1))

theorem abs_cos_lt_one_of_sin_pos {w : ℝ} (h : 0 < Real.sin w) : |Real.cos w| < 1 := by
  rw [← sq_lt_one_iff_abs_lt_one, Real.cos_sq']
  exact sub_lt_self 1 (pow_pos h 2)

section
variable (al cs : ℝ)

theorem coefFrom_ideal_b0 : (coefFrom ideal al cs).b0 = (1 - cs) / (2 * (1 + al)) := rfl
theorem coefFrom_ideal_b1 : (coefFrom ideal al cs).b1 = (1 - cs) / (1 + al) := rfl
theorem coefFrom_ideal_b2 : (coefFrom ideal al cs).b2 = (1 - cs) / (2 * (1 + al)) := rfl
theorem coefFrom_ideal_a1 : (coefFrom ideal al cs).a1 = -2 * cs / (1 + al) := rfl
theorem coefFrom_ideal_a2 : (coefFrom ideal al cs).a2 = (1 - al) / (1 + al) := rfl

end

/-! ### The stability conditions and the gain at zero frequency -/

section
variable {al cs : ℝ}

theorem denominator_at_one (hal : 0 < al) :
    1 + (coefFrom ideal al cs).a1 + (coefFrom ideal al cs).a2 = 2 * (1 - cs) / (1 + al) := by
  rw [coefFrom_ideal_a1, coefFrom_ideal_a2]
  field_simp
  ring

theorem denominator_at_neg_one (hal : 0 < al) :
    1 - (coefFrom ideal al cs).a1 + (coefFrom ideal al cs).a2 = 2 * (1 + cs) / (1 + al) := by
  rw [coefFrom_ideal_a1, coefFrom_ideal_a2]
  field_simp
  ring

theorem numerator_at_one (hal : 0 < al) :
    (coefFrom ideal al cs).b0 + (coefFrom ideal al cs).b1 + (coefFrom ideal al cs).b2 =
      2 * (1 - cs) / (1 + al) := by
  rw [coefFrom_ideal_b0, coefFrom_ideal_b1, coefFrom_ideal_b2]
  field_simp
  ring

theorem denominator_at_one_pos (hal : 0 < al) (hcs : |cs| < 1) :
    0 < 1 + (coefFrom ideal al cs).a1 + (coefFrom ideal al cs).a2 := by
  rw [denominator_at_one hal]
  exact div_pos (by linarith [lt_of_abs_lt hcs]) (by linarith)

theorem denominator_at_neg_one_pos (hal : 0 < al) (hcs : |cs| < 1) :
    0 < 1 - (coefFrom ideal al cs).a1 + (coefFrom ideal al cs).a2 := by
  rw [denominator_at_neg_one hal]
  exact div_pos (by linarith [neg_lt_of_abs_lt hcs]) (by linarith)

theorem abs_a2_lt_one (hal : 0 < al) : |(coefFrom ideal al cs).a2| < 1 := by
  have hden : 0 < 1 + al := by linarith
  rw [coefFrom_ideal_a2, abs_div, abs_of_pos hden, div_lt_one hden, abs_lt]
  constructor <;> linarith

end

/-! ### The poles -/

/-- A real root of `z² + p·z + q` under the three conditions: the other root is `-p - x`, and a root outside
`(-1, 1)` would force both on the same side of the interval, with a product past one. -/
theorem abs_root_lt_one {p q x : ℝ} (hq : |q| < 1) (hone : 0 < 1 + p + q) (hneg : 0 < 1 - p + q)
    (hx : x ^ 2 + p * x + q = 0) : |x| < 1 := by
  have hq1 := lt_of_abs_lt hq
  have hprod : x * (-p - x) = q := by linarith
  have hright : 0 < (1 - x) * (1 - (-p - x)) := by linarith
  have hleft : 0 < (1 + x) * (1 + (-p - x)) := by linarith
  refine abs_lt.2 ⟨not_le.1 fun hout => ?_, not_le.1 fun hout => ?_⟩
  · have hother : 1 + (-p - x) < 0 := neg_of_mul_pos_right hleft (by linarith)
    nlinarith
  · have hother : 1 - (-p - x) < 0 := neg_of_mul_pos_right hright (by linarith)
    nlinarith

/-- The triangle of the three conditions (41_coefficients.md R124): a root is real, or it and its conjugate
have the product `q`. -/
theorem norm_root_lt_one {p q : ℝ} {z : ℂ} (hq : |q| < 1) (hone : 0 < 1 + p + q) (hneg : 0 < 1 - p + q)
    (hz : z ^ 2 + (p : ℂ) * z + (q : ℂ) = 0) : ‖z‖ < 1 := by
  have hre : z.re ^ 2 - z.im ^ 2 + p * z.re + q = 0 := by
    simpa [pow_two] using congrArg Complex.re hz
  have him : z.im * (2 * z.re + p) = 0 := by
    have h : z.re * z.im + z.im * z.re + p * z.im = 0 := by simpa [pow_two] using congrArg Complex.im hz
    linarith
  rw [← sq_lt_one_iff₀ (norm_nonneg z), Complex.sq_norm, Complex.normSq_apply]
  rcases mul_eq_zero.1 him with hreal | hpair
  · rw [hreal] at hre ⊢
    have hroot := abs_root_lt_one hq hone hneg (x := z.re) (by linarith)
    linarith [(sq_lt_one_iff_abs_lt_one z.re).2 hroot]
  · calc z.re * z.re + z.im * z.im
      _ = q := by linear_combination z.re * hpair - hre
      _ < 1 := lt_of_abs_lt hq

/-! ### The response at the cutoff -/

theorem exp_neg_angle (w : ℝ) :
    Complex.exp (-(w : ℂ) * Complex.I) = (Real.cos w : ℂ) - Real.sin w * Complex.I := by
  rw [Complex.exp_mul_I, Complex.cos_neg, Complex.sin_neg, Complex.ofReal_cos, Complex.ofReal_sin]
  ring

/-- The numerator of the transfer function at `z⁻¹ = z`. -/
noncomputable def transferNumerator (k : Coefs ℝ) (z : ℂ) : ℂ := (k.b0 : ℂ) + k.b1 * z + k.b2 * z ^ 2

/-- The denominator of the transfer function at `z⁻¹ = z`. -/
noncomputable def transferDenominator (k : Coefs ℝ) (z : ℂ) : ℂ := 1 + k.a1 * z + k.a2 * z ^ 2

section
variable {al c s : ℝ}

theorem ofReal_one_add_ne_zero (hal : 0 < al) : (1 + al : ℂ) ≠ 0 := by
  exact_mod_cast (add_pos one_pos hal).ne'

/-- A point of the unit circle satisfies its characteristic equation. -/
theorem sq_circle_point (hcircle : (c : ℂ) ^ 2 + (s : ℂ) ^ 2 = 1) :
    (c - s * Complex.I) ^ 2 = 2 * c * (c - s * Complex.I) - 1 := by
  linear_combination -hcircle + (s : ℂ) ^ 2 * Complex.I_sq

theorem circle_point_ne_zero (hcircle : (c : ℂ) ^ 2 + (s : ℂ) ^ 2 = 1) : c - s * Complex.I ≠ 0 := by
  have hinv : (c - s * Complex.I) * (c + s * Complex.I) = 1 := by
    linear_combination hcircle - (s : ℂ) ^ 2 * Complex.I_sq
  exact left_ne_zero_of_mul_eq_one hinv

theorem transferNumerator_at_cutoff (hal : 0 < al) (hcircle : (c : ℂ) ^ 2 + (s : ℂ) ^ 2 = 1) :
    transferNumerator (coefFrom ideal al c) (c - s * Complex.I) = (c - s * Complex.I) * (s ^ 2 / (1 + al)) := by
  have hden := ofReal_one_add_ne_zero hal
  rw [transferNumerator, coefFrom_ideal_b0, coefFrom_ideal_b1, coefFrom_ideal_b2, sq_circle_point hcircle]
  push_cast
  field_simp
  linear_combination -2 * (c - s * Complex.I) * hcircle

theorem transferDenominator_at_cutoff (hal : 0 < al) (hcircle : (c : ℂ) ^ 2 + (s : ℂ) ^ 2 = 1) :
    transferDenominator (coefFrom ideal al c) (c - s * Complex.I) =
      (c - s * Complex.I) * (2 * al * s * Complex.I / (1 + al)) := by
  have hden := ofReal_one_add_ne_zero hal
  rw [transferDenominator, coefFrom_ideal_a1, coefFrom_ideal_a2, sq_circle_point hcircle]
  push_cast
  field_simp
  linear_combination -2 * (al : ℂ) * hcircle + 2 * (al : ℂ) * (s : ℂ) ^ 2 * Complex.I_sq

/-- The response at the cutoff is `-i·sin ω / (2·alpha)`, a quarter turn late. -/
theorem response_at_cutoff (hal : 0 < al) (hs : 0 < s) (hcircle : (c : ℂ) ^ 2 + (s : ℂ) ^ 2 = 1) :
    transferNumerator (coefFrom ideal al c) (c - s * Complex.I) /
        transferDenominator (coefFrom ideal al c) (c - s * Complex.I) = ((s / (2 * al) : ℝ) : ℂ) * -Complex.I := by
  have hden := ofReal_one_add_ne_zero hal
  have hal0 : (al : ℂ) ≠ 0 := by exact_mod_cast hal.ne'
  have hs0 : (s : ℂ) ≠ 0 := by exact_mod_cast hs.ne'
  rw [transferNumerator_at_cutoff hal hcircle, transferDenominator_at_cutoff hal hcircle,
    mul_div_mul_left _ _ (circle_point_ne_zero hcircle)]
  push_cast
  field_simp
  linear_combination Complex.I_sq

end

theorem norm_response_at_cutoff {al w : ℝ} (hal : 0 < al) (hsin : 0 < Real.sin w) :
    ‖transferNumerator (coefFrom ideal al (Real.cos w)) (Complex.exp (-(w : ℂ) * Complex.I)) /
        transferDenominator (coefFrom ideal al (Real.cos w)) (Complex.exp (-(w : ℂ) * Complex.I))‖ =
      Real.sin w / (2 * al) := by
  have hcircle : (Real.cos w : ℂ) ^ 2 + (Real.sin w : ℂ) ^ 2 = 1 := by
    exact_mod_cast Real.cos_sq_add_sin_sq w
  rw [exp_neg_angle, response_at_cutoff hal hsin hcircle, norm_mul, norm_neg, Complex.norm_I, mul_one,
    Complex.norm_real, Real.norm_of_nonneg (by positivity)]

/-! ### The three properties of the source -/

/-- Settles O55: the three conditions, and from them the poles. -/
theorem polesInsideUnitCircle : Obligations.PolesInsideUnitCircle := by
  rintro q g f r sr _ hf hsr hr0 hr1 rfl
  have hsin := sin_exactAngle_pos hf hsr
  have hal := alpha_pos q hf hsr hr0 hr1
  have hcs := abs_cos_lt_one_of_sin_pos hsin
  rw [coef_ideal]
  have ha2 := abs_a2_lt_one (cs := Real.cos (exactAngle f sr)) hal
  have hone := denominator_at_one_pos hal hcs
  have hneg := denominator_at_neg_one_pos hal hcs
  exact ⟨ha2, hone, hneg, fun z => norm_root_lt_one ha2 hone hneg⟩

/-- Settles O56: numerator and denominator agree at zero frequency, and are not zero there. -/
theorem dcGainIsOne : Obligations.DcGainIsOne := by
  rintro q g f r sr _ hf hsr hr0 hr1 rfl
  have hal := alpha_pos q hf hsr hr0 hr1
  have hcs := abs_cos_lt_one_of_sin_pos (sin_exactAngle_pos hf hsr)
  rw [coef_ideal]
  have hne := (denominator_at_one_pos hal hcs).ne'
  exact ⟨hne, by rw [numerator_at_one hal, ← denominator_at_one hal, div_self hne]⟩

/-- Settles O57: the magnitude is `sin ω / (2·alpha)`, and `alpha` is `sin ω / (2·Q)`. -/
theorem gainAtCutoffIsQ : Obligations.GainAtCutoffIsQ := by
  rintro q g f r sr _ _ hf hsr hr0 hr1 rfl rfl
  have hsin := sin_exactAngle_pos hf hsr
  have hQ := quality_pos q hr0 hr1
  rw [coef_ideal]
  calc _
    _ = Real.sin (exactAngle f sr) / (2 * (Real.sin (exactAngle f sr) / (2 * quality q r))) :=
      norm_response_at_cutoff (alpha_pos q hf hsr hr0 hr1) hsin
    _ = quality q r := by field_simp

end Sys2Proof.Proofs
end

section
/-! The filter commands one by one (42_filter.md R141 to R148), by the handle test and the tests of the operands. -/

namespace Sys2Proof.Proofs
open Sys2Proof.Machine

/-! ### F_CREATE (42_filter.md R141) -/

theorem execFCreate_of_index {u : Nat} {s : State} (sr : F32) (h : s.filters.length ≤ u) :
    execFCreate u sr s = .next (noopEvent s) := if_pos h

theorem execFCreate_of_rejected {u : Nat} {sr : F32} {s : State} (hu : u < s.filters.length)
    (h : rateAccepted b32 sr = false) : execFCreate u sr s = .next (noopEvent s) := by
  unfold execFCreate
  rw [if_neg (Nat.not_le.2 hu), h]
  rfl

theorem execFCreate_of_accepted {u : Nat} {sr : F32} {s : State} (hu : u < s.filters.length)
    (h : rateAccepted b32 sr = true) :
    execFCreate u sr s = .next (s.setFilter u (some (newFilter b32 s.cfg sr))) := by
  unfold execFCreate
  rw [if_neg (Nat.not_le.2 hu), if_pos h]

theorem rateAccepted_eq (sr : F32) : rateAccepted b32 sr = (fpIsFinite sr && fpGt sr 0#32) := rfl

/-- Settles O11: an index in range with a rate accepted, with a rate rejected, and an index out of range. -/
theorem fCreateInitialisesUnit : Obligations.FCreateInitialisesUnit := by
  intro s u sr
  refine ⟨fun hu hfinite hpos => ⟨_, _, rfl, rfl, ?_⟩, fun hu hrate => ?_, execFCreate_of_index sr⟩
  · exact execFCreate_of_accepted hu (by rw [rateAccepted_eq, hfinite, hpos]; rfl)
  · exact execFCreate_of_rejected hu (by rwa [rateAccepted_eq, Bool.and_eq_false_iff])

/-! ### F_DESTROY (42_filter.md R142) -/

/-- Settles O12: a live unit's place in the bank is emptied; a unit that is not live fails the handle test. -/
theorem fDestroyEndsUnit : Obligations.FDestroyEndsUnit := by
  intro s u
  constructor
  · intro f hf
    exact ⟨onFilter_of_live _ hf, filter?_setFilter_self none (filter_lt_of_live hf)⟩
  · exact onFilter_of_dead _

/-! ### The setters (42_filter.md R143 to R145) -/

theorem setClamped_of_nan {v : F32} (lo hi : F32) (s : State) (store : F32 → State → State)
    (h : fpIsNaN v = true) : setClamped v lo hi s store = .next (noopEvent s) := if_pos h

theorem setClamped_of_number {v : F32} (lo hi : F32) (s : State) (store : F32 → State → State)
    (h : fpIsNaN v = false) :
    setClamped v lo hi s store =
      .next (store (clamp b32 v lo hi) (if fpLt v lo || fpGt v hi then clampEvent s else s)) := by
  unfold setClamped
  rw [h]
  rfl

/-- A setter of a filter unit: the range of its operand and the register it stores, by the unit. -/
def filterSetter (u : Nat) (v : F32) (lo hi : FilterUnit F32 → F32)
    (store : FilterUnit F32 → F32 → FilterUnit F32) (s : State) : Answer :=
  onFilter u s fun f => setClamped v (lo f) (hi f) s fun w t => t.setFilter u (some (store f w))

theorem exec_fSetFreq (u : Nat) (hz : F32) (s : State) :
    exec (.fSetFreq u hz) s = filterSetter u hz (fun _ => s.cfg.fFmin)
      (fun f => freqCeiling b32 s.cfg f.sampleRate) (fun f w => { f with tgtFreq := w }) s := rfl

theorem exec_fSetRes (u : Nat) (r : F32) (s : State) :
    exec (.fSetRes u r) s = filterSetter u r (fun _ => s.cfg.resMin) (fun _ => s.cfg.resMax)
      (fun f w => { f with tgtRes := w }) s := rfl

theorem exec_fSetSmooth (u : Nat) (rate : F32) (s : State) :
    exec (.fSetSmooth u rate) s = filterSetter u rate (fun _ => s.cfg.smoothMin) (fun _ => s.cfg.smoothMax)
      (fun f w => { f with smooth := w }) s := rfl

section
variable (u : Nat) (v : F32) (lo hi : FilterUnit F32 → F32) (store : FilterUnit F32 → F32 → FilterUnit F32)
  (s : State)

/-- What a setter does, by the handle test and the class of its operand. -/
theorem filterSetter_spec :
    (∀ f, s.filter? u = some f → fpIsNaN v = false →
      filterSetter u v lo hi store s = .next
        ((if fpLt v (lo f) || fpGt v (hi f) then clampEvent s else s).setFilter u
          (some (store f (clamp b32 v (lo f) (hi f)))))) ∧
    (∀ f, s.filter? u = some f → fpIsNaN v = true → filterSetter u v lo hi store s = .next (noopEvent s)) ∧
    (s.filter? u = none → filterSetter u v lo hi store s = .next (noopEvent s)) := by
  refine ⟨fun f hf hv => ?_, fun f hf hv => ?_, onFilter_of_dead _⟩
  · exact (onFilter_of_live _ hf).trans (setClamped_of_number _ _ s _ hv)
  · exact (onFilter_of_live _ hf).trans (setClamped_of_nan _ _ s _ hv)

end

/-- Settles O13: the setter of `TGT_FREQ`, whose upper bound is the unit's ceiling. -/
theorem fSetFreqWritesTarget : Obligations.FSetFreqWritesTarget := by
  intro s u hz
  rw [exec_fSetFreq]
  exact filterSetter_spec u hz _ _ _ s

/-- Settles O14: the setter of `TGT_RES`. -/
theorem fSetResWritesTarget : Obligations.FSetResWritesTarget := by
  intro s u r
  rw [exec_fSetRes]
  exact filterSetter_spec u r _ _ _ s

/-- Settles O15: the setter of `SMOOTH`. -/
theorem fSetSmoothWritesRate : Obligations.FSetSmoothWritesRate := by
  intro s u rate
  rw [exec_fSetSmooth]
  exact filterSetter_spec u rate _ _ _ s

/-! ### F_RESET (42_filter.md R147) -/

theorem execFReset_of_live {u : Nat} {s : State} {f : FilterUnit F32} (h : s.filter? u = some f) :
    execFReset u s = .next (s.setFilter u (some (f.clearDelay b32))) := onFilter_of_live _ h

/-- A delay line that is zero is left as it is. -/
theorem clearDelay_of_zero {f : FilterUnit F32} (hx1 : f.x1 = 0#32) (hx2 : f.x2 = 0#32) (hy1 : f.y1 = 0#32)
    (hy2 : f.y2 = 0#32) : f.clearDelay b32 = f := by
  obtain ⟨⟩ := f
  subst hx1 hx2 hy1 hy2
  rfl

/-- Writing a live unit's own registers changes nothing. -/
theorem setFilter_self {s : State} {u : Nat} {f : FilterUnit F32} (h : s.filter? u = some f) :
    s.setFilter u (some f) = s := by
  have hunit : s.filters[u]? = some (some f) := Option.join_eq_some_iff.1 h
  have hset : s.filters.set u (some f) = s.filters := by
    obtain ⟨hlt, hget⟩ := List.getElem?_eq_some_iff.1 hunit
    rw [← hget, List.set_getElem_self]
  unfold State.setFilter
  rw [hset]

/-- Settles O21: the reset of a live unit, which on a zero delay line writes back what is there. -/
theorem fResetClearsDelayLine : Obligations.FResetClearsDelayLine := by
  intro s u
  refine ⟨fun f hf => execFReset_of_live hf, fun f hf hx1 hx2 hy1 hy2 => ?_, onFilter_of_dead _⟩
  calc execFReset u s
    _ = .next (s.setFilter u (some (f.clearDelay b32))) := execFReset_of_live hf
    _ = .next s := by rw [clearDelay_of_zero hx1 hx2 hy1 hy2, setFilter_self hf]

/-! ### F_PEEK (42_filter.md R148) -/

/-- The registers of selectors 0 to 14, in their order (10_state.md R43). -/
def filterRegisters (f : FilterUnit F32) : List F32 :=
  [f.sampleRate, f.curFreq, f.tgtFreq, f.curRes, f.tgtRes, f.smooth, f.b0, f.b1, f.b2, f.a1, f.a2,
    f.x1, f.x2, f.y1, f.y2]

theorem filterSelect_of_lt (f : FilterUnit F32) {k : Nat} (h : k < 15) :
    filterSelect f (BitVec.ofNat 32 k) = (filterRegisters f)[k]? := by
  interval_cases k <;> rfl

theorem filterSelect_of_ge (f : FilterUnit F32) {sel : Word} (h : 16 ≤ sel.toNat) :
    filterSelect f sel = none := by
  obtain ⟨n, hn⟩ := Nat.exists_eq_add_of_le' h
  unfold filterSelect
  rw [hn]
  rfl

theorem execFPeek_selLive (u : Nat) (s : State) :
    execFPeek u selLive s = .next (s.setResult (liveWord (s.filter? u).isSome)) := if_pos rfl

theorem execFPeek_of_dead {u : Nat} {sel : Word} {s : State} (hsel : sel ≠ selLive) (h : s.filter? u = none) :
    execFPeek u sel s = .next (noopEvent s) := (if_neg hsel).trans (onFilter_of_dead _ h)

theorem execFPeek_of_live {u : Nat} {sel : Word} {s : State} {f : FilterUnit F32} (hsel : sel ≠ selLive)
    (h : s.filter? u = some f) : execFPeek u sel s = peekResult s (filterSelect f sel) :=
  (if_neg hsel).trans (onFilter_of_live _ h)

/-- Settles O22: selector 15 comes before the handle test; after it a live unit answers by the selector table. -/
theorem fPeekReadsRegister : Obligations.FPeekReadsRegister := by
  intro s u
  have hlive : exec (.fPeek u 15#32) s = .next (s.setResult (liveWord (s.filter? u).isSome)) :=
    execFPeek_selLive u s
  refine ⟨fun f hf => ⟨fun k hk => ?_, ?_, fun sel hsel => ?_⟩, fun hdead => ⟨?_, fun sel hsel => ?_⟩⟩
  · obtain ⟨v, hv⟩ : ∃ v, (filterRegisters f)[k]? = some v := ⟨_, List.getElem?_eq_getElem hk⟩
    have hne : BitVec.ofNat 32 k ≠ selLive := by
      unfold selLive
      bv_omega
    refine ⟨v, ?_, hv⟩
    calc execFPeek u (BitVec.ofNat 32 k) s
      _ = peekResult s (filterSelect f (BitVec.ofNat 32 k)) := execFPeek_of_live hne hf
      _ = .next (s.setResult v) := by rw [filterSelect_of_lt f hk, hv, peekResult_some]
  · rw [hlive, hf]
    rfl
  · have hne : sel ≠ selLive := by
      rintro rfl
      exact absurd hsel (by decide)
    calc execFPeek u sel s
      _ = peekResult s (filterSelect f sel) := execFPeek_of_live hne hf
      _ = .next (noopEvent s) := by rw [filterSelect_of_ge f hsel, peekResult_none]
  · rw [hlive, hdead]
    rfl
  · exact execFPeek_of_dead hsel hdead

end Sys2Proof.Proofs
end

section
/-! The sample loop of F_PROCESS (42_filter.md R140, R146): it is the stream of its buffer, output by output the
difference equation, and it leaves the buffer's words to be the outputs. With it the buffer tests a PROCESS passes. -/

namespace Sys2Proof.Proofs
open Sys2Proof.Machine

/-! ### The buffer tests passed and failed -/

theorem onBuffer_of_empty {ptr count : Word} {s : State} (k : Answer) (h : ptr = 0#32 ∨ count = 0#32) :
    onBuffer ptr count s k = .next (noopEvent s) := by
  have hempty : emptyBuffer ptr count = true := by simpa [emptyBuffer] using h
  exact if_pos hempty

theorem onBuffer_of_inside {ptr count : Word} {s : State} (k : Answer) (hptr : ptr ≠ 0#32)
    (hcount : count ≠ 0#32) (hin : ptr.toNat + count.toNat ≤ s.cfg.memWords) : onBuffer ptr count s k = k := by
  have hinside : bufferInside s.cfg ptr count = true := decide_eq_true hin
  unfold onBuffer
  rw [emptyBuffer_eq_false_iff.2 ⟨hptr, hcount⟩, hinside]
  rfl

/-- The state after a sample loop on filter unit `u` that leaves `r`: the unit and the memory. -/
def filterProcessed (u : Nat) (r : FilterUnit F32 × Memory) (s : State) : State :=
  { s.setFilter u (some r.1) with mem := r.2 }

@[simp] theorem filterProcessed_cfg (u : Nat) (r : FilterUnit F32 × Memory) (s : State) :
    (filterProcessed u r s).cfg = s.cfg := rfl

@[simp] theorem filterProcessed_mem (u : Nat) (r : FilterUnit F32 × Memory) (s : State) :
    (filterProcessed u r s).mem = r.2 := rfl

/-- F_PROCESS on a live unit: one block update and the sample loop, if the buffer passes its tests. -/
theorem exec_fProcess_of_live {u : Nat} (ptr count : Word) {s : State} {f : FilterUnit F32}
    (hf : s.filter? u = some f) :
    exec (.fProcess u ptr count) s = onBuffer ptr count s (.next
      (filterProcessed u (filterLoop count.toNat ptr.toNat (blockUpdate b32 s.cfg f) s.mem) s)) :=
  onFilter_of_live _ hf

theorem exec_fProcess_of_inside {u : Nat} {ptr count : Word} {s : State} {f : FilterUnit F32}
    (hf : s.filter? u = some f) (hptr : ptr ≠ 0#32) (hcount : count ≠ 0#32)
    (hin : ptr.toNat + count.toNat ≤ s.cfg.memWords) :
    exec (.fProcess u ptr count) s = .next
      (filterProcessed u (filterLoop count.toNat ptr.toNat (blockUpdate b32 s.cfg f) s.mem) s) :=
  (exec_fProcess_of_live ptr count hf).trans (onBuffer_of_inside _ hptr hcount hin)

theorem filter?_filterProcessed {u : Nat} {s : State} {f : FilterUnit F32} (r : FilterUnit F32 × Memory)
    (hf : s.filter? u = some f) : (filterProcessed u r s).filter? u = some r.1 :=
  filter?_setFilter_self _ (filter_lt_of_live hf)

/-- Of two loops on one unit the second is what stays. -/
theorem filterProcessed_filterProcessed (u : Nat) (r r' : FilterUnit F32 × Memory) (s : State) :
    filterProcessed u r' (filterProcessed u r s) = filterProcessed u r' s := by
  unfold filterProcessed State.setFilter
  rw [List.set_set]

/-- Settles O19: of the two tests of a PROCESS, the handle's or the buffer's fails. -/
theorem emptyProcessIsNoop : Obligations.EmptyProcessIsNoop := by
  intro s u ptr count
  constructor
  · intro h
    cases hf : s.filter? u with
    | none => exact onFilter_of_dead _ hf
    | some f =>
      have hempty : ptr = 0#32 ∨ count = 0#32 := h.resolve_left (by simp [hf])
      exact (exec_fProcess_of_live ptr count hf).trans (onBuffer_of_empty _ hempty)
  · intro h
    cases ho : s.osc? u with
    | none => exact onOsc_of_dead _ ho
    | some o =>
      have hempty : ptr = 0#32 ∨ count = 0#32 := h.resolve_left (by simp [ho])
      exact (onOsc_of_live _ ho).trans (onBuffer_of_empty _ hempty)

/-! ### The loop in parts -/

/-- A loop in two parts: the second goes on where the first ends. -/
theorem filterLoop_add (n k a : Nat) (f : FilterUnit F32) (m : Memory) :
    filterLoop (n + k) a f m = filterLoop k (a + n) (filterLoop n a f m).1 (filterLoop n a f m).2 := by
  induction n generalizing a f m with
  | zero => rw [Nat.zero_add]; rfl
  | succ n ih => rw [Nat.add_right_comm, filterLoop, ih, Nat.add_assoc, Nat.add_comm 1 n]; rfl

/-- The loop's last sample. -/
theorem filterLoop_succ_last (n a : Nat) (f : FilterUnit F32) (m : Memory) :
    filterLoop (n + 1) a f m =
      ((biquadStep b32 (filterLoop n a f m).1 (memRead (filterLoop n a f m).2 (a + n))).2,
        memWrite (filterLoop n a f m).2 (a + n)
          (biquadOut b32 (filterLoop n a f m).1 (memRead (filterLoop n a f m).2 (a + n)))) :=
  filterLoop_add n 1 a f m

/-- The loop does not touch a word above its buffer. -/
theorem filterLoop_above (n : Nat) {a x : Nat} (f : FilterUnit F32) (m : Memory) (h : a + n ≤ x) :
    memRead (filterLoop n a f m).2 x = memRead m x := by
  unfold memRead
  simp only [filterLoop_outside n a f m (x := 4 * x) (by omega),
    filterLoop_outside n a f m (x := 4 * x + 1) (by omega),
    filterLoop_outside n a f m (x := 4 * x + 2) (by omega),
    filterLoop_outside n a f m (x := 4 * x + 3) (by omega)]

/-- The loop is the stream of its buffer's words (42_filter.md R146). -/
theorem filterLoop_eq_filterStream (n a : Nat) (f : FilterUnit F32) {m : Memory} (hm : m.wf = true) :
    (filterLoop n a f m).1 = (filterStream b32 f (samplesFrom m a n)).2 ∧
      samplesFrom (filterLoop n a f m).2 a n = (filterStream b32 f (samplesFrom m a n)).1 := by
  induction n generalizing a f m with
  | zero => exact ⟨rfl, rfl⟩
  | succ n ih =>
    obtain ⟨hunit, hwords⟩ :=
      ih (a + 1) (biquadStep b32 f (memRead m a)).2 (wf_memWrite hm a (biquadOut b32 f (memRead m a)))
    rw [samplesFrom_memWrite_below n _ m (Nat.lt_succ_self a)] at hunit hwords
    rw [filterLoop, samplesFrom, samplesFrom, filterStream_cons, biquadStep_out]
    refine ⟨hunit, ?_⟩
    rw [hwords, filterLoop_below n _ _ (Nat.lt_succ_self a), memRead_memWrite_self hm]

/-- The word a loop leaves at a sample is the output of the unit as the samples before left it. -/
theorem memRead_filterLoop {n count : Nat} (a : Nat) (f : FilterUnit F32) {m : Memory} (hm : m.wf = true)
    (hn : n < count) :
    memRead (filterLoop count a f m).2 (a + n) =
      biquadOut b32 (filterLoop n a f m).1 (memRead m (a + n)) := by
  obtain ⟨k, rfl⟩ := Nat.exists_eq_add_of_le (Nat.succ_le_of_lt hn)
  rw [filterLoop_add (n + 1) k, filterLoop_below _ _ _ (by omega), filterLoop_succ_last,
    memRead_memWrite_self (filterLoop_wf n a f hm), filterLoop_above n f m le_rfl]

/-! ### The samples in and out, with the delay line before them -/

/-- A sequence of samples with the two before them: first the older, then the younger. -/
def withHistory (older younger : F32) (z : Nat → F32) : Nat → F32
  | 0 => older
  | 1 => younger
  | n + 2 => z n

/-- The samples that the loop reads, its unit's delay line before them. -/
def loopInput (a : Nat) (g : FilterUnit F32) (m : Memory) : Nat → F32 :=
  withHistory g.x2 g.x1 fun n => memRead m (a + n)

/-- The samples that the loop of `count` samples leaves, its unit's delay line before them. -/
def loopOutput (count a : Nat) (g : FilterUnit F32) (m : Memory) : Nat → F32 :=
  withHistory g.y2 g.y1 fun n => memRead (filterLoop count a g m).2 (a + n)

section
variable {n count : Nat} (a : Nat) (g : FilterUnit F32) {m : Memory} (hm : m.wf = true)
include hm

/-- After `n` samples the delay line holds the last two of each sequence, and no other register has moved. -/
theorem filterLoop_unit_eq_history (hn : n ≤ count) :
    (filterLoop n a g m).1 =
      { g with x1 := loopInput a g m (n + 1), x2 := loopInput a g m n
               y1 := loopOutput count a g m (n + 1), y2 := loopOutput count a g m n } := by
  induction n with
  | zero => rfl
  | succ n ih =>
    have hout : loopOutput count a g m (n + 2) = biquadOut b32 (filterLoop n a g m).1 (memRead m (a + n)) :=
      memRead_filterLoop a g hm hn
    rw [filterLoop_succ_last, filterLoop_above n g m le_rfl, biquadStep_unit, ← hout, ih (by omega)]
    rfl

/-- The difference equation (42_filter.md R140) on the two sequences. -/
theorem loopOutput_difference (hn : n < count) :
    loopOutput count a g m (n + 2) =
      fpSub (fpSub (fpAdd (fpAdd (fpMul g.b0 (loopInput a g m (n + 2))) (fpMul g.b1 (loopInput a g m (n + 1))))
        (fpMul g.b2 (loopInput a g m n))) (fpMul g.a1 (loopOutput count a g m (n + 1))))
        (fpMul g.a2 (loopOutput count a g m n)) := by
  calc loopOutput count a g m (n + 2)
    _ = biquadOut b32 (filterLoop n a g m).1 (memRead m (a + n)) := memRead_filterLoop a g hm hn
    _ = _ := by rw [filterLoop_unit_eq_history a g hm hn.le]; rfl

end

/-- Settles O16: the loop is the stream over the buffer, and word by word the difference equation. -/
theorem fProcessFiltersBufferInPlace : Obligations.FProcessFiltersBufferInPlace := by
  intro s u ptr count f hwf hf hptr hcount hin
  have hexec := exec_fProcess_of_inside hf hptr hcount hin
  generalize blockUpdate b32 s.cfg f = g at hexec ⊢
  obtain ⟨hunit, hwords⟩ := filterLoop_eq_filterStream count.toNat ptr.toNat g hwf
  refine ⟨g, (filterLoop count.toNat ptr.toNat g s.mem).2, _, loopInput ptr.toNat g s.mem,
    loopOutput count.toNat ptr.toNat g s.mem, rfl, rfl, ?_, hwords,
    fun _ => filterLoop_outside _ _ _ _, ⟨rfl, rfl, rfl, rfl⟩,
    fun n hn => ⟨rfl, rfl, loopOutput_difference _ _ hwf hn⟩, ?_⟩
  · rw [← hunit]
    exact hexec
  · rw [← hunit]
    exact filterLoop_unit_eq_history _ _ hwf le_rfl

end Sys2Proof.Proofs
end

section
/-! The block update (42_filter.md R149): both current values advance and the gate decides on the coefficients. At
the target the values rest, but for the sign of a zero, and the gate stays shut, so that a block may be cut in two
(R152). -/

namespace Sys2Proof.Proofs
open Sys2Proof.Machine

/-! ### The advance and the gate -/

/-- The unit with both current values advanced once (40_smoother.md R110). -/
def advanced {F : Type} (N : Num F) (f : FilterUnit F) : FilterUnit F :=
  { f with
    curFreq := smoothStep N f.curFreq f.tgtFreq f.smooth
    curRes := smoothStep N f.curRes f.tgtRes f.smooth }

/-- The values that the gate tests: the advanced ones under `POST`, the old ones under `PRE`. -/
def gateValues {F : Type} (N : Num F) (g : GateOn) (f : FilterUnit F) : F × F :=
  match g with
  | .post => ((advanced N f).curFreq, (advanced N f).curRes)
  | .pre => (f.curFreq, f.curRes)

theorem blockUpdate_eq {F : Type} (N : Num F) (cfg : Config F) (f : FilterUnit F) :
    blockUpdate N cfg f =
      if gateOpen N cfg f (gateValues N cfg.gateOn f).1 (gateValues N cfg.gateOn f).2 then
        (advanced N f).withCoefs (coef N cfg (advanced N f).curFreq (advanced N f).curRes f.sampleRate)
      else advanced N f := by
  unfold blockUpdate
  cases cfg.gateOn <;> rfl

theorem gateOpen_b32 (cfg : Config F32) (f : FilterUnit F32) (gf gr : F32) :
    gateOpen b32 cfg f gf gr =
      (fpGt (fpAbs (fpSub gf f.tgtFreq)) cfg.hystF || fpGt (fpAbs (fpSub gr f.tgtRes)) cfg.hystR) := rfl

/-- Settles O17: the gate open and the gate shut. -/
theorem blockUpdateAdvancesThenGates : Obligations.BlockUpdateAdvancesThenGates := by
  intro cfg f
  refine ⟨_, _, (gateValues b32 cfg.gateOn f).1, (gateValues b32 cfg.gateOn f).2, _, rfl, rfl,
    fun hpost => ?_, fun hpre => ?_, rfl, fun hopen => ?_, fun hf hr => ?_⟩
  · rw [hpost]
    exact ⟨rfl, rfl⟩
  · rw [hpre]
    exact ⟨rfl, rfl⟩
  · rw [blockUpdate_eq, if_pos (by rwa [gateOpen_b32, Bool.or_eq_true])]
    rfl
  · rw [blockUpdate_eq, gateOpen_b32, hf, hr]
    rfl

/-! ### A smoother step at its target -/

theorem roundInt_fpValue {c : F32} (hc : fpIsNaN c = false) : roundInt (fpValue c) = fpValue c :=
  le_antisymm (roundInt_le hc le_rfl) (le_roundInt hc le_rfl)

/-- A word of value zero is a zero of its sign. -/
theorem eq_fpZero_of_value {a : F32} (h : fpValue a = 0) : a = fpZero (fpSign a) := by
  have hmag : fpUnits (fpBits a) = fpUnits 0 := by
    rw [fpUnits_zero, ← Int.natCast_inj, ← fpMag, ← abs_fpValue, h]
    rfl
  rw [fpZero, ← fpUnits_strictMono.injective hmag, fpPack_sign_bits]

theorem fpIsFinite_of_value_zero {a : F32} (h : fpValue a = 0) : fpIsFinite a = true := by
  rw [fpIsFinite_iff_value, h]
  decide

/-- The sign of a number that is not zero is the sign of its value. -/
theorem decide_value_neg {a : F32} (h : fpValue a ≠ 0) : decide (fpValue a < 0) = fpSign a := by
  have hmag := fpMag_pos h
  rw [fpValue_eq_signed]
  cases fpSign a
  · exact decide_eq_false (by rw [signed_false]; omega)
  · exact decide_eq_true (by rw [signed_true]; omega)

/-- A product with a zero is a zero. -/
theorem fpValue_mul_of_zero {a b : F32} (ha : fpValue a = 0) (hb : fpIsFinite b = true) :
    fpValue (fpMul a b) = 0 := by
  have hmag : fpMag a = 0 := by
    rw [← Int.natCast_inj, ← abs_fpValue, ha]
    rfl
  rw [fpMul_finite (fpIsFinite_of_value_zero ha) hb, hmag, Nat.zero_mul, fpValue_round,
    roundBits_zero (Nat.two_pow_pos 149), fpUnits_zero]
  split <;> rfl

/-- Adding a zero leaves a number as it is, but that it can make a zero the positive one. -/
theorem fpAdd_of_zero {a z : F32} (ha : fpIsFinite a = true) (hz : fpValue z = 0) :
    fpAdd a z = a ∨ (fpValue a = 0 ∧ fpAdd a z = 0#32) := by
  rw [fpAdd_finite ha (fpIsFinite_of_value_zero hz)]
  unfold fpAddFinite
  simp only [hz, add_zero]
  split
  · next h0 =>
    cases hsign : fpSign a && fpSign z
    · exact .inr ⟨h0, rfl⟩
    · obtain ⟨ha1, -⟩ := Bool.and_eq_true_iff.1 hsign
      exact .inl (ha1 ▸ eq_fpZero_of_value h0).symm
  · next h0 =>
    refine .inl ?_
    have hbits : roundBits (fpValue a).natAbs 1 = fpBits a := by
      refine roundBits_exact Nat.one_pos (of_decide_eq_true ha).le ?_
      rw [← Int.natCast_inj, Int.natCast_natAbs, abs_fpValue, Nat.mul_one, fpMag]
    rw [decide_value_neg h0, fpRound, hbits, fpPack_sign_bits]

section
variable {c t r : F32} (hc : fpIsFinite c = true) (ht : fpIsFinite t = true) (hr : fpIsFinite r = true)
  (h : fpValue c = fpValue t)
include hc ht hr h

/-- A step at the target adds a zero. -/
theorem smoothStep_at_target :
    smoothStep b32 c t r = c ∨ (fpValue c = 0 ∧ smoothStep b32 c t r = 0#32) := by
  have hdist : fpValue (fpSub t c) = 0 := by rw [fpValue_sub ht hc, h, sub_self, roundInt_zero]
  exact fpAdd_of_zero hc (fpValue_mul_of_zero hdist hr)

theorem fpValue_smoothStep_at_target : fpValue (smoothStep b32 c t r) = fpValue c := by
  rcases smoothStep_at_target hc ht hr h with heq | ⟨h0, heq⟩
  · rw [heq]
  · rw [heq, h0, fpValue_posZero]

/-- A second step at the target changes nothing: a zero that is the positive one stays it. -/
theorem smoothStep_idem_at_target : smoothStep b32 (smoothStep b32 c t r) t r = smoothStep b32 c t r := by
  rcases smoothStep_at_target hc ht hr h with heq | ⟨h0, heq⟩
  · rw [heq, heq]
  · rw [heq]
    have hzero : fpValue 0#32 = fpValue t := fpValue_posZero.trans (h0.symm.trans h)
    rcases smoothStep_at_target (by decide) ht hr hzero with hstep | ⟨-, hstep⟩ <;> exact hstep

end

/-- The distance of a number from one of the same value passes no threshold. -/
theorem not_fpGt_distance {v t hyst : F32} (hv : fpIsFinite v = true) (ht : fpIsFinite t = true)
    (h : fpValue v = fpValue t) (hhyst : fpIsFinite hyst = true ∧ fpLt hyst 0#32 = false) :
    fpGt (fpAbs (fpSub v t)) hyst = false := by
  obtain ⟨hfin, h0⟩ := (finite_nonneg_iff hyst).1 hhyst
  have hdist : fpValue (fpSub v t) = 0 := by rw [fpValue_sub hv ht, h, sub_self, roundInt_zero]
  have habs : fpAbs (fpSub v t) = 0#32 := by
    rw [eq_fpZero_of_value hdist]
    cases fpSign (fpSub v t) <;> decide
  rw [habs, not_fpGt_iff (by decide) (fpIsNaN_of_finite hfin), fpValue_posZero]
  exact h0

/-! ### The block update at the targets -/

/-- Both current values of a unit are at their targets, all numbers finite. -/
structure AtTarget (f : FilterUnit F32) : Prop where
  curFreq : fpIsFinite f.curFreq = true
  tgtFreq : fpIsFinite f.tgtFreq = true
  curRes : fpIsFinite f.curRes = true
  tgtRes : fpIsFinite f.tgtRes = true
  smooth : fpIsFinite f.smooth = true
  freq : fpValue f.curFreq = fpValue f.tgtFreq
  res : fpValue f.curRes = fpValue f.tgtRes

theorem atTarget_of_legal {cfg : Config F32} {f : FilterUnit F32} (hcfg : ConfigValid cfg)
    (hf : FilterLegal cfg f) (hfreq : f.curFreq = f.tgtFreq) (hres : f.curRes = f.tgtRes) : AtTarget f where
  curFreq := hf.curFreqNumber.1
  tgtFreq := hfreq ▸ hf.curFreqNumber.1
  curRes := hf.curResNumber.1
  tgtRes := hres ▸ hf.curResNumber.1
  smooth := (number_of_smooth_inRange hcfg hf.smooth).1
  freq := congrArg fpValue hfreq
  res := congrArg fpValue hres

section
variable {f : FilterUnit F32} (h : AtTarget f)
include h

theorem fpValue_advanced_curFreq : fpValue (advanced b32 f).curFreq = fpValue f.curFreq :=
  fpValue_smoothStep_at_target h.curFreq h.tgtFreq h.smooth h.freq

theorem fpValue_advanced_curRes : fpValue (advanced b32 f).curRes = fpValue f.curRes :=
  fpValue_smoothStep_at_target h.curRes h.tgtRes h.smooth h.res

theorem atTarget_advanced : AtTarget (advanced b32 f) :=
  { h with
    curFreq := by rw [fpIsFinite_iff_value, fpValue_advanced_curFreq h, ← fpIsFinite_iff_value, h.curFreq]
    curRes := by rw [fpIsFinite_iff_value, fpValue_advanced_curRes h, ← fpIsFinite_iff_value, h.curRes]
    freq := (fpValue_advanced_curFreq h).trans h.freq
    res := (fpValue_advanced_curRes h).trans h.res }

/-- The delay line is free. -/
theorem atTarget_withDelay (x1 x2 y1 y2 : F32) :
    AtTarget { f with x1 := x1, x2 := x2, y1 := y1, y2 := y2 } := { h with }

theorem advanced_idem : advanced b32 (advanced b32 f) = advanced b32 f := by
  have hfreq : (advanced b32 (advanced b32 f)).curFreq = (advanced b32 f).curFreq :=
    smoothStep_idem_at_target h.curFreq h.tgtFreq h.smooth h.freq
  have hres : (advanced b32 (advanced b32 f)).curRes = (advanced b32 f).curRes :=
    smoothStep_idem_at_target h.curRes h.tgtRes h.smooth h.res
  calc advanced b32 (advanced b32 f)
    _ = { advanced b32 f with
          curFreq := (advanced b32 (advanced b32 f)).curFreq
          curRes := (advanced b32 (advanced b32 f)).curRes } := rfl
    _ = advanced b32 f := by rw [hfreq, hres]

variable {cfg : Config F32} (hcfg : ConfigValid cfg)
include hcfg

/-- At the targets the gate is shut, whichever values it tests. -/
theorem gateOpen_at_target (g : GateOn) :
    gateOpen b32 cfg f (gateValues b32 g f).1 (gateValues b32 g f).2 = false := by
  have hshut : ∀ k : FilterUnit F32, AtTarget k → k.tgtFreq = f.tgtFreq → k.tgtRes = f.tgtRes →
      gateOpen b32 cfg f k.curFreq k.curRes = false := by
    intro k hk hfreq hres
    rw [gateOpen_b32, ← hfreq, ← hres, not_fpGt_distance hk.curFreq hk.tgtFreq hk.freq hcfg.hystF,
      not_fpGt_distance hk.curRes hk.tgtRes hk.res hcfg.hystR]
    rfl
  cases g with
  | post => exact hshut (advanced b32 f) (atTarget_advanced h) rfl rfl
  | pre => exact hshut f h rfl rfl

theorem blockUpdate_at_target : blockUpdate b32 cfg f = advanced b32 f := by
  rw [blockUpdate_eq, gateOpen_at_target h hcfg]
  rfl

/-- After a block begun at the targets, a second block update changes nothing. -/
theorem blockUpdate_filterLoop_at_target (n a : Nat) (m : Memory) :
    blockUpdate b32 cfg (filterLoop n a (blockUpdate b32 cfg f) m).1 =
      (filterLoop n a (blockUpdate b32 cfg f) m).1 := by
  rw [blockUpdate_at_target h hcfg]
  obtain ⟨x1, x2, y1, y2, hunit⟩ := filterLoop_unit n a (advanced b32 f) m
  rw [hunit, blockUpdate_at_target (atTarget_withDelay (atTarget_advanced h) x1 x2 y1 y2) hcfg]
  calc _
    _ = { advanced b32 (advanced b32 f) with x1 := x1, x2 := x2, y1 := y1, y2 := y2 } := rfl
    _ = _ := by rw [advanced_idem h]

end

/-- Settles O45: with the gate shut, the advance of two values at their targets is all there is. -/
theorem blockUpdateRestsAtTarget : Obligations.BlockUpdateRestsAtTarget := by
  intro cfg f hcfg hf hfreq hres
  have h := atTarget_of_legal hcfg hf hfreq hres
  exact ⟨_, _, blockUpdate_at_target h hcfg, fpValue_advanced_curFreq h, fpValue_advanced_curRes h⟩

/-! ### A block in two parts (42_filter.md R152) -/

theorem toNat_add_of_le {a b : Word} {k : Nat} (h : a.toNat + b.toNat + k ≤ 2 ^ 32) (hk : 0 < k) :
    (a + b).toNat = a.toNat + b.toNat := by
  rw [BitVec.toNat_add, Nat.mod_eq_of_lt (by omega)]

theorem toNat_pos_of_ne_zero {a : Word} (h : a ≠ 0#32) : 0 < a.toNat := by
  bv_omega

/-- Settles O44: the second part's block update rests, so that its loop goes on where the first part's ended. -/
theorem filterBlocksJoinAtTarget : Obligations.FilterBlocksJoinAtTarget := by
  intro s t t' u ptr n m f hinv hf hfreq hres hptr hn hm hin hfirst hsecond
  have htarget := atTarget_of_legal hinv.cfg (hinv.filters u f hf) hfreq hres
  have hmem := hinv.cfg.memWords.2
  have hmpos := toNat_pos_of_ne_zero hm
  have hptrpos := toNat_pos_of_ne_zero hptr
  have hptrn : (ptr + n).toNat = ptr.toNat + n.toNat := toNat_add_of_le (k := m.toNat) (by omega) hmpos
  have hnm : (n + m).toNat = n.toNat + m.toNat := toNat_add_of_le (k := ptr.toNat) (by omega) hptrpos
  have hptrn0 : ptr + n ≠ 0#32 := by bv_omega
  have hnm0 : n + m ≠ 0#32 := by bv_omega
  rw [exec_fProcess_of_inside hf hptr hn (by omega)] at hfirst
  obtain rfl := Host.Outcome.next.inj hfirst
  have hrest := blockUpdate_filterLoop_at_target htarget hinv.cfg n.toNat ptr.toNat s.mem
  rw [exec_fProcess_of_inside (filter?_filterProcessed _ hf) hptrn0 hm (by rw [hptrn]; exact hin),
    filterProcessed_filterProcessed, filterProcessed_cfg, filterProcessed_mem, hrest, hptrn] at hsecond
  obtain rfl := Host.Outcome.next.inj hsecond
  rw [exec_fProcess_of_inside hf hptr hnm0 (by omega), hnm, filterLoop_add]

end Sys2Proof.Proofs
end

section
/-! The writers of each register of a filter unit (42_filter.md R150, 10_state.md R23, R28): the commands of the unit
write their own registers, and no other command reaches it. -/

namespace Sys2Proof.Proofs
open Sys2Proof.Machine

/-! ### The commands that are none of the unit's own -/

/-- The utility commands and D_PEEK (30_encoding.md R83, opcodes 0x30 to 0x34). -/
inductive UtilityCommand : Instr → Prop
  | clamp (v lo hi : F32) : UtilityCommand (.uClamp v lo hi)
  | lerp (a b t : F32) : UtilityCommand (.uLerp a b t)
  | dbToLin (db : F32) : UtilityCommand (.uDb2Lin db)
  | linToDb (lin : F32) : UtilityCommand (.uLin2Db lin)
  | diagPeek (sel : Word) : UtilityCommand (.dPeek sel)

/-- Every command is of one of the three families (30_encoding.md R83). -/
theorem command_families (i : Instr) :
    (∃ u, FilterCommand u i) ∨ (∃ u, OscCommand u i) ∨ UtilityCommand i := by
  cases i with
  | fCreate u sr => exact .inl ⟨u, .create sr⟩
  | fDestroy u => exact .inl ⟨u, .destroy⟩
  | fSetFreq u hz => exact .inl ⟨u, .setFreq hz⟩
  | fSetRes u r => exact .inl ⟨u, .setRes r⟩
  | fSetSmooth u rate => exact .inl ⟨u, .setSmooth rate⟩
  | fProcess u ptr count => exact .inl ⟨u, .process ptr count⟩
  | fReset u => exact .inl ⟨u, .reset⟩
  | fPeek u sel => exact .inl ⟨u, .peek sel⟩
  | oCreate u sr => exact .inr (.inl ⟨u, .create sr⟩)
  | oDestroy u => exact .inr (.inl ⟨u, .destroy⟩)
  | oSetFreq u hz => exact .inr (.inl ⟨u, .setFreq hz⟩)
  | oSetAmp u amp => exact .inr (.inl ⟨u, .setAmp amp⟩)
  | oSetWave u code => exact .inr (.inl ⟨u, .setWave code⟩)
  | oProcess u ptr count => exact .inr (.inl ⟨u, .process ptr count⟩)
  | oReset u => exact .inr (.inl ⟨u, .reset⟩)
  | oPeek u sel => exact .inr (.inl ⟨u, .peek sel⟩)
  | uClamp v lo hi => exact .inr (.inr (.clamp v lo hi))
  | uLerp a b t => exact .inr (.inr (.lerp a b t))
  | uDb2Lin db => exact .inr (.inr (.dbToLin db))
  | uLin2Db lin => exact .inr (.inr (.linToDb lin))
  | dPeek sel => exact .inr (.inr (.diagPeek sel))

/-- A register read answers in `RESULT`, or is a NOOP event. -/
theorem peekResult_next {s t : State} {x : Option Word} (h : peekResult s x = .next t) :
    t = noopEvent s ∨ ∃ v, t = s.setResult v := by
  cases x with
  | none => exact .inl (Host.Outcome.next.inj h).symm
  | some v => exact .inr ⟨v, (Host.Outcome.next.inj h).symm⟩

/-- A utility command, too. -/
theorem utilityCommand_next {i : Instr} {s t : State} (hi : UtilityCommand i) (h : exec i s = .next t) :
    t = noopEvent s ∨ ∃ v, t = s.setResult v := by
  cases hi with
  | clamp v lo hi => exact .inr ⟨_, (Host.Outcome.next.inj h).symm⟩
  | lerp a b t => exact .inr ⟨_, (Host.Outcome.next.inj h).symm⟩
  | dbToLin db => exact .inr ⟨_, (Host.Outcome.next.inj h).symm⟩
  | linToDb lin => exact .inr ⟨_, (Host.Outcome.next.inj h).symm⟩
  | diagPeek sel => exact peekResult_next h

/-- A command that is none of the unit's own leaves it as it was. -/
theorem filter?_of_not_command {u : Nat} {i : Instr} {s t : State} (h : exec i s = .next t)
    (hi : ¬ FilterCommand u i) : t.filter? u = s.filter? u := by
  rcases command_families i with ⟨v, hv⟩ | ⟨v, hv⟩ | hutil
  · exact congrArg Option.join ((filterCommand_next hv h).frame.others u fun heq => hi (heq ▸ hv))
  · unfold State.filter?
    rw [(oscCommand_next hv h).frame.filters]
  · rcases utilityCommand_next hutil h with rfl | ⟨v, rfl⟩ <;> rfl

/-! ### The commands of the unit -/

/-- What each command leaves of a live unit `f`: the unit as it was, or with the registers that the command
writes (42_filter.md R141 to R147). -/
inductive FilterWrite (u : Nat) (f : FilterUnit F32) : Instr → Option (FilterUnit F32) → Prop
  | keep (i : Instr) : FilterWrite u f i (some f)
  | create (sr : F32) (x : Option (FilterUnit F32)) : FilterWrite u f (.fCreate u sr) x
  | destroy : FilterWrite u f (.fDestroy u) none
  | tgtFreq (hz v : F32) : FilterWrite u f (.fSetFreq u hz) (some { f with tgtFreq := v })
  | tgtRes (r v : F32) : FilterWrite u f (.fSetRes u r) (some { f with tgtRes := v })
  | smooth (rate v : F32) : FilterWrite u f (.fSetSmooth u rate) (some { f with smooth := v })
  | reset : FilterWrite u f (.fReset u) (some (f.clearDelay b32))
  | process (ptr count : Word) (cf cr x1 x2 y1 y2 : F32) (c : Coefs F32) :
      FilterWrite u f (.fProcess u ptr count) (some
        { f with curFreq := cf, curRes := cr, b0 := c.b0, b1 := c.b1, b2 := c.b2, a1 := c.a1, a2 := c.a2
                 x1 := x1, x2 := x2, y1 := y1, y2 := y2 })

/-- The registers that F_PROCESS writes. -/
theorem filterLoop_blockUpdate_unit (cfg : Config F32) (n a : Nat) (f : FilterUnit F32) (m : Memory) :
    ∃ (cf cr x1 x2 y1 y2 : F32) (c : Coefs F32), (filterLoop n a (blockUpdate b32 cfg f) m).1 =
      { f with curFreq := cf, curRes := cr, b0 := c.b0, b1 := c.b1, b2 := c.b2, a1 := c.a1, a2 := c.a2
               x1 := x1, x2 := x2, y1 := y1, y2 := y2 } := by
  obtain ⟨x1, x2, y1, y2, hloop⟩ := filterLoop_unit n a (blockUpdate b32 cfg f) m
  obtain ⟨f', rfl, hupdate | hupdate⟩ := blockUpdate_cases b32 cfg f
  · exact ⟨_, _, x1, x2, y1, y2, ⟨f.b0, f.b1, f.b2, f.a1, f.a2⟩, by rw [hloop, hupdate]⟩
  · exact ⟨_, _, x1, x2, y1, y2, _, by rw [hloop, hupdate]; rfl⟩

section
variable {u : Nat} {s t : State} {f : FilterUnit F32} (hf : s.filter? u = some f)
include hf

theorem filter?_setFilter_live (x : Option (FilterUnit F32)) : (s.setFilter u x).filter? u = x :=
  filter?_setFilter_self x (filter_lt_of_live hf)

/-- A setter keeps the unit, or stores some number in its register. -/
theorem filterSetter_unit {v : F32} {lo hi : FilterUnit F32 → F32} {store : FilterUnit F32 → F32 → FilterUnit F32}
    (h : filterSetter u v lo hi store s = .next t) :
    t.filter? u = some f ∨ ∃ w, t.filter? u = some (store f w) := by
  obtain ⟨hnumber, hnan, -⟩ := filterSetter_spec u v lo hi store s
  cases hv : fpIsNaN v
  · rw [hnumber f hf hv] at h
    obtain rfl := Host.Outcome.next.inj h
    refine .inr ⟨clamp b32 v (lo f) (hi f), ?_⟩
    split
    · exact filter?_setFilter_live (s := clampEvent s) hf _
    · exact filter?_setFilter_live hf _
  · rw [hnan f hf hv] at h
    obtain rfl := Host.Outcome.next.inj h
    exact .inl hf

theorem filterWrite_setter {i : Instr} {v : F32} {lo hi : FilterUnit F32 → F32}
    {store : FilterUnit F32 → F32 → FilterUnit F32} (h : filterSetter u v lo hi store s = .next t)
    (hw : ∀ w, FilterWrite u f i (some (store f w))) : FilterWrite u f i (t.filter? u) := by
  rcases filterSetter_unit hf h with heq | ⟨w, heq⟩ <;> rw [heq]
  · exact .keep i
  · exact hw w

theorem filterWrite_fProcess {ptr count : Word} (h : exec (.fProcess u ptr count) s = .next t) :
    FilterWrite u f (.fProcess u ptr count) (t.filter? u) := by
  rw [exec_fProcess_of_live ptr count hf] at h
  rcases onBuffer_cases ptr count s _ with ⟨-, heq⟩ | ⟨-, -, heq⟩ | ⟨-, -, heq⟩ <;> rw [heq] at h
  · obtain rfl := Host.Outcome.next.inj h
    exact hf ▸ .keep _
  · obtain rfl := Host.Outcome.next.inj h
    obtain ⟨cf, cr, x1, x2, y1, y2, c, hunit⟩ :=
      filterLoop_blockUpdate_unit s.cfg count.toNat ptr.toNat f s.mem
    rw [filter?_filterProcessed _ hf, hunit]
    exact .process ptr count cf cr x1 x2 y1 y2 c
  · exact nomatch h

theorem filterWrite_fPeek {sel : Word} (h : execFPeek u sel s = .next t) :
    FilterWrite u f (.fPeek u sel) (t.filter? u) := by
  have hanswer : t = noopEvent s ∨ ∃ v, t = s.setResult v := by
    by_cases hsel : sel = selLive
    · subst hsel
      exact .inr ⟨_, (Host.Outcome.next.inj h).symm⟩
    · exact peekResult_next ((execFPeek_of_live hsel hf).symm.trans h)
  rcases hanswer with rfl | ⟨v, rfl⟩ <;> exact hf ▸ .keep _

/-- A command of a live unit leaves it as it was, or writes the command's own registers. -/
theorem filterCommand_write {i : Instr} (hi : FilterCommand u i) (h : exec i s = .next t) :
    FilterWrite u f i (t.filter? u) := by
  cases hi with
  | create sr => exact .create sr _
  | destroy =>
    obtain rfl := Host.Outcome.next.inj ((onFilter_of_live _ hf).symm.trans h)
    rw [filter?_setFilter_live hf]
    exact .destroy
  | setFreq hz => exact filterWrite_setter hf ((exec_fSetFreq u hz s).symm.trans h) (.tgtFreq hz)
  | setRes r => exact filterWrite_setter hf ((exec_fSetRes u r s).symm.trans h) (.tgtRes r)
  | setSmooth rate => exact filterWrite_setter hf ((exec_fSetSmooth u rate s).symm.trans h) (.smooth rate)
  | process ptr count => exact filterWrite_fProcess hf h
  | reset =>
    obtain rfl := Host.Outcome.next.inj ((execFReset_of_live hf).symm.trans h)
    rw [filter?_setFilter_live hf]
    exact .reset
  | peek sel => exact filterWrite_fPeek hf h

end

/-! ### The registers kept -/

/-- The registers of filter unit `u` the command `i`, no F_CREATE of it, leaves as they were. -/
def FilterRegistersKept (u : Nat) (i : Instr) (f g : FilterUnit F32) : Prop :=
  g.sampleRate = f.sampleRate ∧
  ((∀ p n, i ≠ .fProcess u p n) →
    g.curFreq = f.curFreq ∧ g.curRes = f.curRes ∧ g.b0 = f.b0 ∧ g.b1 = f.b1 ∧ g.b2 = f.b2 ∧
    g.a1 = f.a1 ∧ g.a2 = f.a2 ∧
    (i ≠ .fReset u → g.x1 = f.x1 ∧ g.x2 = f.x2 ∧ g.y1 = f.y1 ∧ g.y2 = f.y2)) ∧
  ((∀ x, i ≠ .fSetFreq u x) → g.tgtFreq = f.tgtFreq) ∧
  ((∀ x, i ≠ .fSetRes u x) → g.tgtRes = f.tgtRes) ∧
  ((∀ x, i ≠ .fSetSmooth u x) → g.smooth = f.smooth)

theorem filterRegistersKept_of_targets {u : Nat} {i : Instr} {f : FilterUnit F32} {tf tr sm : F32}
    (hfreq : (∀ x, i ≠ .fSetFreq u x) → tf = f.tgtFreq) (hres : (∀ x, i ≠ .fSetRes u x) → tr = f.tgtRes)
    (hsmooth : (∀ x, i ≠ .fSetSmooth u x) → sm = f.smooth) :
    FilterRegistersKept u i f { f with tgtFreq := tf, tgtRes := tr, smooth := sm } :=
  ⟨rfl, fun _ => ⟨rfl, rfl, rfl, rfl, rfl, rfl, rfl, fun _ => ⟨rfl, rfl, rfl, rfl⟩⟩, hfreq, hres, hsmooth⟩

theorem FilterWrite.registersKept {u : Nat} {i : Instr} {f g : FilterUnit F32} (h : FilterWrite u f i (some g))
    (hi : ∀ sr, i ≠ .fCreate u sr) : FilterRegistersKept u i f g := by
  cases h with
  | keep => exact filterRegistersKept_of_targets (fun _ => rfl) (fun _ => rfl) fun _ => rfl
  | create sr => exact absurd rfl (hi sr)
  | tgtFreq hz v =>
    exact filterRegistersKept_of_targets (fun hne => absurd rfl (hne hz)) (fun _ => rfl) fun _ => rfl
  | tgtRes r v =>
    exact filterRegistersKept_of_targets (fun _ => rfl) (fun hne => absurd rfl (hne r)) fun _ => rfl
  | smooth rate v =>
    exact filterRegistersKept_of_targets (fun _ => rfl) (fun _ => rfl) fun hne => absurd rfl (hne rate)
  | reset =>
    exact ⟨rfl, fun _ => ⟨rfl, rfl, rfl, rfl, rfl, rfl, rfl, fun hne => absurd rfl hne⟩, fun _ => rfl,
      fun _ => rfl, fun _ => rfl⟩
  | process ptr count =>
    exact ⟨rfl, fun hne => absurd rfl (hne ptr count), fun _ => rfl, fun _ => rfl, fun _ => rfl⟩

/-- Settles O37: a command of another unit does not reach the registers, and one of the unit writes its own. -/
theorem onlyCreateAndProcessMoveFilter : Obligations.OnlyCreateAndProcessMoveFilter := by
  intro s t i u f g h hf hg hcreate
  have hwrite : FilterWrite u f i (t.filter? u) := by
    by_cases hi : FilterCommand u i
    · exact filterCommand_write hf hi h
    · rw [filter?_of_not_command h hi, hf]
      exact .keep i
  exact (hg ▸ hwrite).registersKept hcreate

end Sys2Proof.Proofs
end

section
/-! The oscillator commands one by one (43_oscillator.md R176 to R183, O_PROCESS apart), by the handle test and the
tests of the operands. -/

namespace Sys2Proof.Proofs
open Sys2Proof.Machine

/-! ### O_CREATE (43_oscillator.md R176) -/

theorem execOCreate_of_index {u : Nat} {s : State} (sr : F32) (h : s.oscs.length ≤ u) :
    execOCreate u sr s = .next (noopEvent s) := if_pos h

theorem execOCreate_of_rejected {u : Nat} {sr : F32} {s : State} (hu : u < s.oscs.length)
    (h : rateAccepted b32 sr = false) : execOCreate u sr s = .next (noopEvent s) := by
  unfold execOCreate
  rw [if_neg (Nat.not_le.2 hu), h]
  rfl

theorem execOCreate_of_accepted {u : Nat} {sr : F32} {s : State} (hu : u < s.oscs.length)
    (h : rateAccepted b32 sr = true) :
    execOCreate u sr s = .next (s.setOsc u (some (newOsc b32 s.cfg sr))) := by
  unfold execOCreate
  rw [if_neg (Nat.not_le.2 hu), if_pos h]

/-- Settles O23: an index in range with a rate accepted, with a rate rejected, and an index out of range. -/
theorem oCreateInitialisesUnit : Obligations.OCreateInitialisesUnit := by
  intro s u sr
  refine ⟨fun hu hfinite hpos => ?_, fun hu hrate => ?_, execOCreate_of_index sr⟩
  · exact execOCreate_of_accepted hu (by rw [rateAccepted_eq, hfinite, hpos]; rfl)
  · exact execOCreate_of_rejected hu (by rwa [rateAccepted_eq, Bool.and_eq_false_iff])

/-! ### O_DESTROY (43_oscillator.md R177) -/

/-- Settles O24: a live unit's place in its own bank is emptied; a unit that is not live fails the handle test. -/
theorem oDestroyEndsUnit : Obligations.ODestroyEndsUnit := by
  intro s u
  constructor
  · intro o ho
    exact ⟨onOsc_of_live _ ho, osc?_setOsc_self none (osc_lt_of_live ho), fun v => filter?_setOsc s u v none⟩
  · exact onOsc_of_dead _

/-! ### The numeric setters (43_oscillator.md R178, R179) -/

/-- A numeric setter of an oscillator unit: the range of its operand and what it stores in the unit. -/
def oscSetter (u : Nat) (v lo hi : F32) (store : OscUnit F32 → F32 → OscUnit F32) (s : State) : Answer :=
  onOsc u s fun o => setClamped v lo hi s fun w t => t.setOsc u (some (store o w))

theorem exec_oSetFreq (u : Nat) (hz : F32) (s : State) :
    exec (.oSetFreq u hz) s = oscSetter u hz s.cfg.oscFmin s.cfg.oscFmax
      (fun o w => { o with freq := w, inc := fpDiv w o.sampleRate }) s := rfl

theorem exec_oSetAmp (u : Nat) (amp : F32) (s : State) :
    exec (.oSetAmp u amp) s = oscSetter u amp s.cfg.ampMin s.cfg.ampMax (fun o w => { o with amp := w }) s := rfl

/-- What a numeric setter does, by the handle test and the class of its operand. -/
theorem oscSetter_spec (u : Nat) (v lo hi : F32) (store : OscUnit F32 → F32 → OscUnit F32) (s : State) :
    (∀ o, s.osc? u = some o → fpIsNaN v = false →
      oscSetter u v lo hi store s = .next
        ((if fpLt v lo || fpGt v hi then clampEvent s else s).setOsc u (some (store o (clamp b32 v lo hi))))) ∧
    (∀ o, s.osc? u = some o → fpIsNaN v = true → oscSetter u v lo hi store s = .next (noopEvent s)) ∧
    (s.osc? u = none → oscSetter u v lo hi store s = .next (noopEvent s)) := by
  refine ⟨fun o ho hv => ?_, fun o ho hv => ?_, onOsc_of_dead _⟩
  · exact (onOsc_of_live _ ho).trans (setClamped_of_number lo hi s _ hv)
  · exact (onOsc_of_live _ ho).trans (setClamped_of_nan lo hi s _ hv)

/-- Settles O25: the setter of `FREQ`, which stores the increment beside it. -/
theorem oSetFreqWritesIncrement : Obligations.OSetFreqWritesIncrement := by
  intro s u hz
  rw [exec_oSetFreq]
  obtain ⟨hnumber, hnan, hdead⟩ := oscSetter_spec u hz s.cfg.oscFmin s.cfg.oscFmax
    (fun o w => { o with freq := w, inc := fpDiv w o.sampleRate }) s
  exact ⟨fun o ho hv => ⟨_, rfl, hnumber o ho hv⟩, hnan, hdead⟩

/-- Settles O26: the setter of `AMP`. -/
theorem oSetAmpWritesAmplitude : Obligations.OSetAmpWritesAmplitude := by
  intro s u a
  rw [exec_oSetAmp]
  exact oscSetter_spec u a _ _ _ s

/-! ### O_SET_WAVE (43_oscillator.md R180) -/

theorem waveOfCode_of_le {code : Word} (h : code.toNat ≤ 3) :
    waveOfCode code = some (BitVec.ofNat 2 code.toNat) := if_pos h

theorem waveOfCode_of_gt {code : Word} (h : 3 < code.toNat) : waveOfCode code = none := if_neg (Nat.not_le.2 h)

theorem execOSetWave_of_some {u : Nat} {code : Word} {s : State} {o : OscUnit F32} {k : BitVec 2}
    (ho : s.osc? u = some o) (h : waveOfCode code = some k) :
    execOSetWave u code s = .next (s.setOsc u (some { o with wave := k })) := by
  unfold execOSetWave
  rw [onOsc_of_live _ ho, h]

theorem execOSetWave_of_none {u : Nat} {code : Word} {s : State} {o : OscUnit F32}
    (ho : s.osc? u = some o) (h : waveOfCode code = none) :
    execOSetWave u code s = .next ((clampEvent s).setOsc u (some { o with wave := 0#2 })) := by
  unfold execOSetWave
  rw [onOsc_of_live _ ho, h]

/-- Settles O27: a code names a waveform up to 3 and none above. -/
theorem oSetWaveSelectsWaveform : Obligations.OSetWaveSelectsWaveform := by
  intro s u code
  refine ⟨fun o ho hcode => ?_, fun o ho hcode => ?_, onOsc_of_dead _⟩
  · exact execOSetWave_of_some ho (waveOfCode_of_le hcode)
  · exact execOSetWave_of_none ho (waveOfCode_of_gt hcode)

/-! ### O_RESET (43_oscillator.md R182) -/

theorem execOReset_of_live {u : Nat} {s : State} {o : OscUnit F32} (h : s.osc? u = some o) :
    execOReset u s = .next (s.setOsc u (some { o with phase := 0#32 })) := onOsc_of_live _ h

/-- Writing a live unit's own registers changes nothing. -/
theorem setOsc_self {s : State} {u : Nat} {o : OscUnit F32} (h : s.osc? u = some o) :
    s.setOsc u (some o) = s := by
  have hunit : s.oscs[u]? = some (some o) := Option.join_eq_some_iff.1 h
  have hset : s.oscs.set u (some o) = s.oscs := by
    obtain ⟨hlt, hget⟩ := List.getElem?_eq_some_iff.1 hunit
    rw [← hget, List.set_getElem_self]
  unfold State.setOsc
  rw [hset]

/-- Settles O29: the reset of a live unit, which at phase zero writes back what is there. -/
theorem oResetZeroesPhase : Obligations.OResetZeroesPhase := by
  intro s u
  refine ⟨fun o ho => execOReset_of_live ho, fun o ho hphase => ?_, onOsc_of_dead _⟩
  calc execOReset u s
    _ = .next (s.setOsc u (some { o with phase := 0#32 })) := execOReset_of_live ho
    _ = .next s := by rw [← hphase, setOsc_self ho]

/-! ### O_PEEK (43_oscillator.md R183) -/

/-- The registers of selectors 0 to 5, in their order (10_state.md R44). -/
def oscRegisters (o : OscUnit F32) : List F32 :=
  [o.sampleRate, o.freq, o.amp, BitVec.ofNat 32 o.wave.toNat, o.phase, o.inc]

theorem oscSelect_of_lt (o : OscUnit F32) {k : Nat} (h : k < 6) :
    oscSelect o (BitVec.ofNat 32 k) = (oscRegisters o)[k]? := by
  unfold oscRegisters
  rw [BitVec.ofNat_toNat]
  interval_cases k <;> rfl

theorem oscSelect_of_ge (o : OscUnit F32) {sel : Word} (h : 6 ≤ sel.toNat) : oscSelect o sel = none := by
  obtain ⟨n, hn⟩ := Nat.exists_eq_add_of_le' h
  unfold oscSelect
  rw [hn]
  rfl

theorem execOPeek_selLive (u : Nat) (s : State) :
    execOPeek u selLive s = .next (s.setResult (liveWord (s.osc? u).isSome)) := if_pos rfl

theorem execOPeek_of_dead {u : Nat} {sel : Word} {s : State} (hsel : sel ≠ selLive) (h : s.osc? u = none) :
    execOPeek u sel s = .next (noopEvent s) := (if_neg hsel).trans (onOsc_of_dead _ h)

theorem execOPeek_of_live {u : Nat} {sel : Word} {s : State} {o : OscUnit F32} (hsel : sel ≠ selLive)
    (h : s.osc? u = some o) : execOPeek u sel s = peekResult s (oscSelect o sel) :=
  (if_neg hsel).trans (onOsc_of_live _ h)

/-- Settles O30: selector 15 comes before the handle test; after it a live unit answers by the selector table. -/
theorem oPeekReadsRegister : Obligations.OPeekReadsRegister := by
  intro s u
  have hlive : exec (.oPeek u 15#32) s = .next (s.setResult (liveWord (s.osc? u).isSome)) :=
    execOPeek_selLive u s
  refine ⟨fun o ho => ⟨fun k hk => ?_, ?_, fun sel hsel hne => ?_⟩, fun hdead => ⟨?_, fun sel hne => ?_⟩⟩
  · obtain ⟨v, hv⟩ : ∃ v, (oscRegisters o)[k]? = some v := ⟨_, List.getElem?_eq_getElem hk⟩
    have hne : BitVec.ofNat 32 k ≠ selLive := by
      unfold selLive
      bv_omega
    refine ⟨v, ?_, hv⟩
    calc execOPeek u (BitVec.ofNat 32 k) s
      _ = peekResult s (oscSelect o (BitVec.ofNat 32 k)) := execOPeek_of_live hne ho
      _ = .next (s.setResult v) := by rw [oscSelect_of_lt o hk, hv, peekResult_some]
  · rw [hlive, ho]
    rfl
  · calc execOPeek u sel s
      _ = peekResult s (oscSelect o sel) := execOPeek_of_live hne ho
      _ = .next (noopEvent s) := by rw [oscSelect_of_ge o hsel, peekResult_none]
  · rw [hlive, hdead]
    rfl
  · exact execOPeek_of_dead hne hdead

end Sys2Proof.Proofs
end

section
/-! The sample loop of O_PROCESS (43_oscillator.md R175, R181): word by word what it leaves in its buffer, and a
block in two parts. -/

namespace Sys2Proof.Proofs
open Sys2Proof.Machine

/-! ### The command on a live unit -/

/-- The state after a sample loop on oscillator unit `u` that leaves `r`: the unit and the memory. -/
def oscProcessed (u : Nat) (r : OscUnit F32 × Memory) (s : State) : State :=
  { s.setOsc u (some r.1) with mem := r.2 }

@[simp] theorem oscProcessed_cfg (u : Nat) (r : OscUnit F32 × Memory) (s : State) :
    (oscProcessed u r s).cfg = s.cfg := rfl

@[simp] theorem oscProcessed_mem (u : Nat) (r : OscUnit F32 × Memory) (s : State) :
    (oscProcessed u r s).mem = r.2 := rfl

theorem osc?_oscProcessed {u : Nat} {s : State} {o : OscUnit F32} (r : OscUnit F32 × Memory)
    (ho : s.osc? u = some o) : (oscProcessed u r s).osc? u = some r.1 :=
  osc?_setOsc_self _ (osc_lt_of_live ho)

/-- Of two loops on one unit the second is what stays. -/
theorem oscProcessed_oscProcessed (u : Nat) (r r' : OscUnit F32 × Memory) (s : State) :
    oscProcessed u r' (oscProcessed u r s) = oscProcessed u r' s := by
  unfold oscProcessed State.setOsc
  rw [List.set_set]

/-- O_PROCESS on a live unit and a buffer inside the memory runs the sample loop. -/
theorem exec_oProcess_of_inside {u : Nat} {ptr count : Word} {s : State} {o : OscUnit F32}
    (ho : s.osc? u = some o) (hptr : ptr ≠ 0#32) (hcount : count ≠ 0#32)
    (hin : ptr.toNat + count.toNat ≤ s.cfg.memWords) :
    exec (.oProcess u ptr count) s = .next
      (oscProcessed u (oscLoop s.cfg count.toNat ptr.toNat o s.mem) s) :=
  (onOsc_of_live _ ho).trans (onBuffer_of_inside _ hptr hcount hin)

/-! ### The loop in parts -/

section
variable (cfg : Config F32)

/-- A loop in two parts: the second goes on where the first ends. -/
theorem oscLoop_add (n k a : Nat) (o : OscUnit F32) (m : Memory) :
    oscLoop cfg (n + k) a o m = oscLoop cfg k (a + n) (oscLoop cfg n a o m).1 (oscLoop cfg n a o m).2 := by
  induction n generalizing a o m with
  | zero => rw [Nat.zero_add]; rfl
  | succ n ih => rw [Nat.add_right_comm, oscLoop, ih, Nat.add_assoc, Nat.add_comm 1 n]; rfl

/-- The loop's last sample. -/
theorem oscLoop_succ_last (n a : Nat) (o : OscUnit F32) (m : Memory) :
    oscLoop cfg (n + 1) a o m =
      ((oscStep b32 cfg (oscLoop cfg n a o m).1).2,
        memWrite (oscLoop cfg n a o m).2 (a + n) (oscStep b32 cfg (oscLoop cfg n a o m).1).1) :=
  oscLoop_add cfg n 1 a o m

/-- The phase of a unit after `n` samples (43_oscillator.md R175). -/
def phaseAfter (o : OscUnit F32) (n : Nat) : F32 := (fun p => phaseNext b32 p o.inc)^[n] o.phase

/-- The word a loop leaves at a sample is the amplitude times the wave of the phase before the advance. -/
theorem memRead_oscLoop {n count : Nat} (a : Nat) (o : OscUnit F32) {m : Memory} (hm : m.wf = true)
    (hn : n < count) :
    memRead (oscLoop cfg count a o m).2 (a + n) = fpMul o.amp (waveOf b32 cfg o.wave (phaseAfter o n)) := by
  obtain ⟨k, rfl⟩ := Nat.exists_eq_add_of_le (Nat.succ_le_of_lt hn)
  rw [oscLoop_add cfg (n + 1) k, oscLoop_below cfg _ _ _ (by omega), oscLoop_succ_last,
    memRead_memWrite_self (oscLoop_wf cfg n a o hm), oscLoop_unit, oscStep_out, b32_fmul, phaseAfter]

end

/-! ### The waveform of a code (43_oscillator.md R170 to R174) -/

section
variable {F : Type} (N : Num F) (cfg : Config F) (p : F)

theorem waveOf_sine : waveOf N cfg 0#2 p = waveSine N cfg p := rfl

theorem waveOf_saw : waveOf N cfg 1#2 p = waveSaw N p := rfl

theorem waveOf_square : waveOf N cfg 2#2 p = waveSquare N p := rfl

theorem waveOf_tri : waveOf N cfg 3#2 p = waveTri N p := rfl

end

theorem waveSine_b32 (cfg : Config F32) (p : F32) : waveSine b32 cfg p = fpSin (fpMul cfg.twoPi p) := rfl

theorem waveSaw_b32 (p : F32) : waveSaw b32 p = fpSub (fpMul 0x40000000#32 p) 0x3F800000#32 := rfl

theorem waveSquare_b32 (p : F32) :
    waveSquare b32 p = if fpLt p 0x3F000000#32 then 0x3F800000#32 else 0xBF800000#32 := rfl

theorem waveTri_b32 (p : F32) :
    waveTri b32 p = if fpLt p 0x3F000000#32 then fpSub (fpMul 0x40800000#32 p) 0x3F800000#32
      else fpSub 0x40400000#32 (fpMul 0x40800000#32 p) := rfl

/-- Settles O28: the loop's words are known sample by sample, and it reaches no byte outside its buffer. -/
theorem oProcessFillsBuffer : Obligations.OProcessFillsBuffer := by
  intro s u ptr count o hwf ho hptr hcount hin
  refine ⟨(oscLoop s.cfg count.toNat ptr.toNat o s.mem).2, phaseAfter o, waveOf b32 s.cfg o.wave, rfl,
    fun hwave q => ?_, fun hwave q => ?_, fun hwave q => ?_, fun hwave q => ?_, fun _ => rfl, ?_,
    fun n hn => memRead_oscLoop s.cfg _ o hwf hn, fun _ => oscLoop_outside _ _ _ _ _⟩
  · rw [hwave, waveOf_sine, waveSine_b32]
  · rw [hwave, waveOf_saw, waveSaw_b32]
  · rw [hwave, waveOf_square, waveSquare_b32]
  · rw [hwave, waveOf_tri, waveTri_b32]
  · rw [exec_oProcess_of_inside ho hptr hcount hin, oscProcessed, oscLoop_unit, phaseAfter]

/-- Settles O43: the second part's loop goes on where the first part's ended. -/
theorem oscillatorBlocksJoin : Obligations.OscillatorBlocksJoin := by
  rintro s t t' u ptr n m hptr hn hm hin hmem ⟨o, ho⟩ hfirst hsecond
  have hmpos := toNat_pos_of_ne_zero hm
  have hptrpos := toNat_pos_of_ne_zero hptr
  have hptrn : (ptr + n).toNat = ptr.toNat + n.toNat := toNat_add_of_le (k := m.toNat) (by omega) hmpos
  have hnm : (n + m).toNat = n.toNat + m.toNat := toNat_add_of_le (k := ptr.toNat) (by omega) hptrpos
  have hptrn0 : ptr + n ≠ 0#32 := by bv_omega
  have hnm0 : n + m ≠ 0#32 := by bv_omega
  rw [exec_oProcess_of_inside ho hptr hn (by omega)] at hfirst
  obtain rfl := Host.Outcome.next.inj hfirst
  rw [exec_oProcess_of_inside (osc?_oscProcessed _ ho) hptrn0 hm (by rw [hptrn]; exact hin),
    oscProcessed_oscProcessed, oscProcessed_cfg, oscProcessed_mem, hptrn] at hsecond
  obtain rfl := Host.Outcome.next.inj hsecond
  rw [exec_oProcess_of_inside ho hptr hnm0 (by omega), hnm, oscLoop_add]

end Sys2Proof.Proofs
end

section
/-! The waveforms in binary32 (43_oscillator.md R170 to R175). A rounding does not pass a binary32 number, so a product
or a difference lies between two numbers that the exact result lies between; so do the waveforms, and so does a
waveform times an amplitude. -/

namespace Sys2Proof.Proofs
open Sys2Proof.Machine

/-- Settles O52: what is left above the floor lies below 1. -/
theorem phaseStaysNormalized : Obligations.PhaseStaysNormalized := fun _ _ hp hinc hneg =>
  phaseNext_legal hp hinc (fpValue_nonneg_of_not_lt hinc hneg)

/-! ### Products and differences between two numbers -/

/-- A monotone function of sizes that keeps zero is monotone on signed sizes. -/
theorem signed_map_le {f : Nat → Nat} (hf : Monotone f) (h0 : f 0 = 0) {s t : Bool} {m n : Nat}
    (h : signed s m ≤ signed t n) : signed s (f m) ≤ signed t (f n) := by
  cases s <;> cases t
  · rw [signed_false, signed_false, Int.ofNat_le] at *
    exact hf h
  · rw [signed_false, signed_true] at *
    obtain ⟨rfl, rfl⟩ : m = 0 ∧ n = 0 := by omega
    rw [h0]
    rfl
  · rw [signed_true, signed_false]
    omega
  · rw [signed_true, signed_true, Int.neg_le_neg_iff, Int.ofNat_le] at *
    exact hf h

theorem fpValue_mul_den (c : F32) (den : Nat) : fpValue c * den = signed (fpSign c) (fpMag c * den) := by
  rw [fpValue_eq_signed]
  cases fpSign c <;> simp [signed]

section
variable {sign : Bool} {num den : Nat} (hd : 0 < den) {c : F32} (hc : fpIsNaN c = false)
include hd

theorem roundUnits_mono : Monotone fun n => fpUnits (roundBits n den) :=
  fun _ _ h => fpUnits_le_iff.2 (roundBits_mono hd h)

theorem roundUnits_zero : fpUnits (roundBits 0 den) = 0 := by rw [roundBits_zero hd, fpUnits_zero]

include hc

/-- A number is its own rounding. -/
theorem fpValue_eq_rounded : fpValue c = signed (fpSign c) (fpUnits (roundBits (fpMag c * den) den)) := by
  have hexact : roundBits (fpMag c * den) den = fpBits c :=
    roundBits_exact hd (Nat.not_lt.1 (of_decide_eq_false hc)) rfl
  rw [hexact]
  rfl

/-- A rounding does not pass a number from below. -/
theorem fpValue_round_le (h : signed sign num ≤ fpValue c * den) :
    fpValue (fpRound sign num den) ≤ fpValue c := by
  rw [fpValue_mul_den] at h
  rw [fpValue_round, fpValue_eq_rounded hd hc]
  exact signed_map_le (roundUnits_mono hd) (roundUnits_zero hd) h

/-- A rounding does not pass a number from above. -/
theorem le_fpValue_round (h : fpValue c * den ≤ signed sign num) :
    fpValue c ≤ fpValue (fpRound sign num den) := by
  rw [fpValue_mul_den] at h
  rw [fpValue_round, fpValue_eq_rounded hd hc]
  exact signed_map_le (roundUnits_mono hd) (roundUnits_zero hd) h

end

section
variable {a b lo hi : F32} (ha : fpIsFinite a = true) (hb : fpIsFinite b = true) (hlo : fpIsNaN lo = false)
  (hhi : fpIsNaN hi = false)
include ha hb hlo hhi

/-- A product lies between two numbers that the exact product lies between. -/
theorem fpMul_inRange (h1 : fpValue lo * 2 ^ 149 ≤ fpValue a * fpValue b)
    (h2 : fpValue a * fpValue b ≤ fpValue hi * 2 ^ 149) : inRange (fpMul a b) lo hi = true := by
  obtain ⟨sign, num, hround, hexact⟩ := fpMul_eq_round ha hb
  rw [← hexact] at h1 h2
  rw [hround, inRange_iff_value hlo hhi]
  exact ⟨fpIsNaN_round _ _ _, le_fpValue_round (Nat.two_pow_pos 149) hlo (by exact_mod_cast h1),
    fpValue_round_le (Nat.two_pow_pos 149) hhi (by exact_mod_cast h2)⟩

/-- A difference lies between two numbers that the exact difference lies between. -/
theorem fpSub_inRange (h1 : fpValue lo ≤ fpValue a - fpValue b) (h2 : fpValue a - fpValue b ≤ fpValue hi) :
    inRange (fpSub a b) lo hi = true := by
  rw [inRange_iff_value hlo hhi, fpValue_sub ha hb]
  exact ⟨fpIsNaN_sub ha hb, le_roundInt hlo h1, roundInt_le hhi h2⟩

end

/-! ### The waveforms in [-1, 1] -/

theorem fpValue_negOne : fpValue fpNegOne = -2 ^ 149 := by decide

theorem fpValue_half : fpValue 0x3F000000#32 = 2 ^ 148 := by decide

theorem fpValue_two : fpValue 0x40000000#32 = 2 * 2 ^ 149 := by decide

theorem fpValue_three : fpValue 0x40400000#32 = 3 * 2 ^ 149 := by decide

theorem fpValue_four : fpValue 0x40800000#32 = 4 * 2 ^ 149 := by decide

theorem fpSin_inUnitRange {a : F32} (ha : fpIsFinite a = true) : inRange (fpSin a) fpNegOne fpOne = true := by
  have hallows := sinAllows_fpSin a
  unfold sinAllows at hallows
  rw [if_pos ha] at hallows
  simp only [Bool.and_eq_true] at hallows
  obtain ⟨⟨⟨hrange, -⟩, -⟩, -⟩ := hallows
  exact hrange

/-- One less than a number between 0 and 2. -/
theorem sub_one_inUnitRange {v : F32} (h : inRange v 0#32 0x40000000#32 = true) :
    inRange (fpSub v fpOne) fpNegOne fpOne = true := by
  have hfin : fpIsFinite v = true := finite_of_inRange (by decide) (by decide) h
  obtain ⟨-, h0, h2⟩ := (inRange_iff_value (by decide) (by decide)).1 h
  rw [fpValue_posZero] at h0
  rw [fpValue_two] at h2
  refine fpSub_inRange hfin (by decide) (by decide) (by decide) ?_ ?_
  · rw [fpValue_negOne, fpValue_one]
    omega
  · rw [fpValue_one]
    omega

/-- Three less a number between 2 and 4. -/
theorem three_sub_inUnitRange {v : F32} (h : inRange v 0x40000000#32 0x40800000#32 = true) :
    inRange (fpSub 0x40400000#32 v) fpNegOne fpOne = true := by
  have hfin : fpIsFinite v = true := finite_of_inRange (by decide) (by decide) h
  obtain ⟨-, h2, h4⟩ := (inRange_iff_value (by decide) (by decide)).1 h
  rw [fpValue_two] at h2
  rw [fpValue_four] at h4
  refine fpSub_inRange (by decide) hfin (by decide) (by decide) ?_ ?_
  · rw [fpValue_negOne, fpValue_three]
    omega
  · rw [fpValue_one, fpValue_three]
    omega

section
variable {p : F32} (hp : phaseLegal p = true)
include hp

/-- A legal phase is finite, and its value lies between 0 and 1. -/
theorem phaseLegal_number : fpIsFinite p = true ∧ 0 ≤ fpValue p ∧ fpValue p < 2 ^ 149 := by
  obtain ⟨-, h0, h1⟩ := phaseLegal_iff.1 hp
  have hfin : fpIsFinite p = true :=
    fpIsFinite_of_between (lo := 0#32) (hi := fpOne) (by decide) (by decide) (by rwa [fpValue_posZero]) h1.le
  rw [fpValue_one] at h1
  exact ⟨hfin, h0, h1⟩

theorem phase_lt_half_iff : fpLt p 0x3F000000#32 = true ↔ fpValue p < 2 ^ 148 := by
  rw [fpLt_iff (phaseLegal_iff.1 hp).1 (by decide), fpValue_half]

/-- A multiple of a phase lies between zero and the factor. -/
theorem mul_phase_inRange {k : F32} (hk : fpIsFinite k = true) (hk0 : 0 ≤ fpValue k) :
    inRange (fpMul k p) 0#32 k = true := by
  obtain ⟨hfin, h0, h1⟩ := phaseLegal_number hp
  refine fpMul_inRange hk hfin (by decide) (fpIsNaN_of_finite hk) ?_ (mul_le_mul_of_nonneg_left h1.le hk0)
  rw [fpValue_posZero, zero_mul]
  exact mul_nonneg hk0 h0

theorem waveSine_inUnitRange {cfg : Config F32} (hcfg : ConfigValid cfg) :
    inRange (waveSine b32 cfg p) fpNegOne fpOne = true := by
  have htwoPi : fpIsFinite cfg.twoPi = true ∧ 0 ≤ fpValue cfg.twoPi := by
    rw [hcfg.twoPi]
    decide
  have hangle := mul_phase_inRange hp htwoPi.1 htwoPi.2
  exact fpSin_inUnitRange (finite_of_inRange (by decide) htwoPi.1 hangle)

theorem waveSaw_inUnitRange : inRange (waveSaw b32 p) fpNegOne fpOne = true :=
  sub_one_inUnitRange (mul_phase_inRange hp (by decide) (by decide))

/-- Below one half `4p` lies between 0 and 2, else between 2 and 4. -/
theorem waveTri_inUnitRange : inRange (waveTri b32 p) fpNegOne fpOne = true := by
  obtain ⟨hfin, h0, h1⟩ := phaseLegal_number hp
  rw [waveTri_b32]
  split
  · next hlow =>
    have hhalf := (phase_lt_half_iff hp).1 hlow
    refine sub_one_inUnitRange (fpMul_inRange (by decide) hfin (by decide) (by decide) ?_ ?_)
    · rw [fpValue_posZero, fpValue_four]
      omega
    · rw [fpValue_two, fpValue_four]
      omega
  · next hhigh =>
    have hhalf := (phase_lt_half_iff hp).not.1 hhigh
    refine three_sub_inUnitRange (fpMul_inRange (by decide) hfin (by decide) (by decide) ?_ ?_)
    · rw [fpValue_two, fpValue_four]
      omega
    · rw [fpValue_four]
      omega

end

theorem waveSquare_inUnitRange (p : F32) : inRange (waveSquare b32 p) fpNegOne fpOne = true := by
  unfold waveSquare
  split <;> decide

theorem waveOf_inUnitRange {cfg : Config F32} (hcfg : ConfigValid cfg) (k : BitVec 2) {p : F32}
    (hp : phaseLegal p = true) : inRange (waveOf b32 cfg k p) fpNegOne fpOne = true := by
  unfold waveOf
  split_ifs
  · exact waveSine_inUnitRange hp hcfg
  · exact waveSaw_inUnitRange hp
  · exact waveSquare_inUnitRange p
  · exact waveTri_inUnitRange hp

/-- Settles O53, waveform by waveform. -/
theorem waveformsStayInUnitRange : Obligations.WaveformsStayInUnitRange := fun _ k _ hcfg hp =>
  waveOf_inUnitRange hcfg k hp

/-! ### The samples of a block -/

theorem samplesFrom_eq_map (m : Memory) (a n : Nat) :
    samplesFrom m a n = (List.range n).map fun k => memRead m (a + k) := by
  induction n generalizing a with
  | zero => rfl
  | succ n ih =>
    rw [samplesFrom, ih, List.range_succ_eq_map, List.map_cons, List.map_map]
    simp only [Function.comp_def, Nat.add_zero, Nat.add_assoc, Nat.add_comm 1]

/-- Where no increment overflows, the phase of a legal unit stays legal from sample to sample. -/
theorem phaseAfter_legal {cfg : Config F32} {o : OscUnit F32} (ho : OscLegal cfg o) (hcfg : ConfigValid cfg)
    (hb : incBounded cfg o.sampleRate = true) (n : Nat) : phaseLegal (phaseAfter o n) = true := by
  have hloop := (oscLegal_oscLoop ho hcfg n 0 []).phase
  rw [oscLoop_unit] at hloop
  exact hloop hb

/-- A legal amplitude is a number between 0 and 1. -/
theorem number_of_amp_inRange {cfg : Config F32} (hcfg : ConfigValid cfg) {v : F32}
    (h : inRange v cfg.ampMin cfg.ampMax = true) : fpIsFinite v = true ∧ 0 ≤ fpValue v := by
  rw [hcfg.ampMin, hcfg.ampMax] at h
  obtain ⟨-, h0, -⟩ := (inRange_iff_value (by decide) (by decide)).1 h
  have hmin : fpValue standardConfig.ampMin = 0 := by decide
  exact ⟨finite_of_inRange (by decide) (by decide) h, by omega⟩

/-- A number between -1 and 1 times an amplitude lies between the amplitude and its negative. -/
theorem fpMul_amp_inRange {amp w : F32} (hamp : fpIsFinite amp = true) (hamp0 : 0 ≤ fpValue amp)
    (hw : inRange w fpNegOne fpOne = true) : inRange (fpMul amp w) (fpNeg amp) amp = true := by
  have hwfin : fpIsFinite w = true := finite_of_inRange (by decide) (by decide) hw
  have hnum := fpIsNaN_of_finite hamp
  obtain ⟨-, hlow, hhigh⟩ := (inRange_iff_value (by decide) (by decide)).1 hw
  rw [fpValue_negOne] at hlow
  rw [fpValue_one] at hhigh
  refine fpMul_inRange hamp hwfin ((fpIsNaN_neg amp).trans hnum) hnum ?_
    (mul_le_mul_of_nonneg_left hhigh hamp0)
  calc fpValue (fpNeg amp) * 2 ^ 149
    _ = fpValue amp * -2 ^ 149 := by rw [fpValue_neg, neg_mul, mul_neg]
    _ ≤ fpValue amp * fpValue w := mul_le_mul_of_nonneg_left hlow hamp0

/-- Settles O47: every phase of the block is legal, so that its wave lies between -1 and 1. -/
theorem oscillatorOutputWithinAmplitude : Obligations.OscillatorOutputWithinAmplitude := by
  intro s t u ptr count o hinv ho hb hptr hcount h y hy
  have hlegal := hinv.oscs u o ho
  rw [mem_of_oProcess ho hptr hcount h, samplesFrom_eq_map, List.mem_map] at hy
  obtain ⟨n, hn, rfl⟩ := hy
  rw [memRead_oscLoop s.cfg _ o hinv.wf (List.mem_range.1 hn)]
  obtain ⟨hamp, hamp0⟩ := number_of_amp_inRange hinv.cfg hlegal.amp
  exact fpMul_amp_inRange hamp hamp0
    (waveOf_inUnitRange hinv.cfg o.wave (phaseAfter_legal hlegal hinv.cfg hb n))

end Sys2Proof.Proofs
end

section
/-! The oscillator in exact arithmetic (43_oscillator.md R175, R186): the phase after `m` samples is the fraction of the
first phase and `m` increments. -/

namespace Sys2Proof.Proofs
open Sys2Proof.Machine

section
variable {F : Type} (N : Num F) (cfg : Config F)

/-- A stream writes the phase and no other register: as many advances as samples. -/
theorem oscStream_unit (n : Nat) (o : OscUnit F) :
    (oscStream N cfg n o).2 = { o with phase := (fun p => phaseNext N p o.inc)^[n] o.phase } := by
  induction n generalizing o with
  | zero => rfl
  | succ n ih => rw [oscStream, ih]; rfl

/-- A stream in two parts: the second starts from the unit the first leaves. -/
theorem oscStream_add (n m : Nat) (o : OscUnit F) :
    oscStream N cfg (n + m) o =
      ((oscStream N cfg n o).1 ++ (oscStream N cfg m (oscStream N cfg n o).2).1,
        (oscStream N cfg m (oscStream N cfg n o).2).2) := by
  induction n generalizing o with
  | zero => rw [Nat.zero_add]; rfl
  | succ n ih => rw [Nat.add_right_comm, oscStream, ih]; rfl

end

theorem phaseNext_ideal (p inc : ℝ) : phaseNext ideal p inc = Int.fract (p + inc) := rfl

/-- From a phase in [0, 1), the phase `m` samples on. -/
theorem phaseNext_ideal_iterate {p : ℝ} (h0 : 0 ≤ p) (h1 : p < 1) (inc : ℝ) (m : Nat) :
    (fun q => phaseNext ideal q inc)^[m] p = Int.fract (p + m * inc) := by
  induction m with
  | zero => simp [Int.fract_eq_self.2 ⟨h0, h1⟩]
  | succ m ih =>
    rw [Function.iterate_succ_apply', ih, phaseNext_ideal, Int.fract_eq_fract]
    refine ⟨-⌊p + m * inc⌋, ?_⟩
    rw [Int.fract]
    push_cast
    ring

/-- Settles O58: after `n` increments of `1 / n` the phase has gone once around, to where it was. -/
theorem oscillatorIsPeriodicExactly : Obligations.OscillatorIsPeriodicExactly := by
  intro cfg o n hn hinc h0 h1
  have hphase : ∀ m, (oscStream ideal cfg m o).2.phase = Int.fract (o.phase + m * o.inc) := fun m => by
    rw [oscStream_unit, ← phaseNext_ideal_iterate h0 h1]
  have hround : (n : ℝ) * o.inc = 1 := by
    rw [hinc, mul_one_div_cancel (Nat.cast_ne_zero.2 hn.ne')]
  have hreturn : (oscStream ideal cfg n o).2 = o := by
    rw [oscStream_unit, phaseNext_ideal_iterate h0 h1, hround, Int.fract_add_one, Int.fract_eq_self.2 ⟨h0, h1⟩]
  refine ⟨hreturn, fun m => ?_, fun m => ?_⟩
  · rw [hphase]
    exact ⟨Int.fract_nonneg _, Int.fract_lt_one _⟩
  · rw [oscStream_add, hreturn]

end Sys2Proof.Proofs
end

section
/-! The utility commands and D_PEEK (44_utility.md R200 to R205): four answers in RESULT by the operands and the build
alone, and the read of a counter. -/

namespace Sys2Proof.Proofs
open Sys2Proof.Machine

/-! ### The four answers (44_utility.md R200 to R203) -/

theorem exec_uClamp (v lo hi : F32) (s : State) :
    exec (.uClamp v lo hi) s = .next (s.setResult (clamp b32 v lo hi)) := rfl

theorem exec_uLerp (a b t : F32) (s : State) :
    exec (.uLerp a b t) s = .next (s.setResult (fpAdd a (fpMul (fpSub b a) t))) := rfl

theorem exec_uDb2Lin (db : F32) (s : State) :
    exec (.uDb2Lin db) s = .next (s.setResult (fpPow10 (fpDiv db 0x41A00000#32))) := rfl

theorem exec_uLin2Db (lin : F32) (s : State) :
    exec (.uLin2Db lin) s =
      .next (s.setResult (fpMul 0x41A00000#32 (fpLog10 (floorEps b32 s.cfg lin)))) := rfl

/-- Settles O31: the clamp goes by its lower bound first, the logarithm's operand by its floor. -/
theorem utilityCommandsAnswerInResult : Obligations.UtilityCommandsAnswerInResult := fun s a b c =>
  ⟨⟨_, rfl, exec_uClamp a b c s⟩, exec_uLerp a b c s, exec_uDb2Lin a s, _, rfl, exec_uLin2Db a s⟩

/-! ### D_PEEK (44_utility.md R204) -/

theorem exec_dPeek (sel : Word) (s : State) : exec (.dPeek sel) s = peekResult s (diagSelect s sel) := rfl

theorem diagSelect_zero (s : State) : diagSelect s 0#32 = some s.diagClamp := rfl

theorem diagSelect_one (s : State) : diagSelect s 1#32 = some s.diagNoop := rfl

theorem diagSelect_of_ge (s : State) {sel : Word} (h : 2 ≤ sel.toNat) : diagSelect s sel = none := by
  obtain ⟨n, hn⟩ := Nat.exists_eq_add_of_le' h
  unfold diagSelect
  rw [hn]
  rfl

/-- Settles O32: the selector table has two rows. -/
theorem dPeekReadsCounter : Obligations.DPeekReadsCounter := by
  intro s
  refine ⟨?_, ?_, fun sel hsel => ?_⟩
  · rw [exec_dPeek, diagSelect_zero]
    exact peekResult_some s _
  · rw [exec_dPeek, diagSelect_one]
    exact peekResult_some s _
  · rw [exec_dPeek, diagSelect_of_ge s hsel]
    exact peekResult_none s

/-! ### The fixed points of the decibel scale (44_utility.md R202, R203) -/

/-- A zero of either sign, divided by a number that is not zero, is a zero. -/
theorem fpBits_div_of_zero {a b : F32} (ha : fpBits a = 0) (hb : fpIsFinite b = true) (h0 : fpValue b ≠ 0) :
    fpBits (fpDiv a b) = 0 := by
  have hfin : fpIsFinite a = true := by
    unfold fpIsFinite
    rw [ha]
    rfl
  have hmag : fpMag a = 0 := by
    unfold fpMag
    rw [ha, fpUnits_zero]
  rw [fpDiv_eq_round hfin hb h0, fpBits_round, hmag, Nat.zero_mul, roundBits_zero (fpMag_pos h0)]

/-- `P_POW10_ZERO` (00_scope.md R10). -/
theorem fpPow10_of_zero {a : F32} (h : fpBits a = 0) : fpPow10 a = fpOne := if_pos h

/-- `P_LOG10_ONE` (00_scope.md R10). -/
theorem fpLog10_one : fpLog10 fpOne = 0#32 := if_pos rfl

theorem exec_uDb2Lin_of_zero {db : F32} (h : fpBits db = 0) (s : State) :
    exec (.uDb2Lin db) s = .next (s.setResult fpOne) := by
  rw [exec_uDb2Lin, fpPow10_of_zero (fpBits_div_of_zero h (by decide) (by decide))]

theorem floorEps_of_above {cfg : Config F32} {lin : F32} (h : fpLt cfg.epsDb lin = true) :
    floorEps b32 cfg lin = lin := if_pos h

theorem floorEps_of_not_above {cfg : Config F32} {lin : F32} (h : fpLt cfg.epsDb lin = false) :
    floorEps b32 cfg lin = cfg.epsDb := if_neg (Bool.not_eq_true _ ▸ h)

theorem exec_uLin2Db_one {s : State} (hcfg : ConfigValid s.cfg) :
    exec (.uLin2Db fpOne) s = .next (s.setResult 0#32) := by
  have habove : fpLt s.cfg.epsDb fpOne = true := by
    rw [hcfg.epsDb]
    decide
  have htimes : fpMul 0x41A00000#32 0#32 = 0#32 := by decide
  rw [exec_uLin2Db, floorEps_of_above habove, fpLog10_one, htimes]

/-- The operand of the logarithm is a number from the floor on, a NaN replaced by the floor. -/
theorem floorEps_number {cfg : Config F32} (hcfg : ConfigValid cfg) (lin : F32) :
    fpIsNaN (floorEps b32 cfg lin) = false ∧ fpLt (floorEps b32 cfg lin) cfg.epsDb = false := by
  have heps : fpIsNaN cfg.epsDb = false := by
    rw [hcfg.epsDb]
    decide
  cases habove : fpLt cfg.epsDb lin with
  | false =>
    rw [floorEps_of_not_above habove]
    exact ⟨heps, (not_fpLt_iff heps heps).2 le_rfl⟩
  | true =>
    obtain ⟨-, hlin⟩ := not_nan_of_fpLt habove
    rw [floorEps_of_above habove]
    exact ⟨hlin, (not_fpLt_iff hlin heps).2 ((fpLt_iff heps hlin).1 habove).le⟩

/-- Settles O33: both zeros have a zero quotient, one lies above the floor, and the floor is a number. -/
theorem decibelFixedPoints : Obligations.DecibelFixedPoints :=
  ⟨fun s => ⟨exec_uDb2Lin_of_zero rfl s, exec_uDb2Lin_of_zero rfl s⟩,
    fun _ hcfg => exec_uLin2Db_one hcfg, fun _ lin hcfg => floorEps_number hcfg lin⟩

/-! ### Purity (44_utility.md R205) -/

/-- The command's one effect is an answer in RESULT that is a function of the build. -/
def AnswersByConfig (i : Instr) : Prop :=
  ∃ answer : Config F32 → F32, ∀ s, exec i s = .next (s.setResult (answer s.cfg))

theorem answersByConfig_uClamp (v lo hi : F32) : AnswersByConfig (.uClamp v lo hi) :=
  ⟨fun _ => clamp b32 v lo hi, exec_uClamp v lo hi⟩

theorem answersByConfig_uLerp (a b t : F32) : AnswersByConfig (.uLerp a b t) :=
  ⟨fun _ => fpAdd a (fpMul (fpSub b a) t), exec_uLerp a b t⟩

theorem answersByConfig_uDb2Lin (db : F32) : AnswersByConfig (.uDb2Lin db) :=
  ⟨fun _ => fpPow10 (fpDiv db 0x41A00000#32), exec_uDb2Lin db⟩

theorem answersByConfig_uLin2Db (lin : F32) : AnswersByConfig (.uLin2Db lin) :=
  ⟨fun cfg => fpMul 0x41A00000#32 (fpLog10 (floorEps b32 cfg lin)), exec_uLin2Db lin⟩

/-- Settles O36: the four answer by the build, and D_PEEK writes RESULT or counts a NOOP event. -/
theorem utilityCommandFrame : Obligations.UtilityCommandFrame := by
  intro s t i a b c h hi
  obtain hpure | rfl : AnswersByConfig i ∨ i = .dPeek a := by
    rcases hi with rfl | rfl | rfl | rfl | rfl
    · exact .inl (answersByConfig_uClamp a b c)
    · exact .inl (answersByConfig_uLerp a b c)
    · exact .inl (answersByConfig_uDb2Lin a)
    · exact .inl (answersByConfig_uLin2Db a)
    · exact .inr rfl
  · obtain ⟨answer, hanswer⟩ := hpure
    obtain rfl : s.setResult (answer s.cfg) = t := Host.Outcome.next.inj ((hanswer s).symm.trans h)
    refine ⟨rfl, rfl, rfl, rfl, rfl, rfl, fun _ => ⟨rfl, fun s' hcfg => ?_⟩⟩
    rw [setResult_result, ← hcfg]
    exact hanswer s'
  · rcases peekResult_next h with rfl | ⟨v, rfl⟩
    · exact ⟨rfl, rfl, rfl, rfl, rfl, rfl, fun hne => absurd rfl hne⟩
    · exact ⟨rfl, rfl, rfl, rfl, rfl, rfl, fun hne => absurd rfl hne⟩

end Sys2Proof.Proofs
end

section
/-! The outcomes and the events of a command word (60_exceptions.md R222 to R225, R234): one relation between the
causes the statements name and the answer of `exec`, proved once for each shared operation and then for each command.
From it follow both that a command counts exactly its events and that it stops only where it has no meaning. -/

namespace Sys2Proof.Proofs
open Sys2Proof.Machine

/-! ### An answer by its causes -/

/-- The answer of command `i` on `s` that the NOOP cause `c` and the range test `outside` of its operand call for:
a NOOP event for a cause, whatever the range test says; without one a CLAMP event or none, by the range test; and a
refusal where the command has no meaning. -/
inductive Caused (i : Instr) (s : State) : Option NoopCause → Bool → Answer → Prop
  | noop (c : NoopCause) (outside : Bool) : Caused i s (some c) outside (.next (noopEvent s))
  | clamp (t : State) : t.diagNoop = s.diagNoop → t.diagClamp = satInc s.diagClamp → Caused i s none true (.next t)
  | quiet (t : State) : t.diagNoop = s.diagNoop → t.diagClamp = s.diagClamp → Caused i s none false (.next t)
  | refused : hasMeaning i s = false → Caused i s none false (.refused .bufferOutsideMemory)

section
variable {i : Instr} {s : State} {c : Option NoopCause} {outside : Bool} {a : Answer}

theorem Caused.answer_of_noop (h : Caused i s c outside a) (hc : c.isSome = true) : a = .next (noopEvent s) := by
  cases h with
  | noop c outside => rfl
  | clamp t hn hk => exact nomatch hc
  | quiet t hn hk => exact nomatch hc
  | refused hm => exact nomatch hc

theorem Caused.diagNoop {t : State} (h : Caused i s c outside (.next t)) (hc : c.isNone = true) :
    t.diagNoop = s.diagNoop := by
  cases h with
  | noop c outside => exact nomatch hc
  | clamp t hn hk => exact hn
  | quiet t hn hk => exact hn

theorem Caused.diagClamp {t : State} (h : Caused i s c outside (.next t)) :
    t.diagClamp = if c.isNone && outside then satInc s.diagClamp else s.diagClamp := by
  cases h with
  | noop c outside => rfl
  | clamp t hn hk => exact hk
  | quiet t hn hk => exact hk

theorem Caused.next_of_meaning (h : Caused i s c outside a) (hm : hasMeaning i s = true) : ∃ t, a = .next t := by
  cases h with
  | noop c outside => exact ⟨_, rfl⟩
  | clamp t hn hk => exact ⟨t, rfl⟩
  | quiet t hn hk => exact ⟨t, rfl⟩
  | refused hno => exact nomatch hno.symm.trans hm

/-! ### The shared operations -/

/-- The handle test on a filter unit comes before the causes of the rest of the command. -/
theorem caused_onFilter {u : Nat} {k : FilterUnit F32 → Answer}
    (hk : ∀ f, s.filter? u = some f → Caused i s c outside (k f)) :
    Caused i s (if (s.filter? u).isNone then some .n2 else c) outside (onFilter u s k) := by
  cases hf : s.filter? u with
  | none => rw [onFilter_of_dead k hf]; exact .noop .n2 outside
  | some f => rw [onFilter_of_live k hf]; exact hk f hf

/-- The handle test on an oscillator unit, likewise. -/
theorem caused_onOsc {u : Nat} {k : OscUnit F32 → Answer}
    (hk : ∀ o, s.osc? u = some o → Caused i s c outside (k o)) :
    Caused i s (if (s.osc? u).isNone then some .n2 else c) outside (onOsc u s k) := by
  cases ho : s.osc? u with
  | none => rw [onOsc_of_dead k ho]; exact .noop .n2 outside
  | some o => rw [onOsc_of_live k ho]; exact hk o ho

/-- A CREATE: the index is tested before the sample rate (42_filter.md R141, 43_oscillator.md R176). -/
theorem caused_create {len u : Nat} {rate : Bool} {t : State} (hn : t.diagNoop = s.diagNoop)
    (hk : t.diagClamp = s.diagClamp) :
    Caused i s (if len ≤ u then some .n2 else if rate then none else some .n5) false
      (if len ≤ u then noop .n2 s else if rate then .next t else noop .n5 s) := by
  by_cases hu : len ≤ u
  · rw [if_pos hu, if_pos hu]
    exact .noop .n2 false
  · rw [if_neg hu, if_neg hu]
    cases rate with
    | true => exact .quiet t hn hk
    | false => exact .noop .n5 false

/-- A numeric setter: a NaN is tested before the range (00_scope.md R13), and the store reaches no counter. -/
theorem caused_setClamped (v lo hi : F32) {store : F32 → State → State}
    (hn : ∀ w t, (store w t).diagNoop = t.diagNoop) (hk : ∀ w t, (store w t).diagClamp = t.diagClamp) :
    Caused i s (if fpIsNaN v then some .n4 else none) (fpLt v lo || fpGt v hi) (setClamped v lo hi s store) := by
  cases hv : fpIsNaN v with
  | true => rw [setClamped_of_nan lo hi s store hv]; exact .noop .n4 _
  | false =>
    rw [setClamped_of_number lo hi s store hv]
    cases fpLt v lo || fpGt v hi with
    | true => exact .clamp _ (hn _ _) (hk _ _)
    | false => exact .quiet _ (hn _ _) (hk _ _)

/-- The buffer tests of a PROCESS: an empty buffer is tested before its place in the memory (20_memory.md R67). -/
theorem caused_onBuffer {ptr count : Word} {t : State} (hn : t.diagNoop = s.diagNoop)
    (hk : t.diagClamp = s.diagClamp)
    (hout : ptr ≠ 0#32 → count ≠ 0#32 → s.cfg.memWords < ptr.toNat + count.toNat → hasMeaning i s = false) :
    Caused i s (if ptr = 0#32 ∨ count = 0#32 then some .n3 else none) false (onBuffer ptr count s (.next t)) := by
  by_cases hempty : ptr = 0#32 ∨ count = 0#32
  · rw [if_pos hempty, onBuffer_of_empty _ hempty]
    exact .noop .n3 false
  · obtain ⟨hptr, hcount⟩ := not_or.1 hempty
    rw [if_neg hempty]
    rcases Nat.lt_or_ge s.cfg.memWords (ptr.toNat + count.toNat) with hlt | hin
    · rw [onBuffer_of_outside _ hptr hcount hlt]
      exact .refused (hout hptr hcount hlt)
    · rw [onBuffer_of_inside _ hptr hcount hin]
      exact .quiet t hn hk

/-- A register read with a selector table that ends at `bound`. -/
theorem caused_peekResult {sel : Word} {bound : Nat} {x : Option Word} (hx : x = none ↔ bound ≤ sel.toNat) :
    Caused i s (if bound ≤ sel.toNat then some .n6 else none) false (peekResult s x) := by
  cases x with
  | none => rw [if_pos (hx.1 rfl)]; exact .noop .n6 false
  | some v =>
    rw [if_neg fun hle => nomatch hx.2 hle]
    exact .quiet (s.setResult v) rfl rfl

/-- Selector 15 answers before the tests of the other selectors (30_encoding.md R91 step 3). -/
theorem caused_liveSelector {sel v : Word} (h : sel ≠ selLive → Caused i s c false a) :
    Caused i s (if sel = selLive then none else c) false (if sel = selLive then .next (s.setResult v) else a) := by
  by_cases hsel : sel = selLive
  · rw [if_pos hsel, if_pos hsel]
    exact .quiet (s.setResult v) rfl rfl
  · rw [if_neg hsel, if_neg hsel]
    exact h hsel

end

/-! ### Where the selector tables end (10_state.md R43 to R45) -/

theorem filterSelect_eq_none_iff (f : FilterUnit F32) {sel : Word} (hsel : sel ≠ selLive) :
    filterSelect f sel = none ↔ 16 ≤ sel.toNat := by
  refine ⟨fun hnone => ?_, filterSelect_of_ge f⟩
  by_contra hlt
  have hne : sel.toNat ≠ 15 := fun h => hsel (BitVec.eq_of_toNat_eq h)
  have hreg := filterSelect_of_lt f (k := sel.toNat) (by omega)
  rw [BitVec.ofNat_toNat, BitVec.setWidth_eq, hnone] at hreg
  have hlen : (filterRegisters f).length = 15 := rfl
  have hge := List.getElem?_eq_none_iff.1 hreg.symm
  omega

theorem oscSelect_eq_none_iff (o : OscUnit F32) {sel : Word} : oscSelect o sel = none ↔ 6 ≤ sel.toNat := by
  refine ⟨fun hnone => ?_, oscSelect_of_ge o⟩
  by_contra hlt
  have hreg := oscSelect_of_lt o (k := sel.toNat) (by omega)
  rw [BitVec.ofNat_toNat, BitVec.setWidth_eq, hnone] at hreg
  have hlen : (oscRegisters o).length = 6 := rfl
  have hge := List.getElem?_eq_none_iff.1 hreg.symm
  omega

theorem diagSelect_eq_none_iff (s : State) {sel : Word} : diagSelect s sel = none ↔ 2 ≤ sel.toNat := by
  refine ⟨fun hnone => ?_, diagSelect_of_ge s⟩
  by_contra hlt
  obtain h | h : sel.toNat = 0 ∨ sel.toNat = 1 := by omega
  · rw [show sel = 0#32 from BitVec.eq_of_toNat_eq h, diagSelect_zero] at hnone
    exact nomatch hnone
  · rw [show sel = 1#32 from BitVec.eq_of_toNat_eq h, diagSelect_one] at hnone
    exact nomatch hnone

/-! ### The commands without a meaning (60_exceptions.md R234) -/

theorem hasMeaning_fProcess_eq_false_iff {u : Nat} {ptr count : Word} {s : State} :
    hasMeaning (.fProcess u ptr count) s = false ↔ (∃ f, s.filter? u = some f) ∧ ptr ≠ 0#32 ∧ count ≠ 0#32 ∧
      s.cfg.memWords < ptr.toNat + count.toNat := by
  simp only [hasMeaning, Bool.or_eq_false_iff, emptyBuffer_eq_false_iff, bufferInside_eq_false_iff,
    Option.isNone_eq_false_iff, Option.isSome_iff_exists, and_assoc]

theorem hasMeaning_oProcess_eq_false_iff {u : Nat} {ptr count : Word} {s : State} :
    hasMeaning (.oProcess u ptr count) s = false ↔ (∃ o, s.osc? u = some o) ∧ ptr ≠ 0#32 ∧ count ≠ 0#32 ∧
      s.cfg.memWords < ptr.toNat + count.toNat := by
  simp only [hasMeaning, Bool.or_eq_false_iff, emptyBuffer_eq_false_iff, bufferInside_eq_false_iff,
    Option.isNone_eq_false_iff, Option.isSome_iff_exists, and_assoc]

/-! ### The commands -/

/-- The range of F_SET_FREQ is that of the unit it finds (10_state.md R24). -/
theorem clampCause_fSetFreq (u : Nat) (hz : F32) (s : State) :
    clampCause (.fSetFreq u hz) s = ((noopCause (.fSetFreq u hz) s).isNone && (s.filter? u).any fun f =>
      fpLt hz s.cfg.fFmin || fpGt hz (freqCeiling b32 s.cfg f.sampleRate)) := by
  unfold clampCause
  rfl

/-- The causes of R222, in the order of R225, and the range tests of R223 are those of the answer. -/
theorem exec_caused (i : Instr) (s : State) : ∃ outside, clampCause i s = ((noopCause i s).isNone && outside) ∧
    Caused i s (noopCause i s) outside (exec i s) := by
  cases i with
  | fCreate u sr => exact ⟨false, rfl, caused_create rfl rfl⟩
  | fDestroy u => exact ⟨false, rfl, caused_onFilter fun _ _ => .quiet _ rfl rfl⟩
  | fSetFreq u hz =>
    refine ⟨_, clampCause_fSetFreq u hz s, caused_onFilter fun f hf => ?_⟩
    rw [hf, Option.any_some]
    exact caused_setClamped hz _ _ (fun _ _ => rfl) fun _ _ => rfl
  | fSetRes u r =>
    exact ⟨_, rfl, caused_onFilter fun _ _ => caused_setClamped r _ _ (fun _ _ => rfl) fun _ _ => rfl⟩
  | fSetSmooth u rate =>
    exact ⟨_, rfl, caused_onFilter fun _ _ => caused_setClamped rate _ _ (fun _ _ => rfl) fun _ _ => rfl⟩
  | fProcess u ptr count =>
    exact ⟨false, rfl, caused_onFilter fun f hf => caused_onBuffer rfl rfl fun hptr hcount hout =>
      hasMeaning_fProcess_eq_false_iff.2 ⟨⟨f, hf⟩, hptr, hcount, hout⟩⟩
  | fReset u => exact ⟨false, rfl, caused_onFilter fun _ _ => .quiet _ rfl rfl⟩
  | fPeek u sel =>
    exact ⟨false, rfl, caused_liveSelector fun hsel => caused_onFilter fun f _ =>
      caused_peekResult (filterSelect_eq_none_iff f hsel)⟩
  | oCreate u sr => exact ⟨false, rfl, caused_create rfl rfl⟩
  | oDestroy u => exact ⟨false, rfl, caused_onOsc fun _ _ => .quiet _ rfl rfl⟩
  | oSetFreq u hz =>
    exact ⟨_, rfl, caused_onOsc fun _ _ => caused_setClamped hz _ _ (fun _ _ => rfl) fun _ _ => rfl⟩
  | oSetAmp u amp =>
    exact ⟨_, rfl, caused_onOsc fun _ _ => caused_setClamped amp _ _ (fun _ _ => rfl) fun _ _ => rfl⟩
  | oSetWave u code =>
    refine ⟨decide (3 < code.toNat), rfl, caused_onOsc fun o _ => ?_⟩
    rcases Nat.lt_or_ge 3 code.toNat with hgt | hle
    · rw [decide_eq_true hgt, waveOfCode_of_gt hgt]
      exact .clamp _ rfl rfl
    · rw [decide_eq_false (Nat.not_lt.2 hle), waveOfCode_of_le hle]
      exact .quiet _ rfl rfl
  | oProcess u ptr count =>
    exact ⟨false, rfl, caused_onOsc fun o ho => caused_onBuffer rfl rfl fun hptr hcount hout =>
      hasMeaning_oProcess_eq_false_iff.2 ⟨⟨o, ho⟩, hptr, hcount, hout⟩⟩
  | oReset u => exact ⟨false, rfl, caused_onOsc fun _ _ => .quiet _ rfl rfl⟩
  | oPeek u sel =>
    exact ⟨false, rfl, caused_liveSelector fun _ => caused_onOsc fun o _ =>
      caused_peekResult (oscSelect_eq_none_iff o)⟩
  | uClamp v lo hi => exact ⟨false, rfl, .quiet _ rfl rfl⟩
  | uLerp a b t => exact ⟨false, rfl, .quiet _ rfl rfl⟩
  | uDb2Lin db => exact ⟨false, rfl, .quiet _ rfl rfl⟩
  | uLin2Db lin => exact ⟨false, rfl, .quiet _ rfl rfl⟩
  | dPeek sel => exact ⟨false, rfl, caused_peekResult (diagSelect_eq_none_iff s)⟩

/-- Settles O39: an illegal word is a NOOP event by the decoder, a legal one by the causes of its answer. -/
theorem eventsHaveTheirCauses : Obligations.EventsHaveTheirCauses := by
  refine ⟨fun w s h => ?_, fun w i s t hi h => ?_, satInc_toNat⟩
  · cases hw : decode w with
    | error e => exact runWord_of_illegal (fun i hi => nomatch hw.symm.trans hi) s
    | ok i =>
      obtain ⟨outside, -, hcaused⟩ := exec_caused i s
      exact (runWord_of_decode hw s).trans (hcaused.answer_of_noop (h i hw))
  · obtain ⟨outside, hclamp, hcaused⟩ := exec_caused i s
    rw [(runWord_of_decode hi s).symm.trans h] at hcaused
    refine ⟨hcaused.diagNoop, ?_, fun hsome => ?_⟩
    · rw [hclamp]
      exact hcaused.diagClamp
    · rw [hclamp, Option.isNone_eq_false_iff.2 hsome, Bool.false_and]

/-! ### The outcome of a word -/

/-- The one case without a meaning: a PROCESS on a live unit whose buffer is not empty and leaves the memory
(20_memory.md R67). -/
def LeavesMemory (w : Command) (s : State) : Prop :=
  (∃ u ptr count, (∃ f, s.filter? u = some f) ∧ decode w = .ok (.fProcess u ptr count) ∧
    ptr ≠ 0#32 ∧ count ≠ 0#32 ∧ s.cfg.memWords < ptr.toNat + count.toNat) ∨
  (∃ u ptr count, (∃ o, s.osc? u = some o) ∧ decode w = .ok (.oProcess u ptr count) ∧
    ptr ≠ 0#32 ∧ count ≠ 0#32 ∧ s.cfg.memWords < ptr.toNat + count.toNat)

theorem leavesMemory_of_no_meaning {w : Command} {i : Instr} {s : State} (hw : decode w = .ok i)
    (h : hasMeaning i s = false) : LeavesMemory w s := by
  cases i with
  | fProcess u ptr count =>
    obtain ⟨hlive, hbuffer⟩ := hasMeaning_fProcess_eq_false_iff.1 h
    exact .inl ⟨u, ptr, count, hlive, hw, hbuffer⟩
  | oProcess u ptr count =>
    obtain ⟨hlive, hbuffer⟩ := hasMeaning_oProcess_eq_false_iff.1 h
    exact .inr ⟨u, ptr, count, hlive, hw, hbuffer⟩
  | _ => exact nomatch h

theorem runWord_of_leavesMemory {w : Command} {s : State} (h : LeavesMemory w s) :
    runWord w s = .refused .bufferOutsideMemory := by
  obtain ⟨u, ptr, count, ⟨f, hf⟩, hw, hptr, hcount, hout⟩ | ⟨u, ptr, count, ⟨o, ho⟩, hw, hptr, hcount, hout⟩ := h
  · exact (runWord_of_decode hw s).trans ((outsideBufferIsRefused s u ptr count hptr hcount hout).1 f hf)
  · exact (runWord_of_decode hw s).trans ((outsideBufferIsRefused s u ptr count hptr hcount hout).2 o ho)

theorem runWord_next {w : Command} {s : State} (h : ¬ LeavesMemory w s) : ∃ t, runWord w s = .next t := by
  cases hw : decode w with
  | error e => exact ⟨_, runWord_of_illegal (fun i hi => nomatch hw.symm.trans hi) s⟩
  | ok i =>
    obtain ⟨outside, -, hcaused⟩ := exec_caused i s
    have hmeaning : hasMeaning i s = true := Bool.eq_true_of_not_eq_false (mt (leavesMemory_of_no_meaning hw) h)
    rw [runWord_of_decode hw]
    exact hcaused.next_of_meaning hmeaning

/-- Settles O7: a word leaves the memory and is refused, or does not and has a next state. -/
theorem onlyOutsideBuffersAreRefused : Obligations.OnlyOutsideBuffersAreRefused := by
  intro w s
  by_cases h : LeavesMemory w s
  · exact .inl ⟨h, runWord_of_leavesMemory h⟩
  · exact .inr ⟨h, runWord_next h⟩

end Sys2Proof.Proofs
end

section
/-! A NaN in a filter unit (70_reset_and_hazards.md R253, 42_filter.md R146 case (e)): every product, sum and
difference passes a NaN on, so one in the sample or in the delay line reaches the output, and through `Y1` every
output after it. -/

namespace Sys2Proof.Proofs
open Sys2Proof.Machine

/-! ### A NaN operand (00_scope.md R9, 92_eei_decisions.md D39) -/

section
variable {a b : F32} (h : fpIsNaN a = true ∨ fpIsNaN b = true)
include h

theorem fpAdd_of_nan : fpAdd a b = fpQuietNaN := if_pos (Bool.or_eq_true_iff.2 h)

theorem fpMul_of_nan : fpMul a b = fpQuietNaN := if_pos (Bool.or_eq_true_iff.2 h)

theorem nan_fpAdd : fpIsNaN (fpAdd a b) = true := by
  rw [fpAdd_of_nan h]
  rfl

theorem nan_fpMul : fpIsNaN (fpMul a b) = true := by
  rw [fpMul_of_nan h]
  rfl

theorem nan_fpSub : fpIsNaN (fpSub a b) = true := nan_fpAdd (h.imp_right (fpIsNaN_neg b).trans)

end

/-! ### One sample (42_filter.md R140) -/

/-- One of the four registers of the delay line is a NaN. -/
def Poisoned (f : FilterUnit F32) : Prop :=
  fpIsNaN f.x1 = true ∨ fpIsNaN f.x2 = true ∨ fpIsNaN f.y1 = true ∨ fpIsNaN f.y2 = true

/-- Each of the five terms of the difference equation passes its NaN on to the sum. -/
theorem nan_biquadOut {f : FilterUnit F32} {x : F32} (h : fpIsNaN x = true ∨ Poisoned f) :
    fpIsNaN (biquadOut b32 f x) = true := by
  obtain hx | hx1 | hx2 | hy1 | hy2 := h
  · exact nan_fpSub (.inl (nan_fpSub (.inl (nan_fpAdd (.inl (nan_fpAdd (.inl (nan_fpMul (.inr hx)))))))))
  · exact nan_fpSub (.inl (nan_fpSub (.inl (nan_fpAdd (.inl (nan_fpAdd (.inr (nan_fpMul (.inr hx1)))))))))
  · exact nan_fpSub (.inl (nan_fpSub (.inl (nan_fpAdd (.inr (nan_fpMul (.inr hx2)))))))
  · exact nan_fpSub (.inl (nan_fpSub (.inr (nan_fpMul (.inr hy1)))))
  · exact nan_fpSub (.inr (nan_fpMul (.inr hy2)))

/-! ### A stream of samples -/

/-- The output goes into `Y1`, so the unit after a poisoned sample is poisoned again. -/
theorem nan_filterStream_cons {f : FilterUnit F32} {x : F32} (h : fpIsNaN x = true ∨ Poisoned f)
    (xs : List F32) :
    (∀ y ∈ (filterStream b32 f (x :: xs)).1, fpIsNaN y = true) ∧
      fpIsNaN (filterStream b32 f (x :: xs)).2.y1 = true := by
  have hout : fpIsNaN (biquadOut b32 f x) = true := nan_biquadOut h
  induction xs generalizing f x with
  | nil => exact ⟨List.forall_mem_singleton.2 hout, hout⟩
  | cons z zs ih =>
    have hnext : fpIsNaN z = true ∨ Poisoned (biquadStep b32 f x).2 := .inr (.inr (.inr (.inl hout)))
    obtain ⟨hys, hend⟩ := ih hnext (nan_biquadOut hnext)
    exact ⟨List.forall_mem_cons.2 ⟨hout, hys⟩, hend⟩

/-- Settles O46: from the first sample that meets a NaN on, every output is one. -/
theorem nanPoisonsDelayLine : Obligations.NanPoisonsDelayLine := by
  refine ⟨fun f xs hf => ?_, fun f xs zs x hx => ?_⟩
  · cases xs with
    | nil => exact ⟨nofun, fun h => h.resolve_left (absurd rfl)⟩
    | cons x xs =>
      obtain ⟨hys, hend⟩ := nan_filterStream_cons (.inr hf) xs
      exact ⟨hys, fun _ => hend⟩
  · obtain ⟨hys, hend⟩ := nan_filterStream_cons (f := (filterStream b32 f xs).2) (.inl hx) zs
    rw [filterStream_append]
    refine ⟨?_, ?_, hend⟩
    · rwa [List.drop_left' (filterStream_length b32 f xs)]
    · rw [List.length_append, filterStream_length, filterStream_length, List.length_cons, add_assoc]

end Sys2Proof.Proofs
end

section
/-! What HRESET leaves (70_reset_and_hazards.md R240), and why a gate read after an advance at rate one stays shut
(R254). -/

namespace Sys2Proof.Proofs
open Sys2Proof.Machine

/-! ### HRESET (70_reset_and_hazards.md R240, 10_state.md R41) -/

/-- Settles O10: the state after HRESET has empty banks of the old lengths, and reset is HRESET of the standard
build. -/
theorem hresetEndsEveryUnit : Obligations.HresetEndsEveryUnit :=
  ⟨fun s cells => ⟨filter?_hreset cells s, osc?_hreset cells s, filters_length_hreset cells s,
      oscs_length_hreset cells s, rfl, rfl, rfl, rfl, rfl⟩,
    filter?_hreset [] State.reset, osc?_hreset [] State.reset, rfl, rfl, rfl⟩

/-! ### Rate one in exact arithmetic (70_reset_and_hazards.md R254, 42_filter.md R149) -/

theorem smoothStep_ideal_one (c t : ℝ) : smoothStep ideal c t 1 = t := by
  rw [smoothStep_ideal_eq_lineMap, AffineMap.lineMap_apply_one]

theorem advanced_ideal_of_rate_one {f : FilterUnit ℝ} (h : f.smooth = 1) :
    advanced ideal f = { f with curFreq := f.tgtFreq, curRes := f.tgtRes } := by
  rw [advanced, h, smoothStep_ideal_one, smoothStep_ideal_one]

/-- No distance is left to exceed the hysteresis. -/
theorem gateOpen_ideal_at_target {cfg : Config ℝ} (f : FilterUnit ℝ) (hf : 0 ≤ cfg.hystF) (hr : 0 ≤ cfg.hystR) :
    gateOpen ideal cfg f f.tgtFreq f.tgtRes = false := by
  simp [gateOpen, ideal, hf, hr]

theorem gateValues_ideal_of_rate_one {f : FilterUnit ℝ} (h : f.smooth = 1) :
    gateValues ideal .post f = (f.tgtFreq, f.tgtRes) := by
  rw [gateValues, advanced_ideal_of_rate_one h]

/-- Settles O59: the advance reaches the targets before the gate is read, which finds them reached. -/
theorem rateOneNeverRecomputes : Obligations.RateOneNeverRecomputes := by
  intro cfg f hpost hf hr hrate
  rw [blockUpdate_eq, hpost, gateValues_ideal_of_rate_one hrate, gateOpen_ideal_at_target f hf hr,
    advanced_ideal_of_rate_one hrate]
  rfl

end Sys2Proof.Proofs
end
